-- ==== Sys2Proof/Word.lean ====
section
/-! DEFINITION. The word and byte types (00_scope.md R11: bit 0 is the least significant bit, a word is 32 bits). -/

namespace Sys2Proof

/-- A word is 32 bits (R11). Registers, addresses and frame words are words. -/
abbrev Word := BitVec 32

/-- The smallest unit of emulated memory (R60). -/
abbrev Byte := BitVec 8

end Sys2Proof
end

