-- ==== Sys2Proof/Config.lean ====
section
/-! DEFINITION. The decided parameters of 00_scope.md R8 and R9, and the two values the spec leaves free.
The OPEN parameters that are plain data (HW_DB, DEVICES, MAPPED, SUBSTRATE_IRQ_MAP) and the settable ones
(STRICT_EXC_RETURN, ENTRY_TIMING, NONMATCH_POLICY) stand in `Sys2Proof.Machine.Params`, so that every statement
holds for all their values (R9). TICK_INTERVAL and DEADLINE are read by no rule (R300) and are not held. -/

namespace Sys2Proof

/-- IMAGE_HEADER_BYTES (R8): 18 vector-table words. -/
def Config.imageHeaderBytes : Nat := 72

/-- CAPTURE_SCALE (R8, R228). -/
def Config.captureScale : Nat := 1000000

/-- NUM_CC (R8, R111): capture slots 0..5. -/
def Config.numCc : Nat := 6

/-- REG_RESET (R9, R191): the value of every device register at session start. -/
def Config.regReset : Word := 0

/-- SP_VIEW (R28, D16; OPEN): whether the substrate's SP names PSP (true) or MSP (false), for a CONTROL and an IPSR.
A free value: nothing is known of it. No operation of the block uses SP. Log 23. -/
opaque Config.spView : Word → BitVec 9 → Bool

/-- What a Radio reads as PACKETPTR when its RegisterFile has no such register, against R39. A free value. Log 21. -/
opaque Config.absentRegister : Word

end Sys2Proof
end

