-- ==== Sys2Proof/Syntax.lean ====
section
/-! DEFINITION. The operations of the block: one constructor of `Instr` for each row of spec/opcode_table.json
(30_encoding.md R107), their operand types, and the arrivals that are no row of the table. -/

namespace Sys2Proof

/-- A register name or a device identifier: a string (R103, R211), held as the list of its UTF-8 bytes. Log 5. -/
abbrev Ident := List Byte

/-- The closed set of device variants (R210). -/
inductive DevKind where
  | clock | gpio | rtc | radio | timer
  deriving DecidableEq, Repr

/-- The nine logical states of the Radio (R43). -/
inductive RadioState where
  | disabled | rxRampUp | rxIdle | rx | rxDisabled | txRampUp | txIdle | tx | txDisabled
  deriving DecidableEq, Repr

/-- The event kind a Radio callback is registered for (R223). -/
inductive CbKind where
  | tx | rx
  deriving DecidableEq, Repr

/-- One entry of HW_DB (R104): the address, the register's name (its metadata) and the owning device's identifier. -/
structure HwEntry where
  addr  : Word
  name  : Ident
  devId : Ident
  deriving DecidableEq, Repr

/-- One device instance of DEVICES, with its register list of HW_DB (R9, R39, R210). -/
structure DevSpec where
  id   : Ident
  kind : DevKind
  regs : List (Ident × Word)
  deriving DecidableEq, Repr

/-- A range of mapped byte addresses (R60). -/
structure Region where
  base : Nat
  size : Nat
  deriving DecidableEq, Repr

/-- What the substrate holds at launch, which R283 makes arguments of a session's initial state: R0 to R3, R12, LR, PSP,
xPSR (of which the session start keeps bits 31:9), S0 to S15 then FPSCR, the blocks of bytes of emulated memory, and
MAPPED. Log 26. -/
structure Launch where
  r0 : Word
  r1 : Word
  r2 : Word
  r3 : Word
  r12 : Word
  lr : Word
  psp : Word
  xpsr : Word
  fp : List Word
  mem : List (Word × List Byte)
  mapped : List Region
  deriving DecidableEq, Repr

/-- What a session starts on beside its image and its devices: the OPEN parameters HW_DB (R280) and SUBSTRATE_IRQ_MAP
(R9, R263: pairs of a substrate number and the exception number it asks for; log 7), and the launch draw with MAPPED (R283).
Log 26. -/
structure Platform where
  hwDb : List HwEntry
  irqMap : List (Nat × Nat)
  launch : Launch
  deriving DecidableEq, Repr

/-- The symbolic register ids of R12. -/
inductive RegId where
  | r0 | r1 | r2 | r3 | r12 | lr | pc | xpsr | ipsr | msp | psp | sp | control
  | s (k : Fin 16) | fpscr
  deriving DecidableEq, Repr

/-- The operations of the block, in the order of spec/opcode_table.json. -/
inductive Instr where
  | icRaise (n : Nat)
  | icBoundary
  | icEnter (n : Nat)
  | vtLookup (n : Nat)
  | vtParse (image : List Byte)
  | icBlockEntry (a : Word)
  | icReturn
  | icNonmatch (a : Word)
  | icEncode (spsel fpca : Bool)
  | icDecode (v : Word)
  | mmioLookup (a : Word)
  | mmioRead (a : Word) (n : Nat)
  | mmioWrite (a : Word) (n : Nat) (v : Word)
  | rfConstruct (dev : Ident) (regs : List (Ident × Word))
  | rfByName (dev name : Ident)
  | rfByAddr (dev : Ident) (a : Word)
  | rfSetByAddr (dev : Ident) (a : Word) (v : Nat)
  | rfSetByName (dev name : Ident) (v : Nat)
  | rfBit (dev name : Ident) (n : Nat)
  | rfBitRange (dev name : Ident) (first last : Nat)
  | devIdentify (d : Ident)
  | devRead (d : Ident) (a : Word)
  | devWrite (d : Ident) (a : Word) (v : Word)
  | clockHfclkstart (d : Ident) (v : Word)
  | gpioOutset (d : Ident) (v : Word)
  | gpioOutclr (d : Ident) (v : Word)
  | radioTxen (d : Ident) (v : Word)
  | radioRxen (d : Ident) (v : Word)
  | radioInject (d : Ident) (bytes : List Byte)
  | radioSetState (d : Ident) (st : RadioState)
  | radioRegCb (d : Ident) (kind : CbKind) (f : Nat)
  | timerStart (d : Ident)
  /-- `joins` is the draw of the environment (R226): true when the tick agent exits. Log 16. -/
  | timerStop (d : Ident) (joins : Bool)
  | timerTick (d : Ident)
  | timerCapture (d : Ident) (k : Nat)
  /-- `plat` holds HW_DB, SUBSTRATE_IRQ_MAP and the launch draw of R283. Log 26. -/
  | sessionStart (image : List Byte) (devs : List DevSpec) (plat : Platform)
  /-- `orphans` names the Timers whose tick agent fails to join in the teardown that follows (R226, R289). Log 16. -/
  | sessionDeadline (orphans : List Ident)
  deriving DecidableEq, Repr

/-- What the session's call `read state` asks for (R270): a CPU register, bytes of memory, a register of a RegisterFile,
or the log. -/
inductive ReadSel where
  | reg (id : RegId)
  | mem (a : Word) (n : Nat)
  | devReg (d name : Ident)
  | log
  deriving DecidableEq, Repr

/-- What happens during one invocation of a Radio callback, in order (R231, R271): the session's calls, and the ticks that
come between two of them, since the invocation is atomic with respect to the execution thread only (R72, R227).
`hang` is a callback that does not return. Log 17, 18, 19, 20. -/
inductive SessionCall where
  | raise (n : Nat)
  | registerCb (d : Ident) (kind : CbKind) (f : Nat)
  | injectPacket (d : Ident) (bytes : List Byte)
  | setState (d : Ident) (st : RadioState)
  | start (d : Ident)
  | stop (d : Ident) (joins : Bool)
  | setByAddress (d : Ident) (a : Word) (v : Nat)
  | setByName (d name : Ident) (v : Nat)
  | rawWrite (a : Word) (bytes : List Byte)
  | hang
  | rawRead (a : Word) (n : Nat)
  | read (sel : ReadSel)
  /-- Not a call: a step of the tick agent of `d` between two calls (R227). -/
  | tick (d : Ident)
  deriving DecidableEq, Repr

/-- How the substrate's run call halts by itself (R290 a and b). -/
inductive HaltReason where
  | budget | termination
  deriving DecidableEq, Repr

/-- What arrives at the block's ports, or happens around it, between two steps: an operation of the table, or one of the
events the spec describes beside it (log 25). -/
inductive Arrival where
  | op (i : Instr)
  /-- The hardware-interrupt hook with the substrate's interrupt number (R263). -/
  | hwIrq (k : Nat)
  /-- The substrate writes one of its registers (R262). -/
  | regWrite (id : RegId) (v : Word)
  /-- A raw read: an instruction fetch (R64) or the session's (R62). -/
  | rawRead (a : Word) (n : Nat)
  /-- A raw write by the session (R62, R231). -/
  | rawWrite (a : Word) (bytes : List Byte)
  /-- The run halts at its budget or at program termination, and teardown follows (R288, R290). -/
  | halt (why : HaltReason) (orphans : List Ident)
  /-- What the next invocations of callback `f` do (R231). Log 18. -/
  | bindCallback (f : Nat) (runs : List (List SessionCall))
  /-- The session's run call (R270, R280 step 7): from now on the substrate runs and its hooks come. No rule of the block
  reads the budget. Log 25. -/
  | run (budget : Nat)
  /-- The host sends DEVICES and HW_DB (R210, R270): the instances are named, and RF.CONSTRUCT builds each RegisterFile.
  Log 27. -/
  | nameDevices (devs : List (Ident × DevKind)) (db : List HwEntry)
  /-- Teardown after a fatal error (R288, R290 d). `orphans` as in SESSION.DEADLINE. -/
  | teardown (orphans : List Ident)
  /-- The session's call `read state` (R270). -/
  | read (sel : ReadSel)
  deriving DecidableEq, Repr

end Sys2Proof
end

