-- ==== Sys2Proof/Machine/State.lean ====
section
/-! DEFINITION. The complete state of the block (10_state.md R20 to R49), as plain data; the reasons a step can stop;
and the state after reset (70_reset_and_hazards.md R286). -/

namespace Sys2Proof.Machine

/-- S0..S15 and FPSCR: opaque 32-bit words (R33). -/
structure FpRegs where
  s0 : Word
  s1 : Word
  s2 : Word
  s3 : Word
  s4 : Word
  s5 : Word
  s6 : Word
  s7 : Word
  s8 : Word
  s9 : Word
  s10 : Word
  s11 : Word
  s12 : Word
  s13 : Word
  s14 : Word
  s15 : Word
  fpscr : Word
  deriving DecidableEq, Repr

/-- The CPU view (R20). IPSR is a field of xPSR (R25) and SP a view of MSP or PSP (R28): neither has storage of its own. -/
structure Cpu where
  r0 : Word
  r1 : Word
  r2 : Word
  r3 : Word
  r12 : Word
  lr : Word
  pc : Word
  xpsr : Word
  msp : Word
  psp : Word
  control : Word
  fp : FpRegs
  deriving DecidableEq, Repr

/-- Emulated memory `M` (R60): the listed bytes by address, in the canonical form of `Memory.wf` (Machine/Memory.lean);
an unlisted byte reads as `unlistedByte` (log 11). -/
abbrev Memory := List Host.Cell

/-- The 18 words of the vector table, under the names of R100. -/
structure VectorTable where
  initialSp : Word
  reset : Word
  nmi : Word
  hardfault : Word
  mgnmem : Word
  busfault : Word
  usefault : Word
  reserved7 : Word
  reserved8 : Word
  reserved9 : Word
  reserved10 : Word
  svc : Word
  dbgmon : Word
  reserved13 : Word
  pendsv : Word
  systick : Word
  watchdog : Word
  radio : Word
  deriving DecidableEq, Repr

/-- A record of the active-frame stack (R36). -/
structure FrameRec where
  irq : Nat
  excReturn : Word
  spsel : Bool
  fpca : Bool
  frameBase : Word
  deriving DecidableEq, Repr

/-- What a DuplicateRegister error names (R191, R211). -/
inductive Duplicate where
  | name (nm : Ident)
  | address (a : Word)
  | identify
  deriving DecidableEq, Repr

/-- The fatal errors with their diagnostics (R252). -/
inductive Fatal where
  | zeroVector (n : Nat)
  | absentVector (n : Nat)
  | duplicateRegister (dev : Ident) (what : Duplicate)
  | tickJoinFailure (timer : Ident)
  | imageTooShort (length : Nat)
  | illegalExcReturn (lr : Word)
  | returnOutsideHandler (lr : Word)
  | frameAccessUnmapped (a : Word)
  | unsupportedAccessSize (a : Word) (n : Nat)
  | substrateAccessFault (a : Word)
  deriving DecidableEq, Repr

/-- Whether GPIO pins are reported set or cleared (R215, R216). -/
inductive PinKind where
  | set | clear
  deriving DecidableEq, Repr

/-- What a NullPacketPtr warning names (R219, R221). -/
inductive WarnInfo where
  | tasksTxen | injectPacket
  deriving DecidableEq, Repr

/-- The events of the observation log (R38). The one warning is NullPacketPtr (D30). -/
inductive Event where
  | gpioPins (kind : PinKind) (pins : List Nat)
  | radioTx (bytes : List Byte)
  | radioRx
  | nullPacketPtr (info : WarnInfo)
  deriving DecidableEq, Repr

/-- A register (R103). -/
structure Reg where
  name : Ident
  addr : Word
  value : Word
  deriving DecidableEq, Repr

/-- The device fields beyond the RegisterFile (R40 to R44). A callback is a handle of session code (log 18). -/
inductive DevBody where
  | clock
  | gpio
  | rtc
  | radio (rstate : RadioState) (txCb rxCb : Option Nat)
  | timer (counter : Nat) (running : Bool)
  deriving DecidableEq, Repr

/-- A device instance: its identifier, its fields and its RegisterFile `RF[d]` (R39, R210). -/
structure Device where
  id : Ident
  body : DevBody
  regs : List Reg
  deriving DecidableEq, Repr

/-- ENTRY_TIMING (R9, D7). -/
inductive EntryTiming where
  | boundary | immediate
  deriving DecidableEq, Repr

/-- NONMATCH_POLICY (R9, D13): the spec gives it one value. -/
inductive NonmatchPolicy where
  | ignore
  deriving DecidableEq, Repr

/-- The parameters that no operation changes while a session runs (R45), held so that statements range over them. -/
structure Params where
  /-- HW_DB's lookup: the first entry of an address answers for it (R104). Log 6. -/
  hwDb : List HwEntry
  /-- MAPPED (R60). -/
  mapped : List Region
  /-- STRICT_EXC_RETURN (D11). -/
  strict : Bool
  timing : EntryTiming
  nonmatch : NonmatchPolicy
  /-- SUBSTRATE_IRQ_MAP (R263): the first entry of a substrate number answers for it; no entry is absent. SESSION.START
  brings the session's, as it brings HW_DB and MAPPED. Log 7, log 26. -/
  irqMap : List (Nat × Nat)
  deriving DecidableEq, Repr

/-- Where the execution thread stands. Log 14. -/
inductive Thread where
  /-- No session is under way: none has begun, or the run has ended and teardown is over (R288 to R290). -/
  | halted
  /-- A session has been started, and the substrate does not run yet (R280 step 6). -/
  | ready
  /-- The substrate runs (R280 step 7). -/
  | running
  /-- A callback has not returned (R231). -/
  | hung
  deriving DecidableEq, Repr

/-- What the next invocations of a callback do: the first list at the first invocation, and so on (log 18). -/
structure CbCode where
  id : Nat
  runs : List (List SessionCall)
  deriving DecidableEq, Repr

/-- What an operation hands back to its caller (R107, R270). The model's own (log 22). -/
inductive Value where
  | none
  | absent
  | word (w : Word)
  | mode (spsel fpca : Bool)
  | bool (b : Bool)
  | reg (r : Reg)
  | device (id : Ident)
  | bytes (bs : List Byte)
  | log (es : List Event)
  deriving DecidableEq, Repr

/-- The complete state of the block (R49), with the parameters (R45) and the model's own fields: `named` (log 27), `thread`
(log 14), `cbCode` (log 18), `arrivals` (log 1) and `ret` (log 22). -/
structure State where
  cpu : Cpu
  mem : Memory
  vt : VectorTable
  pend : List Nat
  afs : List FrameRec
  fatal : Option Fatal
  log : List Event
  devices : List Device
  /-- The instances of DEVICES whose RegisterFile is not built yet (R191, R280 step 3). -/
  named : List (Ident × DevKind)
  params : Params
  thread : Thread
  cbCode : List CbCode
  arrivals : List (List Byte)
  ret : Value
  deriving DecidableEq, Repr

/-- Why a step stops. Each is raised by `step` alone, in a state in which the spec lets no step be taken; no meaning of
an operation ends in one. -/
inductive Fault where
  /-- Raised by `step` once `fatal` is present: no agent takes another step (R37, R251, D42). Safe: the spec gives no step. -/
  | sessionAborted (f : Fatal)
  /-- Raised by `step` when no session is under way, for what comes only within one: no further operation runs on the
  execution thread (R280, R289, R290). Safe. -/
  | threadHalted
  /-- Raised by `step` before the run call, for what only a running substrate sends: its hooks and the halt of the run
  (R262, R280 step 7). Safe. -/
  | notRunning
  /-- Raised by `step` while a session is under way, for what comes only before it or after it: a session start, an image
  load, the construction of a device, a second run call, a teardown (R34, R190, R271, R288, R290). Safe. -/
  | sessionUnderWay
  /-- Raised by `step` after a callback that does not return: the execution thread has no further step (R231). Safe. -/
  | callbackHung
  deriving DecidableEq, Repr

/-- Why an operation is refused. Every operation of the table has its meaning, so none is. -/
inductive Refusal where
  /-- An arm of `exec` without a meaning would answer this, with the table's mnemonic. None does. Safe. -/
  | notModelled (mnemonic : String)
  deriving DecidableEq, Repr

/-- S0..S15 and FPSCR at launch: a launch draw (R283), here 0 (log 8). -/
def FpRegs.launch : FpRegs :=
  { s0 := 0, s1 := 0, s2 := 0, s3 := 0, s4 := 0, s5 := 0, s6 := 0, s7 := 0, s8 := 0, s9 := 0, s10 := 0, s11 := 0,
    s12 := 0, s13 := 0, s14 := 0, s15 := 0, fpscr := 0 }

/-- The vector table of an image of zeros (log 10). -/
def VectorTable.zero : VectorTable :=
  { initialSp := 0, reset := 0, nmi := 0, hardfault := 0, mgnmem := 0, busfault := 0, usefault := 0, reserved7 := 0,
    reserved8 := 0, reserved9 := 0, reserved10 := 0, svc := 0, dbgmon := 0, reserved13 := 0, pendsv := 0, systick := 0,
    watchdog := 0, radio := 0 }

/-- The CPU at launch (R286): MSP = VT[0], PC = VT[1], CONTROL = 0 and IPSR = 0; LR and xPSR as R283 recommends (log 9);
the other launch draws 0 (log 8). -/
def Cpu.launch : Cpu :=
  { r0 := 0, r1 := 0, r2 := 0, r3 := 0, r12 := 0, lr := 0xFFFFFFFF, pc := VectorTable.zero.reset, xpsr := 0x01000000,
    msp := VectorTable.zero.initialSp, psp := 0, control := 0, fp := FpRegs.launch }

/-- The parameters: the decided ones as R9 decides them, the OPEN ones as log 7 says. -/
def Params.launch : Params :=
  { hwDb := [], mapped := [{ base := 0, size := 0xFFFFFF00 }], strict := true, timing := .boundary, nonmatch := .ignore,
    irqMap := [] }

/-- The machine right after reset, before any session: every field at the value of R286 for an image of zeros and no
device (log 10). The image, HW_DB and DEVICES come with SESSION.START (log 1); no session is under way until then (log 14). -/
def State.reset : State :=
  { cpu := Cpu.launch, mem := [], vt := VectorTable.zero, pend := [], afs := [], fatal := none, log := [], devices := [],
    named := [], params := Params.launch, thread := .halted, cbCode := [], arrivals := [], ret := .none }

end Sys2Proof.Machine
end

