-- ==== Sys2Proof/Machine/Flags.lean ====
section
/-! DEFINITION. The bit fields of the block: the EXC_RETURN codec (30_encoding.md R90 to R95), the CONTROL fields (R96)
and the IPSR field of xPSR (R97). The block has no condition flags (10_state.md R46). -/

namespace Sys2Proof.Machine

/-- EXC_RETURN_BASE (R8). -/
def excReturnBase : Word := 0xFFFFFFE9

/-- encode (R91). -/
def encodeExcReturn (spsel fpca : Bool) : Word :=
  excReturnBase ||| ((BitVec.ofBool spsel).setWidth 32 <<< 2) ||| ((BitVec.ofBool (!fpca)).setWidth 32 <<< 4)

/-- decode's spsel (R93): bit 2. -/
def decodeSpsel (v : Word) : Bool := v.getLsbD 2

/-- decode's fpca (R93): the inverse of bit 4. -/
def decodeFpca (v : Word) : Bool := !v.getLsbD 4

/-- A legal EXC_RETURN (R94). -/
def legalExcReturn (v : Word) : Bool :=
  v.extractLsb' 5 27 == 0x7FFFFFF#27 && v.getLsbD 3 && !v.getLsbD 1 && v.getLsbD 0

/-- A block-entry address in the return range (R95). -/
def inReturnRange (a : Word) : Bool := a.extractLsb' 8 24 == 0xFFFFFF#24

/-- CONTROL.SPSEL (R96). -/
def spselOf (control : Word) : Bool := control.getLsbD 1

/-- CONTROL.FPCA (R96). -/
def fpcaOf (control : Word) : Bool := control.getLsbD 2

/-- with_mode (R96): CONTROL with bits 1 and 2 replaced. -/
def withMode (control : Word) (spsel fpca : Bool) : Word :=
  (control &&& ~~~0x00000006#32) ||| ((BitVec.ofBool spsel).setWidth 32 <<< 1) |||
    ((BitVec.ofBool fpca).setWidth 32 <<< 2)

/-- IPSR (R25): xPSR[8:0]. -/
def ipsrOf (xpsr : Word) : BitVec 9 := xpsr.extractLsb' 0 9

/-- with_ipsr (R97): xPSR with bits [8:0] replaced by the low 9 bits of `n`. -/
def withIpsr (xpsr : Word) (n : Nat) : Word := (xpsr &&& ~~~0x000001FF#32) ||| (BitVec.ofNat 9 n).setWidth 32

/-- The frame size in bytes (R106, R142): 32, or 100 with the extended part. -/
def frameSize (fpca : Bool) : Nat := if fpca then 100 else 32

end Sys2Proof.Machine
end

