-- ==== Sys2Proof/Machine/Names.lean ====
section
/-! DEFINITION. The names of the registers that the device rules name (43_devices.md, R111), and which of them a variant's
RegisterFile must contain (10_state.md R39). -/

namespace Sys2Proof.Machine

/-! ### Register names (43_devices.md, R111), as UTF-8 bytes (log 5) -/

/-- "TASKS_HFCLKSTART" -/
def nmTasksHfclkstart : Ident :=
  [0x54, 0x41, 0x53, 0x4B, 0x53, 0x5F, 0x48, 0x46, 0x43, 0x4C, 0x4B, 0x53, 0x54, 0x41, 0x52, 0x54]

/-- "EVENTS_HFCLKSTARTED" -/
def nmEventsHfclkstarted : Ident :=
  [0x45, 0x56, 0x45, 0x4E, 0x54, 0x53, 0x5F, 0x48, 0x46, 0x43, 0x4C, 0x4B, 0x53, 0x54, 0x41, 0x52, 0x54, 0x45, 0x44]

/-- "OUTSET" -/
def nmOutset : Ident := [0x4F, 0x55, 0x54, 0x53, 0x45, 0x54]

/-- "OUTCLR" -/
def nmOutclr : Ident := [0x4F, 0x55, 0x54, 0x43, 0x4C, 0x52]

/-- "TASKS_TXEN" -/
def nmTasksTxen : Ident := [0x54, 0x41, 0x53, 0x4B, 0x53, 0x5F, 0x54, 0x58, 0x45, 0x4E]

/-- "TASKS_RXEN" -/
def nmTasksRxen : Ident := [0x54, 0x41, 0x53, 0x4B, 0x53, 0x5F, 0x52, 0x58, 0x45, 0x4E]

/-- "PACKETPTR" -/
def nmPacketptr : Ident := [0x50, 0x41, 0x43, 0x4B, 0x45, 0x54, 0x50, 0x54, 0x52]

/-- "STATE" -/
def nmState : Ident := [0x53, 0x54, 0x41, 0x54, 0x45]

/-- A digit in square brackets: the index of a register array (R103). -/
def nmIndex (k : Nat) : Ident := [0x5B, BitVec.ofNat 8 (0x30 + k), 0x5D]

/-- "TASKS_CAPTURE[k]" for k in 0..5 -/
def nmTasksCapture (k : Nat) : Ident :=
  [0x54, 0x41, 0x53, 0x4B, 0x53, 0x5F, 0x43, 0x41, 0x50, 0x54, 0x55, 0x52, 0x45] ++ nmIndex k

/-- "CC[k]" for k in 0..5 -/
def nmCc (k : Nat) : Ident := [0x43, 0x43] ++ nmIndex k

/-- "TASKS_START" -/
def nmTasksStart : Ident := [0x54, 0x41, 0x53, 0x4B, 0x53, 0x5F, 0x53, 0x54, 0x41, 0x52, 0x54]

/-- "TASKS_STOP" -/
def nmTasksStop : Ident := [0x54, 0x41, 0x53, 0x4B, 0x53, 0x5F, 0x53, 0x54, 0x4F, 0x50]

/-- The registers that the device rules name for a variant (R39): R214 for the Clock, R215 and R216 for the GPIO, R219 to
R224 for the Radio, R228, R229 and the twelve of R111 for the Timer. -/
def requiredNames : DevKind → List Ident
  | .clock => [nmTasksHfclkstart, nmEventsHfclkstarted]
  | .gpio => [nmOutset, nmOutclr]
  | .rtc => []
  | .radio => [nmTasksTxen, nmTasksRxen, nmPacketptr, nmState]
  | .timer =>
    [nmTasksStart, nmTasksStop] ++ (List.range Config.numCc).map nmTasksCapture ++ (List.range Config.numCc).map nmCc

/-- Whether the required registers of a variant are among these names (R39). -/
def hasRequired (kind : DevKind) (names : List Ident) : Bool := (requiredNames kind).all fun nm => decide (nm ∈ names)

end Sys2Proof.Machine
end

