-- ==== Sys2Proof/WellFormed.lean ====
section
/-! DEFINITION. When an operation's operands are what the spec and the packet format (log 2) admit. -/

namespace Sys2Proof

/-- A packet carries a natural number in 64 bits (log 2). -/
def natFits (n : Nat) : Bool := decide (n < 2 ^ 64)

/-- A packet carries a list's length in 32 bits (log 2). -/
def lenFits {α : Type} (l : List α) : Bool := decide (l.length < 2 ^ 32)

/-- An n-byte access carries an 8n-bit value (R105). A size that is not 1 or 2 carries a whole word. -/
def valueFits (n : Nat) (v : Word) : Bool :=
  match n with
  | 1 => decide (v.toNat < 2 ^ 8)
  | 2 => decide (v.toNat < 2 ^ 16)
  | _ => true

def regsFit (regs : List (Ident × Word)) : Bool := lenFits regs && regs.all fun r => lenFits r.1

/-- A device of a session has at least the registers its variant's rules name (R39, R111). -/
def DevSpec.fits (d : DevSpec) : Bool :=
  (lenFits d.id && regsFit d.regs) && Machine.hasRequired d.kind (d.regs.map (·.1))

def HwEntry.fits (e : HwEntry) : Bool := lenFits e.name && lenFits e.devId

/-- A launch draw has 16 S registers and FPSCR. -/
def Launch.fits (l : Launch) : Bool :=
  decide (l.fp.length = 17) && (lenFits l.mem && l.mem.all fun b => lenFits b.2) &&
    (lenFits l.mapped && l.mapped.all fun r => natFits r.base && natFits r.size)

def Platform.fits (p : Platform) : Bool :=
  (lenFits p.hwDb && p.hwDb.all HwEntry.fits) &&
    (lenFits p.irqMap && p.irqMap.all fun e => natFits e.1 && natFits e.2) && p.launch.fits

def idsFit (ids : List Ident) : Bool := lenFits ids && ids.all lenFits

/-- The operands are ones the operation map (R107) and the packet format admit. A capture slot is one of 0..5 (R111). -/
def Instr.wellFormed : Instr → Bool
  | .icRaise n => natFits n
  | .icBoundary => true
  | .icEnter n => natFits n
  | .vtLookup n => natFits n
  | .vtParse image => lenFits image
  | .icBlockEntry _ => true
  | .icReturn => true
  | .icNonmatch _ => true
  | .icEncode _ _ => true
  | .icDecode _ => true
  | .mmioLookup _ => true
  | .mmioRead _ n => natFits n
  | .mmioWrite _ n v => natFits n && valueFits n v
  | .rfConstruct dev regs => lenFits dev && regsFit regs
  | .rfByName dev name => lenFits dev && lenFits name
  | .rfByAddr dev _ => lenFits dev
  | .rfSetByAddr dev _ v => lenFits dev && natFits v
  | .rfSetByName dev name v => lenFits dev && lenFits name && natFits v
  | .rfBit dev name n => lenFits dev && lenFits name && natFits n
  | .rfBitRange dev name first last => lenFits dev && lenFits name && natFits first && natFits last
  | .devIdentify d => lenFits d
  | .devRead d _ => lenFits d
  | .devWrite d _ _ => lenFits d
  | .clockHfclkstart d _ => lenFits d
  | .gpioOutset d _ => lenFits d
  | .gpioOutclr d _ => lenFits d
  | .radioTxen d _ => lenFits d
  | .radioRxen d _ => lenFits d
  | .radioInject d bytes => lenFits d && lenFits bytes
  | .radioSetState d _ => lenFits d
  | .radioRegCb d _ f => lenFits d && natFits f
  | .timerStart d => lenFits d
  | .timerStop d _ => lenFits d
  | .timerTick d => lenFits d
  | .timerCapture d k => lenFits d && decide (k < Config.numCc)
  | .sessionStart image devs plat => lenFits image && (lenFits devs && devs.all DevSpec.fits) && plat.fits
  | .sessionDeadline orphans => idsFit orphans

end Sys2Proof
end

