-- ==== Sys2Proof/Decode.lean ====
section
/-! DEFINITION. The decoder and the encoder of the packets that carry the arrivals. The block has no instruction words
(30_encoding.md R6): an operation is selected by its port and a selector (R107). A packet is the number of the
operation's row in spec/opcode_table.json, counted from 1 in the table's order, then its operands, every number
little-endian (log 2). Numbers from 0x80 are the arrivals that are no row of the table (log 25). -/

namespace Sys2Proof

/-! ### Byte order -/

/-- The `n` low bytes of a number, lowest first (R13, R61: little-endian). -/
def leBytes : Nat → Nat → List Byte
  | 0, _ => []
  | n + 1, v => BitVec.ofNat 8 v :: leBytes n (v / 256)

/-- The number that a list of bytes forms, lowest first (R13, R61). -/
def leValue : List Byte → Nat
  | [] => 0
  | b :: bs => b.toNat + 256 * leValue bs

/-! ### Reading operands -/

/-- A reader takes its operand off the front of the bytes, or answers none. -/
abbrev Reader (α : Type) := List Byte → Option (α × List Byte)

/-- The first `n` bytes and the rest. -/
def rdTake : Nat → Reader (List Byte)
  | 0, bs => some ([], bs)
  | _ + 1, [] => none
  | n + 1, b :: bs =>
    match rdTake n bs with
    | some (xs, rest) => some (b :: xs, rest)
    | none => none

/-- A number of `n` bytes. -/
def rdNum (n : Nat) : Reader Nat := fun bs =>
  match rdTake n bs with
  | some (xs, rest) => some (leValue xs, rest)
  | none => none

def rdWord : Reader Word := fun bs =>
  match rdNum 4 bs with
  | some (v, rest) => some (BitVec.ofNat 32 v, rest)
  | none => none

def rdNat : Reader Nat := rdNum 8

def rdBool : Reader Bool := fun bs =>
  match rdNum 1 bs with
  | some (0, rest) => some (false, rest)
  | some (1, rest) => some (true, rest)
  | _ => none

/-- Exactly `n` items, one after the other. -/
def rdMany {α : Type} (rd : Reader α) : Nat → Reader (List α)
  | 0, bs => some ([], bs)
  | n + 1, bs =>
    match rd bs with
    | some (x, rest) =>
      match rdMany rd n rest with
      | some (xs, rest') => some (x :: xs, rest')
      | none => none
    | none => none

/-- A list: its length in 4 bytes, then its items. -/
def rdList {α : Type} (rd : Reader α) : Reader (List α) := fun bs =>
  match rdNum 4 bs with
  | some (n, rest) => rdMany rd n rest
  | none => none

/-- A list of bytes: its length in 4 bytes, then the bytes. -/
def rdBytes : Reader (List Byte) := fun bs =>
  match rdNum 4 bs with
  | some (n, rest) => rdTake n rest
  | none => none

def rdMap {α β : Type} (f : α → β) (ra : Reader α) : Reader β := fun bs =>
  match ra bs with
  | some (a, rest) => some (f a, rest)
  | none => none

def rdPair {α β : Type} (ra : Reader α) (rb : Reader β) : Reader (α × β) := fun bs =>
  match ra bs with
  | some (a, rest) =>
    match rb rest with
    | some (b, rest') => some ((a, b), rest')
    | none => none
  | none => none

def rdTriple {α β γ : Type} (ra : Reader α) (rb : Reader β) (rc : Reader γ) : Reader (α × β × γ) :=
  rdPair ra (rdPair rb rc)

/-- No operand: the value itself, no byte taken. -/
def rdPure {α : Type} (a : α) : Reader α := fun bs => some (a, bs)

/-- One byte that numbers an entry of a fixed list. -/
def rdOneOf {α : Type} (all : List α) : Reader α := fun bs =>
  match rdNum 1 bs with
  | some (n, rest) =>
    match all[n]? with
    | some a => some (a, rest)
    | none => none
  | none => none

def allDevKinds : List DevKind := [.clock, .gpio, .rtc, .radio, .timer]

def allRadioStates : List RadioState :=
  [.disabled, .rxRampUp, .rxIdle, .rx, .rxDisabled, .txRampUp, .txIdle, .tx, .txDisabled]

def allCbKinds : List CbKind := [.tx, .rx]

def allHaltReasons : List HaltReason := [.budget, .termination]

/-- The register ids of R12 in its order, S0..S15 then FPSCR last. -/
def allRegIds : List RegId :=
  [.r0, .r1, .r2, .r3, .r12, .lr, .pc, .xpsr, .ipsr, .msp, .psp, .sp, .control,
   .s 0, .s 1, .s 2, .s 3, .s 4, .s 5, .s 6, .s 7, .s 8, .s 9, .s 10, .s 11, .s 12, .s 13, .s 14, .s 15, .fpscr]

def rdRegs : Reader (List (Ident × Word)) := rdList (rdPair rdBytes rdWord)

def rdDevSpec : Reader DevSpec :=
  rdMap (fun x => { id := x.1, kind := x.2.1, regs := x.2.2 }) (rdTriple rdBytes (rdOneOf allDevKinds) rdRegs)

def rdHwEntry : Reader HwEntry :=
  rdMap (fun x => { addr := x.1, name := x.2.1, devId := x.2.2 }) (rdTriple rdWord rdBytes rdBytes)

/-- A launch draw: 8 register words, 17 FP words, the blocks of memory, the regions of MAPPED. -/
def Launch.ofWords (ws : List Word) (mem : List (Word × List Byte)) (mapped : List Region) : Launch :=
  { r0 := ws.getD 0 0, r1 := ws.getD 1 0, r2 := ws.getD 2 0, r3 := ws.getD 3 0, r12 := ws.getD 4 0, lr := ws.getD 5 0,
    psp := ws.getD 6 0, xpsr := ws.getD 7 0, fp := ws.drop 8, mem := mem, mapped := mapped }

def Launch.words (l : Launch) : List Word := [l.r0, l.r1, l.r2, l.r3, l.r12, l.lr, l.psp, l.xpsr] ++ l.fp

def rdRegion : Reader Region := rdMap (fun x => { base := x.1, size := x.2 }) (rdPair rdNat rdNat)

def rdLaunch : Reader Launch :=
  rdMap (fun x => Launch.ofWords x.1 x.2.1 x.2.2)
    (rdTriple (rdMany rdWord 25) (rdList (rdPair rdWord rdBytes)) (rdList rdRegion))

def rdPlatform : Reader Platform :=
  rdMap (fun x => { hwDb := x.1, irqMap := x.2.1, launch := x.2.2 })
    (rdTriple (rdList rdHwEntry) (rdList (rdPair rdNat rdNat)) rdLaunch)

/-! ### The decoder -/

/-- Why a packet carries no operation: each reason under its own name. -/
inductive DecodeError where
  /-- The packet has no byte. -/
  | emptyPacket
  /-- The packet's number is no row of the table. -/
  | unknownOperation (number : Nat)
  /-- The operands end too early or hold a number with no meaning. -/
  | malformedOperands (number : Nat)
  /-- Bytes are left after the operands. -/
  | trailingBytes (number : Nat)
  /-- The operands are read, and the operation map does not admit them. -/
  | illFormed (number : Nat)
  deriving DecidableEq, Repr

/-- What a packet decodes to. -/
inductive Decoded (α : Type) where
  | ok (a : α)
  | bad (e : DecodeError)
  deriving DecidableEq, Repr

/-- The operands of the operation with a given number; none where the table has no such row. -/
def rdOperands : Nat → Option (Reader Instr)
  | 1 => some (rdMap .icRaise rdNat)
  | 2 => some (rdPure .icBoundary)
  | 3 => some (rdMap .icEnter rdNat)
  | 4 => some (rdMap .vtLookup rdNat)
  | 5 => some (rdMap .vtParse rdBytes)
  | 6 => some (rdMap .icBlockEntry rdWord)
  | 7 => some (rdPure .icReturn)
  | 8 => some (rdMap .icNonmatch rdWord)
  | 9 => some (rdMap (fun x => .icEncode x.1 x.2) (rdPair rdBool rdBool))
  | 10 => some (rdMap .icDecode rdWord)
  | 11 => some (rdMap .mmioLookup rdWord)
  | 12 => some (rdMap (fun x => .mmioRead x.1 x.2) (rdPair rdWord rdNat))
  | 13 => some (rdMap (fun x => .mmioWrite x.1 x.2.1 x.2.2) (rdTriple rdWord rdNat rdWord))
  | 14 => some (rdMap (fun x => .rfConstruct x.1 x.2) (rdPair rdBytes rdRegs))
  | 15 => some (rdMap (fun x => .rfByName x.1 x.2) (rdPair rdBytes rdBytes))
  | 16 => some (rdMap (fun x => .rfByAddr x.1 x.2) (rdPair rdBytes rdWord))
  | 17 => some (rdMap (fun x => .rfSetByAddr x.1 x.2.1 x.2.2) (rdTriple rdBytes rdWord rdNat))
  | 18 => some (rdMap (fun x => .rfSetByName x.1 x.2.1 x.2.2) (rdTriple rdBytes rdBytes rdNat))
  | 19 => some (rdMap (fun x => .rfBit x.1 x.2.1 x.2.2) (rdTriple rdBytes rdBytes rdNat))
  | 20 => some (rdMap (fun x => .rfBitRange x.1 x.2.1 x.2.2.1 x.2.2.2) (rdPair rdBytes (rdTriple rdBytes rdNat rdNat)))
  | 21 => some (rdMap .devIdentify rdBytes)
  | 22 => some (rdMap (fun x => .devRead x.1 x.2) (rdPair rdBytes rdWord))
  | 23 => some (rdMap (fun x => .devWrite x.1 x.2.1 x.2.2) (rdTriple rdBytes rdWord rdWord))
  | 24 => some (rdMap (fun x => .clockHfclkstart x.1 x.2) (rdPair rdBytes rdWord))
  | 25 => some (rdMap (fun x => .gpioOutset x.1 x.2) (rdPair rdBytes rdWord))
  | 26 => some (rdMap (fun x => .gpioOutclr x.1 x.2) (rdPair rdBytes rdWord))
  | 27 => some (rdMap (fun x => .radioTxen x.1 x.2) (rdPair rdBytes rdWord))
  | 28 => some (rdMap (fun x => .radioRxen x.1 x.2) (rdPair rdBytes rdWord))
  | 29 => some (rdMap (fun x => .radioInject x.1 x.2) (rdPair rdBytes rdBytes))
  | 30 => some (rdMap (fun x => .radioSetState x.1 x.2) (rdPair rdBytes (rdOneOf allRadioStates)))
  | 31 => some (rdMap (fun x => .radioRegCb x.1 x.2.1 x.2.2) (rdTriple rdBytes (rdOneOf allCbKinds) rdNat))
  | 32 => some (rdMap .timerStart rdBytes)
  | 33 => some (rdMap (fun x => .timerStop x.1 x.2) (rdPair rdBytes rdBool))
  | 34 => some (rdMap .timerTick rdBytes)
  | 35 => some (rdMap (fun x => .timerCapture x.1 x.2) (rdPair rdBytes rdNat))
  | 36 => some (rdMap (fun x => .sessionStart x.1 x.2.1 x.2.2) (rdTriple rdBytes (rdList rdDevSpec) rdPlatform))
  | 37 => some (rdMap .sessionDeadline (rdList rdBytes))
  | _ => none

/-- Decode one packet as an operation of the table. Total: whatever the bytes, an operation or a named reason. -/
def decode : List Byte → Decoded Instr
  | [] => .bad .emptyPacket
  | t :: rest =>
    match rdOperands t.toNat with
    | none => .bad (.unknownOperation t.toNat)
    | some rd =>
      match rd rest with
      | none => .bad (.malformedOperands t.toNat)
      | some (_, _ :: _) => .bad (.trailingBytes t.toNat)
      | some (i, []) => if i.wellFormed then .ok i else .bad (.illFormed t.toNat)

/-- What the session asks to read (R270). -/
def rdReadSel : Reader ReadSel := fun bs =>
  match rdNum 1 bs with
  | some (1, r) => rdMap .reg (rdOneOf allRegIds) r
  | some (2, r) => rdMap (fun x => .mem x.1 x.2) (rdPair rdWord (rdNum 4)) r
  | some (3, r) => rdMap (fun x => .devReg x.1 x.2) (rdPair rdBytes rdBytes) r
  | some (4, r) => rdPure .log r
  | _ => none

/-- The operands of one call of a callback (log 18, 20). -/
def rdSessionCall : Reader SessionCall := fun bs =>
  match rdNum 1 bs with
  | some (1, r) => rdMap .raise rdNat r
  | some (2, r) => rdMap (fun x => .registerCb x.1 x.2.1 x.2.2) (rdTriple rdBytes (rdOneOf allCbKinds) rdNat) r
  | some (3, r) => rdMap (fun x => .injectPacket x.1 x.2) (rdPair rdBytes rdBytes) r
  | some (4, r) => rdMap (fun x => .setState x.1 x.2) (rdPair rdBytes (rdOneOf allRadioStates)) r
  | some (5, r) => rdMap .start rdBytes r
  | some (6, r) => rdMap (fun x => .stop x.1 x.2) (rdPair rdBytes rdBool) r
  | some (7, r) => rdMap (fun x => .setByAddress x.1 x.2.1 x.2.2) (rdTriple rdBytes rdWord rdNat) r
  | some (8, r) => rdMap (fun x => .setByName x.1 x.2.1 x.2.2) (rdTriple rdBytes rdBytes rdNat) r
  | some (9, r) => rdMap (fun x => .rawWrite x.1 x.2) (rdPair rdWord rdBytes) r
  | some (10, r) => rdPure .hang r
  | some (11, r) => rdMap (fun x => .rawRead x.1 x.2) (rdPair rdWord (rdNum 4)) r
  | some (12, r) => rdMap .read rdReadSel r
  | some (13, r) => rdMap .tick rdBytes r
  | _ => none

/-- The operands of an arrival that is no row of the table (log 25). -/
def rdEvent : Nat → Option (Reader Arrival)
  | 0x80 => some (rdMap .hwIrq rdNat)
  | 0x81 => some (rdMap (fun x => .regWrite x.1 x.2) (rdPair (rdOneOf allRegIds) rdWord))
  | 0x82 => some (rdMap (fun x => .rawRead x.1 x.2) (rdPair rdWord (rdNum 4)))
  | 0x83 => some (rdMap (fun x => .rawWrite x.1 x.2) (rdPair rdWord rdBytes))
  | 0x84 => some (rdMap (fun x => .halt x.1 x.2) (rdPair (rdOneOf allHaltReasons) (rdList rdBytes)))
  | 0x85 => some (rdMap (fun x => .bindCallback x.1 x.2) (rdPair rdNat (rdList (rdList rdSessionCall))))
  | 0x86 => some (rdMap .run rdNat)
  | 0x87 => some (rdMap (fun x => .nameDevices x.1 x.2)
      (rdPair (rdList (rdPair rdBytes (rdOneOf allDevKinds))) (rdList rdHwEntry)))
  | 0x88 => some (rdMap .teardown (rdList rdBytes))
  | 0x89 => some (rdMap .read rdReadSel)
  | _ => none

/-- Decode one packet as an arrival: an event from 0x80 on, an operation of the table below it. -/
def decodeArrival : List Byte → Decoded Arrival
  | [] => .bad .emptyPacket
  | t :: rest =>
    match rdEvent t.toNat with
    | some rd =>
      match rd rest with
      | none => .bad (.malformedOperands t.toNat)
      | some (_, _ :: _) => .bad (.trailingBytes t.toNat)
      | some (a, []) => .ok a
    | none =>
      match decode (t :: rest) with
      | .ok i => .ok (.op i)
      | .bad e => .bad e

/-! ### The encoder -/

def wrWord (w : Word) : List Byte := leBytes 4 w.toNat

def wrNat (n : Nat) : List Byte := leBytes 8 n

def wrBool (b : Bool) : List Byte := if b then [1] else [0]

def wrBytes (bs : List Byte) : List Byte := leBytes 4 bs.length ++ bs

def wrList {α : Type} (wr : α → List Byte) (xs : List α) : List Byte := leBytes 4 xs.length ++ xs.flatMap wr

def wrOneOf {α : Type} [DecidableEq α] (all : List α) (a : α) : List Byte := leBytes 1 (all.idxOf a)

def wrRegs (regs : List (Ident × Word)) : List Byte := wrList (fun r => wrBytes r.1 ++ wrWord r.2) regs

def wrDevSpec (d : DevSpec) : List Byte := wrBytes d.id ++ (wrOneOf allDevKinds d.kind ++ wrRegs d.regs)

def wrHwEntry (e : HwEntry) : List Byte := wrWord e.addr ++ (wrBytes e.name ++ wrBytes e.devId)

def wrRegion (r : Region) : List Byte := wrNat r.base ++ wrNat r.size

def wrLaunch (l : Launch) : List Byte :=
  l.words.flatMap wrWord ++ (wrList (fun b => wrWord b.1 ++ wrBytes b.2) l.mem ++ wrList wrRegion l.mapped)

def wrPlatform (p : Platform) : List Byte :=
  wrList wrHwEntry p.hwDb ++ (wrList (fun e => wrNat e.1 ++ wrNat e.2) p.irqMap ++ wrLaunch p.launch)

/-- The packet of an operation. -/
def encode : Instr → List Byte
  | .icRaise n => 1 :: wrNat n
  | .icBoundary => [2]
  | .icEnter n => 3 :: wrNat n
  | .vtLookup n => 4 :: wrNat n
  | .vtParse image => 5 :: wrBytes image
  | .icBlockEntry a => 6 :: wrWord a
  | .icReturn => [7]
  | .icNonmatch a => 8 :: wrWord a
  | .icEncode s f => 9 :: (wrBool s ++ wrBool f)
  | .icDecode v => 10 :: wrWord v
  | .mmioLookup a => 11 :: wrWord a
  | .mmioRead a n => 12 :: (wrWord a ++ wrNat n)
  | .mmioWrite a n v => 13 :: (wrWord a ++ (wrNat n ++ wrWord v))
  | .rfConstruct dev regs => 14 :: (wrBytes dev ++ wrRegs regs)
  | .rfByName dev name => 15 :: (wrBytes dev ++ wrBytes name)
  | .rfByAddr dev a => 16 :: (wrBytes dev ++ wrWord a)
  | .rfSetByAddr dev a v => 17 :: (wrBytes dev ++ (wrWord a ++ wrNat v))
  | .rfSetByName dev name v => 18 :: (wrBytes dev ++ (wrBytes name ++ wrNat v))
  | .rfBit dev name n => 19 :: (wrBytes dev ++ (wrBytes name ++ wrNat n))
  | .rfBitRange dev name first last => 20 :: (wrBytes dev ++ (wrBytes name ++ (wrNat first ++ wrNat last)))
  | .devIdentify d => 21 :: wrBytes d
  | .devRead d a => 22 :: (wrBytes d ++ wrWord a)
  | .devWrite d a v => 23 :: (wrBytes d ++ (wrWord a ++ wrWord v))
  | .clockHfclkstart d v => 24 :: (wrBytes d ++ wrWord v)
  | .gpioOutset d v => 25 :: (wrBytes d ++ wrWord v)
  | .gpioOutclr d v => 26 :: (wrBytes d ++ wrWord v)
  | .radioTxen d v => 27 :: (wrBytes d ++ wrWord v)
  | .radioRxen d v => 28 :: (wrBytes d ++ wrWord v)
  | .radioInject d bytes => 29 :: (wrBytes d ++ wrBytes bytes)
  | .radioSetState d st => 30 :: (wrBytes d ++ wrOneOf allRadioStates st)
  | .radioRegCb d kind f => 31 :: (wrBytes d ++ (wrOneOf allCbKinds kind ++ wrNat f))
  | .timerStart d => 32 :: wrBytes d
  | .timerStop d joins => 33 :: (wrBytes d ++ wrBool joins)
  | .timerTick d => 34 :: wrBytes d
  | .timerCapture d k => 35 :: (wrBytes d ++ wrNat k)
  | .sessionStart image devs plat => 36 :: (wrBytes image ++ (wrList wrDevSpec devs ++ wrPlatform plat))
  | .sessionDeadline orphans => 37 :: wrList wrBytes orphans

/-! ### The table's own words

Only three rows of the table have fixed bits, IC.RETURN, IC.ENCODE and IC.DECODE, and their words overlap: a word
does not name the port it arrives on. The most specific row wins (log 3). -/

/-- A legal EXC_RETURN by its bits (R94): the pattern of the rows IC.ENCODE and IC.DECODE. -/
def matchesCodecRow (w : Word) : Bool := w &&& 0xFFFFFFEB#32 == 0xFFFFFFE9#32

/-- The return range by its bits (R95): the pattern of the row IC.RETURN. -/
def matchesReturnRow (w : Word) : Bool := w &&& 0xFFFFFF00#32 == 0xFFFFFF00#32

/-- The identifier used where a table word names no device: "Timer0". -/
def tableTimer : Ident := [0x54, 0x69, 0x6D, 0x65, 0x72, 0x30]

/-- The packet that carries a word of the table: 32 bits on the ports of IC.DECODE, IC.RETURN and IC.NONMATCH, 8 bits
the slot number of TIMER.CAPTURE. -/
def tablePacket (nbits w : Nat) : List Byte :=
  if nbits = 32 then
    let v := BitVec.ofNat 32 w
    if matchesCodecRow v then encode (.icDecode v)
    else if matchesReturnRow v then encode .icReturn
    else encode (.icNonmatch v)
  else if nbits = 8 then encode (.timerCapture tableTimer (w % 256))
  else []

/-- The operation the decoder reads from a word of the table (log 3). -/
def decodeTableWord (nbits w : Nat) : Option Instr :=
  match decode (tablePacket nbits w) with
  | .ok i => some i
  | .bad _ => none

end Sys2Proof
end

