-- ==== Sys2Proof/Machine/Memory.lean ====
section
/-! DEFINITION. Emulated memory: the raw accesses of 00_scope.md R13 and 20_memory.md R60 to R66 over the canonical list
of bytes, and the check against MAPPED. -/

namespace Sys2Proof.Machine

/-- What an unlisted byte reads as: the contents at launch are the substrate's (R286), here 0 (log 11). -/
def unlistedByte : Byte := 0

/-- One byte of memory. -/
def Memory.read : Memory → Nat → Byte
  | [], _ => unlistedByte
  | (k, v) :: rest, a => if k = a then v else Memory.read rest a

/-- The listed bytes without the one at `a`. -/
def Memory.erase : Memory → Nat → Memory
  | [], _ => []
  | (k, v) :: rest, a => if k = a then Memory.erase rest a else (k, v) :: Memory.erase rest a

/-- List a byte at its place in the rising order of addresses. -/
def Memory.insert : Memory → Nat → Byte → Memory
  | [], a, b => [(a, b)]
  | (k, v) :: rest, a, b => if a < k then (a, b) :: (k, v) :: rest else (k, v) :: Memory.insert rest a b

/-- Write one byte. Writing what an unlisted byte reads as removes the entry. -/
def Memory.write (m : Memory) (a : Nat) (b : Byte) : Memory :=
  if b = unlistedByte then m.erase a else (m.erase a).insert a b

/-- The canonical form from a lowest address on: addresses strictly rising and below 2^32, no entry that need not be listed. -/
def Memory.wfFrom : Nat → Memory → Bool
  | _, [] => true
  | lo, (k, v) :: rest => decide (lo ≤ k) && decide (k < 2 ^ 32) && decide (v ≠ unlistedByte) && Memory.wfFrom (k + 1) rest

/-- The canonical form of memory: equal memories are equal lists. -/
def Memory.wf (m : Memory) : Bool := Memory.wfFrom 0 m

/-- MemReadBytes (R13): `n` bytes from `a` on, lowest address first, addresses modulo 2^32 (R11). -/
def Memory.readBytes (m : Memory) : Word → Nat → List Byte
  | _, 0 => []
  | a, n + 1 => m.read a.toNat :: m.readBytes (a + 1) n

/-- MemWriteBytes (R13): the bytes from `a` on, lowest address first, addresses modulo 2^32 (R11). -/
def Memory.writeBytes : Memory → Word → List Byte → Memory
  | m, _, [] => m
  | m, a, b :: bs => Memory.writeBytes (m.write a.toNat b) (a + 1) bs

/-- MemRead (R13): the little-endian unsigned integer (R61), of at most 4 bytes in every use, as a word. -/
def Memory.memRead (m : Memory) (a : Word) (n : Nat) : Word := BitVec.ofNat 32 (leValue (m.readBytes a n))

/-- MemWrite (R13): the `n` low bytes of `v`, little-endian (R61). -/
def Memory.memWrite (m : Memory) (a : Word) (n : Nat) (v : Word) : Memory := m.writeBytes a (leBytes n v.toNat)

/-- Words at ascending addresses `a`, `a + 4`, ..., the highest address first: the order in which `enter` pushes (R98, R134). -/
def Memory.pushWords : Memory → Word → List Word → Memory
  | m, _, [] => m
  | m, a, w :: ws => (Memory.pushWords m (a + 4) ws).memWrite a 4 w

/-- Whether a byte address is in MAPPED (R60). The return range never is: the block neither reads nor writes memory there
(R79, log 32). -/
def isMapped (mapped : List Region) (a : Word) : Bool :=
  !inReturnRange a && mapped.any fun r => decide (r.base ≤ a.toNat) && decide (a.toNat < r.base + r.size)

/-- The first byte of `a .. a+n-1` that is not in MAPPED, if there is one (R66, R71, R219). -/
def firstUnmapped (mapped : List Region) : Word → Nat → Option Word
  | _, 0 => none
  | a, n + 1 => if isMapped mapped a then firstUnmapped mapped (a + 1) n else some a

end Sys2Proof.Machine
end

