-- ==== Sys2Proof/Machine/Operands.lean ====
section
/-! DEFINITION. What the operations read: registers by id (00_scope.md R12), the vector table (R133), the words of a
frame (30_encoding.md R98, R99), RegisterFile lookups (42_register_file.md R192, R193), bit fields
of a register (R196, R197), device lookups (R171), GPIO pins (R110) and the values of dispatched accesses. -/

namespace Sys2Proof.Machine

/-! ### Floating-point registers -/

/-- S0..S15 then FPSCR, in the order of their addresses in the extended frame (R99). -/
def FpRegs.words (f : FpRegs) : List Word :=
  [f.s0, f.s1, f.s2, f.s3, f.s4, f.s5, f.s6, f.s7, f.s8, f.s9, f.s10, f.s11, f.s12, f.s13, f.s14, f.s15, f.fpscr]

/-- The registers whose k-th word is `w k`. -/
def FpRegs.ofWords (w : Nat → Word) : FpRegs :=
  { s0 := w 0, s1 := w 1, s2 := w 2, s3 := w 3, s4 := w 4, s5 := w 5, s6 := w 6, s7 := w 7, s8 := w 8, s9 := w 9,
    s10 := w 10, s11 := w 11, s12 := w 12, s13 := w 13, s14 := w 14, s15 := w 15, fpscr := w 16 }

/-- S0..S15 by number. -/
def FpRegs.s (f : FpRegs) (k : Fin 16) : Word := f.words.getD k.val 0

/-! ### Registers by id -/

/-- The stack pointer that `spsel` selects (R26, R27): PSP if true. -/
def Cpu.sp (c : Cpu) (spsel : Bool) : Word := if spsel then c.psp else c.msp

/-- x[id] (R12, R20): IPSR is a field of xPSR (R25), SP names MSP or PSP as SP_VIEW says (R28). -/
def Cpu.read (c : Cpu) : RegId → Word
  | .r0 => c.r0
  | .r1 => c.r1
  | .r2 => c.r2
  | .r3 => c.r3
  | .r12 => c.r12
  | .lr => c.lr
  | .pc => c.pc
  | .xpsr => c.xpsr
  | .ipsr => (ipsrOf c.xpsr).setWidth 32
  | .msp => c.msp
  | .psp => c.psp
  | .sp => c.sp (Config.spView c.control (ipsrOf c.xpsr))
  | .control => c.control
  | .s k => c.fp.s k
  | .fpscr => c.fp.fpscr

/-! ### The vector table -/

/-- The words of the vector table in the order of R100. -/
def VectorTable.words (t : VectorTable) : List Word :=
  [t.initialSp, t.reset, t.nmi, t.hardfault, t.mgnmem, t.busfault, t.usefault, t.reserved7, t.reserved8, t.reserved9,
   t.reserved10, t.svc, t.dbgmon, t.reserved13, t.pendsv, t.systick, t.watchdog, t.radio]

/-- VT[n] for n in 0..17; 0 past the end. -/
def VectorTable.entry (t : VectorTable) (n : Nat) : Word := t.words.getD n 0

/-- The vector table whose n-th word is `w n`. -/
def VectorTable.ofWords (w : Nat → Word) : VectorTable :=
  { initialSp := w 0, reset := w 1, nmi := w 2, hardfault := w 3, mgnmem := w 4, busfault := w 5, usefault := w 6,
    reserved7 := w 7, reserved8 := w 8, reserved9 := w 9, reserved10 := w 10, svc := w 11, dbgmon := w 12,
    reserved13 := w 13, pendsv := w 14, systick := w 15, watchdog := w 16, radio := w 17 }

/-- Word n of an image: bytes 4n..4n+3, little-endian (R101, R147). -/
def imageWord (image : List Byte) (n : Nat) : Word := BitVec.ofNat 32 (leValue ((image.drop (4 * n)).take 4))

/-- lookup (R133): the handler address of exception n from the parsed table, or the fatal error. -/
def lookupVector (t : VectorTable) (n : Nat) : Except Fatal Word :=
  if n < 1 ∨ 17 < n then .error (.absentVector n)
  else if t.entry n = 0 then .error (.zeroVector n)
  else .ok (t.entry n)

/-! ### Frames -/

/-- The words of the frame that `enter` writes, at ascending addresses from the frame base (R98, R99). -/
def frameWords (c : Cpu) (fpca : Bool) : List Word :=
  [c.r0, c.r1, c.r2, c.r3, c.r12, c.lr, c.pc, c.xpsr] ++ (if fpca then c.fp.words else [])

/-- Word k of the frame at `b`: the word at b + 4k, modulo 2^32 (R65, R98, R99). -/
def frameWord (m : Memory) (b : Word) (k : Nat) : Word := m.memRead (b + BitVec.ofNat 32 (4 * k)) 4

/-! ### RegisterFile lookups -/

/-- The slot k in 0..5 whose TASKS_CAPTURE[k] has this name (R111, R213). -/
def captureSlot (name : Ident) : Option Nat := (List.range Config.numCc).find? fun k => name == nmTasksCapture k

/-- byName (R192). -/
def byName (regs : List Reg) (name : Ident) : Option Reg := regs.find? fun r => r.name == name

/-- byAddress (R193): the exact address. -/
def byAddress (regs : List Reg) (a : Word) : Option Reg := regs.find? fun r => r.addr == a

/-- bit (R196). -/
def regBit (v : Word) (n : Nat) : Bool := decide (n ≤ 31) && v.getLsbD n

/-- bitRange (R197): bits first..last, inclusive, shifted by `first`; bits above 31 read as 0. -/
def regBitRange (v : Word) (first last : Nat) : Word :=
  if last < first then 0
  else if 32 ≤ first then 0
  else if 32 ≤ last - first + 1 then v >>> first
  else (v >>> first) &&& BitVec.ofNat 32 (2 ^ (last - first + 1) - 1)

/-! ### Devices -/

/-- The variant of a device (R210). -/
def DevBody.kind : DevBody → DevKind
  | .clock => .clock
  | .gpio => .gpio
  | .rtc => .rtc
  | .radio _ _ _ => .radio
  | .timer _ _ => .timer

/-- The device instance with an identifier (R211). -/
def State.device (s : State) (d : Ident) : Option Device := s.devices.find? fun x => x.id == d

/-- Whether the instance `d` exists and is of a variant. -/
def State.isKind (s : State) (d : Ident) (k : DevKind) : Bool :=
  match s.device d with
  | some x => decide (x.body.kind = k)
  | none => false

/-- The HW_DB entry of an address (R104). -/
def hwLookup (db : List HwEntry) (a : Word) : Option HwEntry := db.find? fun e => e.addr == a

/-- resolve (R171): the instance that owns an address; absent too where HW_DB names a device with no instance. -/
def State.resolve (s : State) (a : Word) : Option Device :=
  match hwLookup s.params.hwDb a with
  | none => none
  | some e => s.device e.devId

/-- The value the Radio reads as PACKETPTR; a free value where the register is missing, against R39 (log 21). -/
def packetPtr (regs : List Reg) : Word :=
  match byName regs nmPacketptr with
  | some r => r.value
  | none => Config.absentRegister

/-- RADIO_STATE_CODE (R109). -/
def radioStateCode : RadioState → Nat
  | .disabled => 0
  | .rxRampUp => 1
  | .rxIdle => 2
  | .rx => 3
  | .rxDisabled => 4
  | .txRampUp => 9
  | .txIdle => 10
  | .tx => 11
  | .txDisabled => 12

/-- pins (R110): the indices of the set bits, ascending. -/
def pinsOf (v : Word) : List Nat := (List.range 32).filter fun i => v.getLsbD i

/-- What a capture stores (R228): counter × CAPTURE_SCALE modulo 2^32. -/
def captureValue (counter : Nat) : Word := BitVec.ofNat 32 (counter * Config.captureScale)

/-- The sizes a dispatched access may have (R67). -/
def sizeOk (n : Nat) : Bool := n == 1 || n == 2 || n == 4

/-- The 8n-bit value of an n-byte access, zero-extended to a word (R105, R173). -/
def zextValue (n : Nat) (v : Word) : Word := BitVec.ofNat 32 (v.toNat % 2 ^ (8 * n))

/-- The register that a device and a name designate. -/
def State.register (s : State) (dev name : Ident) : Option Reg :=
  match s.device dev with
  | some x => byName x.regs name
  | none => none

/-- Which repeated entry a DuplicateRegister names, where several are repeated: the first entry of the list that a later
one repeats. DESIGN CHOICE: the spec says only `that name`, `that address` (R191, R211, R257). Log 31. -/
def firstRepeat {α : Type} [DecidableEq α] : List α → Option α
  | [] => none
  | x :: xs => if x ∈ xs then some x else firstRepeat xs

end Sys2Proof.Machine
end

