-- ==== Sys2Proof/Machine/Ops.lean ====
section
/-! DEFINITION. The shared operations: register and memory writes, fatal errors, taking an exception and returning from
one, RegisterFile updates, the device side effects, callbacks, session start and teardown. Each operation of the table
is a definition of its own over these (the other files of Machine/). -/

namespace Sys2Proof.Machine

/-! ### Register writes -/

/-- Write the stack pointer that `spsel` selects (R26, R27), and only that one. -/
def Cpu.setSp (c : Cpu) (spsel : Bool) (v : Word) : Cpu := if spsel then { c with psp := v } else { c with msp := v }

/-- S_k <- v. -/
def FpRegs.setS (f : FpRegs) (k : Fin 16) (v : Word) : FpRegs :=
  FpRegs.ofWords fun i => if i = k.val then v else f.words.getD i 0

/-- x[id] <- v (R12): writing IPSR changes only xPSR[8:0] (R25), SP names MSP or PSP as SP_VIEW says (R28). -/
def Cpu.write (c : Cpu) (id : RegId) (v : Word) : Cpu :=
  match id with
  | .r0 => { c with r0 := v }
  | .r1 => { c with r1 := v }
  | .r2 => { c with r2 := v }
  | .r3 => { c with r3 := v }
  | .r12 => { c with r12 := v }
  | .lr => { c with lr := v }
  | .pc => { c with pc := v }
  | .xpsr => { c with xpsr := v }
  | .ipsr => { c with xpsr := withIpsr c.xpsr v.toNat }
  | .msp => { c with msp := v }
  | .psp => { c with psp := v }
  | .sp => c.setSp (Config.spView c.control (ipsrOf c.xpsr)) v
  | .control => { c with control := v }
  | .s k => { c with fp := c.fp.setS k v }
  | .fpscr => { c with fp := { c.fp with fpscr := v } }

/-! ### Outcomes (R14) -/

/-- raise Fatal (R251): `fatal` is set once and keeps the first error (D42, R290). Nothing else changes. -/
def raiseFatal (f : Fatal) (s : State) : State :=
  match s.fatal with
  | none => { s with fatal := some f }
  | some _ => s

/-- emit E (R14): append to the observation log. -/
def emit (e : Event) (s : State) : State := { s with log := s.log ++ [e] }

/-- Hand a value back to the caller (log 22). -/
def answer (v : Value) (s : State) : State := { s with ret := v }

/-- Hand back an optional register: present(r) or absent. -/
def answerReg (r : Option Reg) (s : State) : State :=
  match r with
  | some x => answer (.reg x) s
  | none => answer .absent s

/-- Nothing further happens in this operation: a fatal error is present (R251) or a callback does not return (R231). -/
def State.stopped (s : State) : Bool := s.fatal.isSome || decide (s.thread = .hung)

/-! ### Taking an exception (R134) -/

/-- The frame base of an entry taken in this CPU state: the selected stack pointer less the frame size, modulo 2^32. -/
def entryBase (c : Cpu) : Word := c.sp (spselOf c.control) - BitVec.ofNat 32 (frameSize (fpcaOf c.control))

/-- The CPU after an entry of exception `n` at handler `h` (R134, R145): the selected stack pointer, LR, IPSR and PC. -/
def entryCpu (c : Cpu) (n : Nat) (h : Word) : Cpu :=
  { c.setSp (spselOf c.control) (entryBase c) with
    lr := encodeExcReturn (spselOf c.control) (fpcaOf c.control)
    xpsr := withIpsr c.xpsr n
    pc := h }

/-- The active-frame record of an entry (R36, R134). -/
def entryRec (c : Cpu) (n : Nat) : FrameRec :=
  { irq := n, excReturn := encodeExcReturn (spselOf c.control) (fpcaOf c.control), spsel := spselOf c.control,
    fpca := fpcaOf c.control, frameBase := entryBase c }

/-- enter (R134): the lookup, the check of every frame byte (R66), then the frame, LR, IPSR, PC and the record. -/
def enter (n : Nat) (s : State) : State :=
  match lookupVector s.vt n with
  | .error f => raiseFatal f s
  | .ok h =>
    match firstUnmapped s.params.mapped (entryBase s.cpu) (frameSize (fpcaOf s.cpu.control)) with
    | some a => raiseFatal (.frameAccessUnmapped a) s
    | none =>
      { s with
        cpu := entryCpu s.cpu n h
        mem := Memory.pushWords s.mem (entryBase s.cpu) (frameWords s.cpu (fpcaOf s.cpu.control))
        afs := entryRec s.cpu n :: s.afs }

/-- raise (R131): queued at the tail, or entered at once, as ENTRY_TIMING says. -/
def raiseException (n : Nat) (s : State) : State :=
  match s.params.timing with
  | .boundary => { s with pend := s.pend ++ [n] }
  | .immediate => enter n s

/-- boundary (R132): the pending numbers are dequeued and entered in order, as long as no fatal error is present. -/
def drainPending : List Nat → State → State
  | [], s => s
  | n :: rest, s => if s.fatal.isSome then s else drainPending rest (enter n { s with pend := rest })

/-! ### Returning from an exception (R138) -/

/-- The CPU after the frame at the stack pointer that EXC_RETURN value `er` names is popped (R138, R146). -/
def returnCpu (c : Cpu) (m : Memory) (er : Word) : Cpu :=
  let spsel := decodeSpsel er
  let fpca := decodeFpca er
  let b := c.sp spsel
  { c.setSp spsel (b + BitVec.ofNat 32 (frameSize fpca)) with
    r0 := frameWord m b 0
    r1 := frameWord m b 1
    r2 := frameWord m b 2
    r3 := frameWord m b 3
    r12 := frameWord m b 4
    lr := frameWord m b 5
    pc := frameWord m b 6
    xpsr := frameWord m b 7
    control := withMode c.control spsel fpca
    fp := if fpca then FpRegs.ofWords (fun k => frameWord m b (8 + k)) else c.fp }

/-- return (R138): the three checks in order (R257), then the pop. LR alone says how the frame is unwound. -/
def excReturn (s : State) : State :=
  match s.afs with
  | [] => raiseFatal (.returnOutsideHandler s.cpu.lr) s
  | _ :: rest =>
    if s.params.strict && !legalExcReturn s.cpu.lr then raiseFatal (.illegalExcReturn s.cpu.lr) s
    else
      match firstUnmapped s.params.mapped (s.cpu.sp (decodeSpsel s.cpu.lr)) (frameSize (decodeFpca s.cpu.lr)) with
      | some a => raiseFatal (.frameAccessUnmapped a) s
      | none => { s with cpu := returnCpu s.cpu s.mem s.cpu.lr, afs := rest }

/-- nonmatch (R139): under the policy `ignore`, the spec's one value, no state changes. -/
def nonmatch (_a : Word) (s : State) : State :=
  match s.params.nonmatch with
  | .ignore => s

/-- block_entry (R137): a return in the return range, nonmatch elsewhere. -/
def blockEntry (a : Word) (s : State) : State := if inReturnRange a then excReturn s else nonmatch a s

/-! ### The vector table load (R147) -/

/-- parse: VT from the first 72 bytes, or ImageTooShort. -/
def parseImage (image : List Byte) (s : State) : State :=
  if image.length < Config.imageHeaderBytes then raiseFatal (.imageTooShort image.length) s
  else { s with vt := VectorTable.ofWords (imageWord image) }

/-! ### RegisterFiles -/

/-- Change the device instance `d`, and no other. -/
def State.updateDevice (s : State) (d : Ident) (f : Device → Device) : State :=
  { s with devices := s.devices.map fun x => if x.id == d then f x else x }

/-- The registers with `v` stored at the address `a` (R194): a no-op where no register has it. -/
def regsSetByAddr (regs : List Reg) (a : Word) (v : Word) : List Reg :=
  regs.map fun r => if r.addr == a then { r with value := v } else r

/-- The registers with `v` stored under the name (R195): a no-op where no register has it. -/
def regsSetByName (regs : List Reg) (name : Ident) (v : Word) : List Reg :=
  regs.map fun r => if r.name == name then { r with value := v } else r

/-- setByAddress on the RegisterFile of `d` (R194); the value keeps its low 32 bits (D22). -/
def setByAddress (d : Ident) (a : Word) (v : Nat) (s : State) : State :=
  s.updateDevice d fun x => { x with regs := regsSetByAddr x.regs a (BitVec.ofNat 32 v) }

/-- setByName on the RegisterFile of `d` (R195); the value keeps its low 32 bits (D22). -/
def setByName (d name : Ident) (v : Nat) (s : State) : State :=
  s.updateDevice d fun x => { x with regs := regsSetByName x.regs name (BitVec.ofNat 32 v) }

/-- A fresh RegisterFile (R191): every value REG_RESET. -/
def freshRegs (regs : List (Ident × Word)) : List Reg :=
  regs.map fun r => { name := r.1, addr := r.2, value := Config.regReset }

/-- The duplicate that `construct` reports: a name before an address (R191, R257); which of several, log 31. -/
def duplicateIn (regs : List (Ident × Word)) : Option Duplicate :=
  match firstRepeat (regs.map (·.1)) with
  | some nm => some (.name nm)
  | none =>
    match firstRepeat (regs.map (·.2)) with
    | some a => some (.address a)
    | none => none

/-- The device fields at session start (R286). -/
def freshBody : DevKind → DevBody
  | .clock => .clock
  | .gpio => .gpio
  | .rtc => .rtc
  | .radio => .radio .disabled none none
  | .timer => .timer 0 false

/-- R280 step 3 for one device: `construct` (R191) and its device fields, or the duplicate's fatal error. -/
def buildDevice (d : Ident) (kind : DevKind) (regs : List (Ident × Word)) (s : State) : State :=
  match duplicateIn regs with
  | some w => raiseFatal (.duplicateRegister d w) s
  | none => { s with devices := s.devices ++ [{ id := d, body := freshBody kind, regs := freshRegs regs }] }

/-- The variant of an instance of DEVICES whose RegisterFile is not built yet. -/
def State.namedKind (s : State) (d : Ident) : Option DevKind := (s.named.find? fun x => x.1 == d).map (·.2)

/-- construct (R191): an instance of DEVICES gets exactly the listed registers, an empty RegisterFile from an empty list. The
set of registers is fixed at construction (R190): a device that has its RegisterFile keeps it, whatever the list (log 27). -/
def construct (d : Ident) (regs : List (Ident × Word)) (s : State) : State :=
  match s.device d with
  | some _ => s
  | none =>
    match s.namedKind d with
    | none => s
    | some kind => buildDevice d kind regs s

/-- The host sends DEVICES and HW_DB (R210, R270); two instances with one identifier are a DuplicateRegister (R211). -/
def nameDevices (devs : List (Ident × DevKind)) (db : List HwEntry) (s : State) : State :=
  match firstRepeat (devs.map (·.1)) with
  | some id => raiseFatal (.duplicateRegister id .identify) s
  | none => { s with devices := [], named := devs, params := { s.params with hwDb := db } }

/-! ### Radio, Timer and callbacks -/

/-- injectPacket (R221): raw bytes at PACKETPTR's target; a null pointer is a warning and no write. -/
def injectPacket (d : Ident) (bytes : List Byte) (s : State) : State :=
  match s.device d with
  | none => s
  | some x =>
    if x.body.kind = .radio then
      let p := packetPtr x.regs
      if p = 0 then emit (.nullPacketPtr .injectPacket) s
      else
        match firstUnmapped s.params.mapped p bytes.length with
        | some a => raiseFatal (.substrateAccessFault a) s
        | none => { s with mem := s.mem.writeBytes p bytes }
    else s

/-- The Radio's logical state alone (R222). -/
def DevBody.setRstate (st : RadioState) : DevBody → DevBody
  | .radio _ tx rx => .radio st tx rx
  | b => b

/-- setState (R222): rstate and the STATE register. -/
def setRadioState (d : Ident) (st : RadioState) (s : State) : State :=
  if s.isKind d .radio then
    setByName d nmState (radioStateCode st) (s.updateDevice d fun x => { x with body := x.body.setRstate st })
  else s

/-- The callback of one event kind replaced (R223). -/
def DevBody.setCb (kind : CbKind) (f : Nat) : DevBody → DevBody
  | .radio st tx rx =>
    match kind with
    | .tx => .radio st (some f) rx
    | .rx => .radio st tx (some f)
  | b => b

/-- registerTx, registerRx (R223). -/
def registerCb (d : Ident) (kind : CbKind) (f : Nat) (s : State) : State :=
  if s.isKind d .radio then s.updateDevice d fun x => { x with body := x.body.setCb kind f } else s

/-- The Timer's `running` alone (R225, R226). -/
def DevBody.setRunning (r : Bool) : DevBody → DevBody
  | .timer c _ => .timer c r
  | b => b

/-- The Timer's counter one higher (R227). -/
def DevBody.tick : DevBody → DevBody
  | .timer c r => .timer (c + 1) r
  | b => b

/-- Whether this is a Timer whose tick agent exists (R44). -/
def DevBody.isRunning : DevBody → Bool
  | .timer _ r => r
  | _ => false

/-- Whether the device `d` is a running Timer. -/
def State.timerRunning (s : State) (d : Ident) : Bool :=
  match s.device d with
  | some x => x.body.isRunning
  | none => false

/-- start (R225): on a running timer it does nothing; the counter is not reset. -/
def timerStart (d : Ident) (s : State) : State :=
  if s.isKind d .timer then s.updateDevice d fun x => { x with body := x.body.setRunning true } else s

/-- stop (R226): a running timer's tick agent exits, or TickJoinFailure, as the environment draws. -/
def timerStop (d : Ident) (joins : Bool) (s : State) : State :=
  if s.timerRunning d then
    if joins then s.updateDevice d fun x => { x with body := x.body.setRunning false }
    else raiseFatal (.tickJoinFailure d) s
  else s

/-- The tick agent's step (R227), enabled exactly while the timer runs. -/
def timerTick (d : Ident) (s : State) : State :=
  if s.timerRunning d then s.updateDevice d fun x => { x with body := x.body.tick } else s

/-- timer_capture (R228): CC[k] from the counter, for a slot k in 0..5. -/
def timerCapture (d : Ident) (k : Nat) (s : State) : State :=
  if k < Config.numCc then
    match s.device d with
    | none => s
    | some x =>
      match x.body with
      | .timer c _ => setByName d (nmCc k) (captureValue c).toNat s
      | _ => s
  else s

/-- A raw write by the session (R62, R231); outside MAPPED a SubstrateAccessFault (log 24). -/
def rawWrite (a : Word) (bytes : List Byte) (s : State) : State :=
  match firstUnmapped s.params.mapped a bytes.length with
  | some x => raiseFatal (.substrateAccessFault x) s
  | none => { s with mem := s.mem.writeBytes a bytes }

/-- A raw read (R62, R64): the bytes of memory, no device asked; outside MAPPED a SubstrateAccessFault (log 24). -/
def rawRead (a : Word) (n : Nat) (s : State) : State :=
  match firstUnmapped s.params.mapped a n with
  | some x => raiseFatal (.substrateAccessFault x) s
  | none => answer (.bytes (s.mem.readBytes a n)) s

/-- The session's call `read state` (R270): a value handed back, absent for bytes outside MAPPED; the block does nothing. -/
def readState (sel : ReadSel) (s : State) : State :=
  match sel with
  | .reg id => answer (.word (s.cpu.read id)) s
  | .mem a n =>
    match firstUnmapped s.params.mapped a n with
    | some _ => answer .absent s
    | none => answer (.bytes (s.mem.readBytes a n)) s
  | .devReg d name => answerReg (s.register d name) s
  | .log => answer (.log s.log) s

/-- One call of a callback follows its own rule (R231), and so does a tick that comes between two calls (R227). -/
def runCall : SessionCall → State → State
  | .raise n, s => raiseException n s
  | .registerCb d kind f, s => registerCb d kind f s
  | .injectPacket d bytes, s => injectPacket d bytes s
  | .setState d st, s => setRadioState d st s
  | .start d, s => timerStart d s
  | .stop d joins, s => timerStop d joins s
  | .setByAddress d a v, s => setByAddress d a v s
  | .setByName d name v, s => setByName d name v s
  | .rawWrite a bytes, s => rawWrite a bytes s
  | .hang, s => { s with thread := .hung }
  | .rawRead a n, s => rawRead a n s
  | .read sel, s => readState sel s
  | .tick d, s => timerTick d s

/-- The calls of one invocation, and the ticks between them, in order, up to the first that stops the session or does not
return (R231, R251). DESIGN CHOICE: a tick may come between two calls of one callback, and the list says where. R72 makes
the access with its callbacks atomic with respect to the execution thread only, so a Timer started by one call may tick
before the next (R227). Log 17. -/
def runCalls : List SessionCall → State → State
  | [], s => s
  | c :: cs, s => if s.stopped then s else runCalls cs (runCall c s)

/-- Invoke callback `f` (R219, R220): its next invocation's calls are taken and run (log 18). -/
def invokeCallback (f : Nat) (s : State) : State :=
  match s.cbCode.find? fun c => c.id == f with
  | none => s
  | some c =>
    match c.runs with
    | [] => s
    | run :: _ =>
      runCalls run
        { s with cbCode := s.cbCode.map fun e => if e.id == f then { e with runs := e.runs.tail } else e }

/-! ### Device side effects (R213 to R228) -/

/-- clock_hfclkstart (R214). -/
def clockHfclkstart (d : Ident) (s : State) : State :=
  if s.isKind d .clock then setByName d nmEventsHfclkstarted 1 s else s

/-- gpio_outset, gpio_outclr (R215, R216): the report of the pins. -/
def gpioPins (kind : PinKind) (d : Ident) (v : Word) (s : State) : State :=
  if s.isKind d .gpio then emit (.gpioPins kind (pinsOf v)) s else s

/-- radio_txen (R219). -/
def radioTxen (d : Ident) (s : State) : State :=
  match s.device d with
  | none => s
  | some x =>
    match x.body with
    | .radio _ txCb _ =>
      let p := packetPtr x.regs
      if p = 0 then emit (.nullPacketPtr .tasksTxen) s
      else if !isMapped s.params.mapped p then raiseFatal (.substrateAccessFault p) s
      else
        let len := (s.mem.read p.toNat).toNat
        match firstUnmapped s.params.mapped (p + 1) len with
        | some a => raiseFatal (.substrateAccessFault a) s
        | none =>
          match txCb with
          | none => s
          | some f => invokeCallback f (emit (.radioTx (s.mem.readBytes p (len + 1))) s)
    | _ => s

/-- radio_rxen (R220). -/
def radioRxen (d : Ident) (s : State) : State :=
  match s.device d with
  | none => s
  | some x =>
    match x.body with
    | .radio _ _ (some f) => invokeCallback f (emit .radioRx s)
    | _ => s

/-- side_effect (R213): selected by the variant and the written register's name. -/
def sideEffect (kind : DevKind) (d name : Ident) (v : Word) (s : State) : State :=
  match kind with
  | .clock => if name = nmTasksHfclkstart then clockHfclkstart d s else s
  | .gpio =>
    if name = nmOutset then gpioPins .set d v s
    else if name = nmOutclr then gpioPins .clear d v s
    else s
  | .rtc => s
  | .radio =>
    if name = nmTasksTxen then radioTxen d s
    else if name = nmTasksRxen then radioRxen d s
    else s
  | .timer =>
    match captureSlot name with
    | some k => timerCapture d k s
    | none => s

/-- d.write (R213): the store, then the side effect of the register at `a`. -/
def deviceWrite (d : Ident) (a v : Word) (s : State) : State :=
  match s.device d with
  | none => s
  | some x =>
    match byAddress x.regs a with
    | none => setByAddress d a v.toNat s
    | some r => sideEffect x.body.kind d r.name v (setByAddress d a v.toNat s)

/-- d.read (R212). -/
def deviceRead (x : Device) (a : Word) : Option Word :=
  match byAddress x.regs a with
  | some r => some r.value
  | none => none

/-! ### Dispatched accesses -/

/-- The backing overwrite of a dispatched read (R172): the mapped ones of the four bytes at `a`, little-endian. -/
def overwriteBacking (mapped : List Region) (a v : Word) (m : Memory) : Memory :=
  [0, 1, 2, 3].foldl (fun acc i =>
    if isMapped mapped (a + BitVec.ofNat 32 i) then acc.memWrite (a + BitVec.ofNat 32 i) 1 (v >>> (8 * i)) else acc) m

/-- Memory once the Dispatcher has answered a read at `a` (R172): overwritten where a register answers, else as it was
(R174, R176). -/
def backingAfterRead (a : Word) (s : State) : Memory :=
  match s.resolve a with
  | none => s.mem
  | some x =>
    match deviceRead x a with
    | none => s.mem
    | some v => overwriteBacking s.params.mapped a v s.mem

/-- BusRead (R172): the checks, the overwrite, and the value the substrate's read completes with. -/
def busRead (a : Word) (n : Nat) (s : State) : State :=
  if !sizeOk n then raiseFatal (.unsupportedAccessSize a n) s
  else
    match firstUnmapped s.params.mapped a n with
    | some _ => raiseFatal (.substrateAccessFault a) s
    | none => answer (.word ((backingAfterRead a s).memRead a n)) { s with mem := backingAfterRead a s }

/-- The device's part of a dispatched write (R173): nothing where no instance owns the address (R175). -/
def ownerWrite (a : Word) (v : Word) (s : State) : State :=
  match s.resolve a with
  | none => s
  | some x => deviceWrite x.id a v s

/-- The raw bytes of a dispatched write land, unless the session has stopped (R251). -/
def landBytes (a : Word) (n : Nat) (v : Word) (s : State) : State :=
  if s.stopped then s else { s with mem := s.mem.memWrite a n v }

/-- BusWrite (R173): the device's store and side effects, then the raw bytes, which do not land once the session has
stopped (R251). -/
def busWrite (a : Word) (n : Nat) (v : Word) (s : State) : State :=
  if !sizeOk n then raiseFatal (.unsupportedAccessSize a n) s
  else
    match firstUnmapped s.params.mapped a n with
    | some _ => raiseFatal (.substrateAccessFault a) s
    | none => landBytes a n v (ownerWrite a (zextValue n v) s)

/-! ### Session start and teardown -/

/-- R280 step 3: the devices constructed one after the other; the first duplicate register ends it. That this is the order
of the list is the model's choice: DEVICES is a set (log 31). -/
def constructAll : List DevSpec → State → State
  | [], s => s
  | d :: rest, s =>
    match duplicateIn d.regs with
    | some _ => buildDevice d.id d.kind d.regs s
    | none => constructAll rest (buildDevice d.id d.kind d.regs s)

/-- R280 step 5 on the substrate's launch draw (R283): MSP and PC from the vector table, CONTROL and IPSR 0. -/
def launchCpu (l : Launch) (t : VectorTable) : Cpu :=
  { r0 := l.r0, r1 := l.r1, r2 := l.r2, r3 := l.r3, r12 := l.r12, lr := l.lr, pc := t.entry 1,
    xpsr := withIpsr l.xpsr 0, msp := t.entry 0, psp := l.psp, control := 0, fp := FpRegs.ofWords fun k => l.fp.getD k 0 }

/-- Emulated memory as the substrate has it at launch (R283): the drawn blocks over unlisted bytes. -/
def launchMem (l : Launch) : Memory := l.mem.foldl (fun m b => m.writeBytes b.1 b.2) []

/-- session_start (R280, R286): steps 1 to 5, ended by a fatal error at any of them. Every piece of state of R49 is set
again (R285), what the substrate holds at launch as the platform draws it (R283, log 26), and the parameters HW_DB, MAPPED
and SUBSTRATE_IRQ_MAP are the platform's for the session (R9, R286). -/
def sessionStart (image : List Byte) (devs : List DevSpec) (plat : Platform) (s : State) : State :=
  if image.length < Config.imageHeaderBytes then raiseFatal (.imageTooShort image.length) s
  else
    let s1 := parseImage image s
    match firstRepeat (devs.map (·.id)) with
    | some id => raiseFatal (.duplicateRegister id .identify) s1
    | none =>
      let s2 := constructAll devs { s1 with devices := [], named := [], params := { s1.params with hwDb := plat.hwDb } }
      if s2.fatal.isSome then s2
      else
        { s2 with
          pend := [], afs := [], fatal := none, log := [], cpu := launchCpu plat.launch s2.vt
          mem := launchMem plat.launch, params := { s2.params with mapped := plat.launch.mapped, irqMap := plat.irqMap }
          thread := .ready, cbCode := [] }

/-- Teardown (R288): `stop()` on every Timer, in order. A stop that fails raises TickJoinFailure, the first error is kept
(R290), and the others are still stopped (log 15). -/
def stopTimers (orphans : List Ident) : List Ident → State → State
  | [], s => s
  | d :: rest, s => stopTimers orphans rest (timerStop d (decide (d ∉ orphans)) s)

/-- The end of a run (R289, R290): the substrate is halted, then teardown (R288). -/
def endRun (orphans : List Ident) (s : State) : State :=
  stopTimers orphans (s.devices.map (·.id)) { s with thread := .halted }

end Sys2Proof.Machine
end

