-- ==== Sys2Proof/Machine/Device.lean ====
section
/-! DEFINITION. The meanings of the device operations (43_devices.md). An operation on an instance that does not exist, or
is of another variant, is an arrival that matches no row: it has no effect (R107, log 4). -/

namespace Sys2Proof.Machine

/-- DEV.IDENTIFY (R211). -/
def execDevIdentify (d : Ident) (s : State) : Host.Outcome State Fault Refusal :=
  match s.device d with
  | some x => .next (answer (.device x.id) s)
  | none => .next s

/-- DEV.READ (R212). -/
def execDevRead (d : Ident) (a : Word) (s : State) : Host.Outcome State Fault Refusal :=
  match s.device d with
  | some x =>
    match deviceRead x a with
    | some v => .next (answer (.word v) s)
    | none => .next (answer .absent s)
  | none => .next s

/-- DEV.WRITE (R213). -/
def execDevWrite (d : Ident) (a v : Word) (s : State) : Host.Outcome State Fault Refusal := .next (deviceWrite d a v s)

/-- CLOCK.HFCLKSTART (R214): the value written is ignored. -/
def execClockHfclkstart (d : Ident) (_v : Word) (s : State) : Host.Outcome State Fault Refusal := .next (clockHfclkstart d s)

/-- GPIO.OUTSET (R215). -/
def execGpioOutset (d : Ident) (v : Word) (s : State) : Host.Outcome State Fault Refusal := .next (gpioPins .set d v s)

/-- GPIO.OUTCLR (R216). -/
def execGpioOutclr (d : Ident) (v : Word) (s : State) : Host.Outcome State Fault Refusal := .next (gpioPins .clear d v s)

/-- RADIO.TXEN (R219): the value written is ignored. -/
def execRadioTxen (d : Ident) (_v : Word) (s : State) : Host.Outcome State Fault Refusal := .next (radioTxen d s)

/-- RADIO.RXEN (R220): the value written is ignored. -/
def execRadioRxen (d : Ident) (_v : Word) (s : State) : Host.Outcome State Fault Refusal := .next (radioRxen d s)

/-- RADIO.INJECT (R221). -/
def execRadioInject (d : Ident) (bytes : List Byte) (s : State) : Host.Outcome State Fault Refusal :=
  .next (injectPacket d bytes s)

/-- RADIO.SETSTATE (R222). -/
def execRadioSetState (d : Ident) (st : RadioState) (s : State) : Host.Outcome State Fault Refusal :=
  .next (setRadioState d st s)

/-- RADIO.REGCB (R223). -/
def execRadioRegCb (d : Ident) (kind : CbKind) (f : Nat) (s : State) : Host.Outcome State Fault Refusal :=
  .next (registerCb d kind f s)

/-- TIMER.START (R225). -/
def execTimerStart (d : Ident) (s : State) : Host.Outcome State Fault Refusal := .next (timerStart d s)

/-- TIMER.STOP (R226). -/
def execTimerStop (d : Ident) (joins : Bool) (s : State) : Host.Outcome State Fault Refusal := .next (timerStop d joins s)

/-- TIMER.TICK (R227). -/
def execTimerTick (d : Ident) (s : State) : Host.Outcome State Fault Refusal := .next (timerTick d s)

/-- TIMER.CAPTURE (R228). -/
def execTimerCapture (d : Ident) (k : Nat) (s : State) : Host.Outcome State Fault Refusal := .next (timerCapture d k s)

end Sys2Proof.Machine
end

