-- ==== Sys2Proof/Machine/Interrupt.lean ====
section
/-! DEFINITION. The meanings of the Interrupt Controller's operations (40_interrupt_controller.md). -/

namespace Sys2Proof.Machine

/-- IC.RAISE (R131). -/
def execIcRaise (n : Nat) (s : State) : Host.Outcome State Fault Refusal := .next (raiseException n s)

/-- IC.BOUNDARY (R132). -/
def execIcBoundary (s : State) : Host.Outcome State Fault Refusal := .next (drainPending s.pend s)

/-- IC.ENTER (R134). -/
def execIcEnter (n : Nat) (s : State) : Host.Outcome State Fault Refusal := .next (enter n s)

/-- VT.LOOKUP (R133): the handler address is handed back, or the fatal error raised. -/
def execVtLookup (n : Nat) (s : State) : Host.Outcome State Fault Refusal :=
  match lookupVector s.vt n with
  | .ok h => .next (answer (.word h) s)
  | .error f => .next (raiseFatal f s)

/-- VT.PARSE (R147). -/
def execVtParse (image : List Byte) (s : State) : Host.Outcome State Fault Refusal := .next (parseImage image s)

/-- IC.BLOCKENTRY (R137). -/
def execIcBlockEntry (a : Word) (s : State) : Host.Outcome State Fault Refusal := .next (blockEntry a s)

/-- IC.RETURN (R138). -/
def execIcReturn (s : State) : Host.Outcome State Fault Refusal := .next (excReturn s)

/-- IC.NONMATCH (R139). -/
def execIcNonmatch (a : Word) (s : State) : Host.Outcome State Fault Refusal := .next (nonmatch a s)

/-- IC.ENCODE (R135): the EXC_RETURN word is handed back. -/
def execIcEncode (spsel fpca : Bool) (s : State) : Host.Outcome State Fault Refusal :=
  .next (answer (.word (encodeExcReturn spsel fpca)) s)

/-- IC.DECODE (R136): the pair (spsel, fpca) is handed back; legality is not asked here. -/
def execIcDecode (v : Word) (s : State) : Host.Outcome State Fault Refusal :=
  .next (answer (.mode (decodeSpsel v) (decodeFpca v)) s)

end Sys2Proof.Machine
end

