-- ==== Sys2Proof/Machine/Mmio.lean ====
section
/-! DEFINITION. The meanings of the MMIO Dispatcher's operations (41_mmio_dispatch.md). -/

namespace Sys2Proof.Machine

/-- MMIO.LOOKUP (R171): the owning instance, or absent, is handed back. -/
def execMmioLookup (a : Word) (s : State) : Host.Outcome State Fault Refusal :=
  match s.resolve a with
  | some x => .next (answer (.device x.id) s)
  | none => .next (answer .absent s)

/-- MMIO.READ (R172). -/
def execMmioRead (a : Word) (n : Nat) (s : State) : Host.Outcome State Fault Refusal := .next (busRead a n s)

/-- MMIO.WRITE (R173). -/
def execMmioWrite (a : Word) (n : Nat) (v : Word) (s : State) : Host.Outcome State Fault Refusal :=
  .next (busWrite a n v s)

end Sys2Proof.Machine
end

