-- ==== Sys2Proof/Machine/RegisterFile.lean ====
section
/-! DEFINITION. The meanings of the RegisterFile operations (42_register_file.md). An operation on a device that is no
instance of DEVICES is an arrival that matches no row: it has no effect (R107, log 4). -/

namespace Sys2Proof.Machine

/-- RF.CONSTRUCT (R191). -/
def execRfConstruct (dev : Ident) (regs : List (Ident × Word)) (s : State) : Host.Outcome State Fault Refusal :=
  .next (construct dev regs s)

/-- RF.BYNAME (R192). -/
def execRfByName (dev name : Ident) (s : State) : Host.Outcome State Fault Refusal :=
  match s.device dev with
  | some x => .next (answerReg (byName x.regs name) s)
  | none => .next s

/-- RF.BYADDR (R193). -/
def execRfByAddr (dev : Ident) (a : Word) (s : State) : Host.Outcome State Fault Refusal :=
  match s.device dev with
  | some x => .next (answerReg (byAddress x.regs a) s)
  | none => .next s

/-- RF.SETBYADDR (R194). -/
def execRfSetByAddr (dev : Ident) (a : Word) (v : Nat) (s : State) : Host.Outcome State Fault Refusal :=
  .next (setByAddress dev a v s)

/-- RF.SETBYNAME (R195). -/
def execRfSetByName (dev name : Ident) (v : Nat) (s : State) : Host.Outcome State Fault Refusal :=
  .next (setByName dev name v s)

/-- RF.BIT (R196). -/
def execRfBit (dev name : Ident) (n : Nat) (s : State) : Host.Outcome State Fault Refusal :=
  match s.register dev name with
  | some r => .next (answer (.bool (regBit r.value n)) s)
  | none => .next s

/-- RF.BITRANGE (R197). -/
def execRfBitRange (dev name : Ident) (first last : Nat) (s : State) : Host.Outcome State Fault Refusal :=
  match s.register dev name with
  | some r => .next (answer (.word (regBitRange r.value first last)) s)
  | none => .next s

end Sys2Proof.Machine
end

