-- ==== Sys2Proof/Machine/Session.lean ====
section
/-! DEFINITION. The meanings of the session's operations (70_reset_and_hazards.md). -/

namespace Sys2Proof.Machine

/-- SESSION.START (R280). -/
def execSessionStart (image : List Byte) (devs : List DevSpec) (plat : Platform) (s : State) :
    Host.Outcome State Fault Refusal := .next (sessionStart image devs plat s)

/-- SESSION.DEADLINE (R289): the substrate is halted and teardown follows. -/
def execSessionDeadline (orphans : List Ident) (s : State) : Host.Outcome State Fault Refusal := .next (endRun orphans s)

end Sys2Proof.Machine
end

