-- ==== Sys2Proof/Machine/Dispatch.lean ====
section
/-! DEFINITION. One arm for each operation of spec/opcode_table.json, in its order. -/

namespace Sys2Proof.Machine

def exec (i : Instr) (s : State) : Host.Outcome State Fault Refusal :=
  match i with
  | .icRaise n => Sys2Proof.Machine.execIcRaise n s
  | .icBoundary => Sys2Proof.Machine.execIcBoundary s
  | .icEnter n => Sys2Proof.Machine.execIcEnter n s
  | .vtLookup n => Sys2Proof.Machine.execVtLookup n s
  | .vtParse image => Sys2Proof.Machine.execVtParse image s
  | .icBlockEntry a => Sys2Proof.Machine.execIcBlockEntry a s
  | .icReturn => Sys2Proof.Machine.execIcReturn s
  | .icNonmatch a => Sys2Proof.Machine.execIcNonmatch a s
  | .icEncode spsel fpca => Sys2Proof.Machine.execIcEncode spsel fpca s
  | .icDecode v => Sys2Proof.Machine.execIcDecode v s
  | .mmioLookup a => Sys2Proof.Machine.execMmioLookup a s
  | .mmioRead a n => Sys2Proof.Machine.execMmioRead a n s
  | .mmioWrite a n v => Sys2Proof.Machine.execMmioWrite a n v s
  | .rfConstruct dev regs => Sys2Proof.Machine.execRfConstruct dev regs s
  | .rfByName dev name => Sys2Proof.Machine.execRfByName dev name s
  | .rfByAddr dev a => Sys2Proof.Machine.execRfByAddr dev a s
  | .rfSetByAddr dev a v => Sys2Proof.Machine.execRfSetByAddr dev a v s
  | .rfSetByName dev name v => Sys2Proof.Machine.execRfSetByName dev name v s
  | .rfBit dev name n => Sys2Proof.Machine.execRfBit dev name n s
  | .rfBitRange dev name first last => Sys2Proof.Machine.execRfBitRange dev name first last s
  | .devIdentify d => Sys2Proof.Machine.execDevIdentify d s
  | .devRead d a => Sys2Proof.Machine.execDevRead d a s
  | .devWrite d a v => Sys2Proof.Machine.execDevWrite d a v s
  | .clockHfclkstart d v => Sys2Proof.Machine.execClockHfclkstart d v s
  | .gpioOutset d v => Sys2Proof.Machine.execGpioOutset d v s
  | .gpioOutclr d v => Sys2Proof.Machine.execGpioOutclr d v s
  | .radioTxen d v => Sys2Proof.Machine.execRadioTxen d v s
  | .radioRxen d v => Sys2Proof.Machine.execRadioRxen d v s
  | .radioInject d bytes => Sys2Proof.Machine.execRadioInject d bytes s
  | .radioSetState d st => Sys2Proof.Machine.execRadioSetState d st s
  | .radioRegCb d kind f => Sys2Proof.Machine.execRadioRegCb d kind f s
  | .timerStart d => Sys2Proof.Machine.execTimerStart d s
  | .timerStop d joins => Sys2Proof.Machine.execTimerStop d joins s
  | .timerTick d => Sys2Proof.Machine.execTimerTick d s
  | .timerCapture d k => Sys2Proof.Machine.execTimerCapture d k s
  | .sessionStart image devs plat => Sys2Proof.Machine.execSessionStart image devs plat s
  | .sessionDeadline orphans => Sys2Proof.Machine.execSessionDeadline orphans s

end Sys2Proof.Machine
end

