-- ==== Sys2Proof/Machine/Arrival.lean ====
section
/-! DEFINITION. Taking the next arrival: which arrivals the state of the session admits, what each of them does, and the
consumption of its packet (log 1, log 25). `step` is this and nothing else. -/

namespace Sys2Proof.Machine

/-- The state with the first packet taken: the other arrivals are `rest`, and no value has been handed back yet. -/
def State.consume (s : State) (rest : List (List Byte)) : State := { s with arrivals := rest, ret := .none }

/-- One of teardown's `stop()` calls, which still come once a run has ended (R288, R290). -/
def isTimerStop : Arrival → Bool
  | .op (.timerStop _ _) => true
  | _ => false

/-- A step of a tick agent (R227). -/
def isTick : Arrival → Bool
  | .op (.timerTick _) => true
  | _ => false

/-- The session's call `read state`, at which the block does nothing (R270). -/
def isReadState : Arrival → Bool
  | .read _ => true
  | _ => false

/-- The session's run call (R280 step 7). -/
def isRun : Arrival → Bool
  | .run _ => true
  | _ => false

/-- Teardown after a fatal error (R290 d). -/
def isTeardown : Arrival → Bool
  | .teardown _ => true
  | _ => false

/-- What builds a session up: the host never changes HW_DB, DEVICES or VT after the start (R271), and no device is
destroyed before teardown (R288), so it comes only while no session is under way. -/
def buildsSession : Arrival → Bool
  | .op (.vtParse _) => true
  | .op (.rfConstruct _ _) => true
  | .op (.sessionStart _ _ _) => true
  | .nameDevices _ _ => true
  | _ => false

/-- What only a running substrate sends: its hooks, its register writes and its own halt (R262). -/
def fromSubstrate : Arrival → Bool
  | .op .icBoundary => true
  | .op (.icBlockEntry _) => true
  | .op (.mmioRead _ _) => true
  | .op (.mmioWrite _ _ _) => true
  | .hwIrq _ => true
  | .regWrite _ _ => true
  | .halt _ _ => true
  | _ => false

/-- Why an arrival is not admitted, if it is not. Once `fatal` is present only teardown and its `stop()` calls come (R251,
R290), beside the host's reading of state (R270). Before a session those and what builds one up (R280, R285); from then on
every session call but these (R271), and what the substrate sends once it runs (R262); while a callback hangs only the
tick agents step (R231). Log 12, 14, 19. -/
def notAdmitted (a : Arrival) (s : State) : Option Fault :=
  match s.fatal with
  | some f => if isTimerStop a || isTeardown a || isReadState a then none else some (.sessionAborted f)
  | none =>
    match s.thread with
    | .halted =>
      if buildsSession a || isTimerStop a || isTeardown a || isReadState a then none else some .threadHalted
    | .ready =>
      if buildsSession a || isTeardown a then some .sessionUnderWay
      else if fromSubstrate a then some .notRunning
      else none
    | .running => if buildsSession a || isTeardown a || isRun a then some .sessionUnderWay else none
    | .hung => if isTick a then none else some .callbackHung

/-- The hardware-interrupt hook (R263): absent does nothing, present(n) raises n. -/
def hwIrqHook (k : Nat) (s : State) : State :=
  match s.params.irqMap.find? fun e => e.1 == k with
  | some e => raiseException e.2 s
  | none => s

/-- The session says what the next invocations of callback `f` do (R231, log 18). -/
def bindCallback (f : Nat) (runs : List (List SessionCall)) (s : State) : State :=
  { s with cbCode := { id := f, runs := runs } :: s.cbCode.filter fun c => !(c.id == f) }

/-- What an arrival does. -/
def runArrival (a : Arrival) (s : State) : Host.Outcome State Fault Refusal :=
  match a with
  | .op i => exec i s
  | .hwIrq k => .next (hwIrqHook k s)
  | .regWrite id v => .next { s with cpu := s.cpu.write id v }
  | .rawRead a n => .next (rawRead a n s)
  | .rawWrite a bytes => .next (rawWrite a bytes s)
  | .halt _ orphans => .next (endRun orphans s)
  | .bindCallback f runs => .next (bindCallback f runs s)
  | .run _ => .next { s with thread := .running }
  | .nameDevices devs db => .next (nameDevices devs db s)
  | .teardown orphans => .next (endRun orphans s)
  | .read sel => .next (readState sel s)

/-- No arrival: nothing happens, and nothing can once `fatal` is present (R251). -/
def idle (s : State) : Host.Outcome State Fault Refusal :=
  match s.fatal with
  | some f => .fault (.sessionAborted f)
  | none => .next s

/-- The first packet `p`, with `rest` behind it. A packet that decodes to no arrival matches no row and has no effect
(R107, log 4). -/
def takeArrival (p : List Byte) (rest : List (List Byte)) (s : State) : Host.Outcome State Fault Refusal :=
  match decodeArrival p with
  | .bad _ =>
    match s.fatal with
    | some f => .fault (.sessionAborted f)
    | none => .next (s.consume rest)
  | .ok a =>
    match notAdmitted a s with
    | some f => .fault f
    | none => runArrival a (s.consume rest)

end Sys2Proof.Machine
end

