-- ==== Sys2Proof/Machine/Step.lean ====
section
/-! DEFINITION. One step of the machine, and the placing of an instruction where the next step takes it. -/

namespace Sys2Proof.Machine

/-- One step: the first arrival is taken; with none, nothing happens. -/
def step (s : State) : Host.Outcome State Fault Refusal :=
  match s.arrivals with
  | [] => idle s
  | p :: rest => takeArrival p rest s

/-- `s` with the operation that the table's word `w` stands for placed as its first arrival, and the substrate running, as
it is when each of these operations comes (log 1, log 3). -/
def State.withFetchWord (s : State) (nbits w : Nat) : State :=
  { s with arrivals := tablePacket nbits w :: s.arrivals, thread := .running }

end Sys2Proof.Machine
end

