-- ==== Sys2Proof/Safety.lean ====
section
/-! DEFINITION. The terms claims use: the invariant of the machine, and what a run without error is. -/

namespace Sys2Proof.Machine

/-- Names and addresses are unique within one RegisterFile (R103, R190, R191). -/
def regsUnique (regs : List Reg) : Bool := decide ((regs.map (·.name)).Nodup) && decide ((regs.map (·.addr)).Nodup)

/-- A record of the active-frame stack that `enter` can have pushed (R36, R92): a number in 1..17 and the EXC_RETURN word
of its own captured bits. -/
def recordOk (r : FrameRec) : Bool :=
  decide (1 ≤ r.irq) && decide (r.irq ≤ 17) && decide (r.excReturn = encodeExcReturn r.spsel r.fpca)

/-- After a run has ended without a fatal error no tick agent is left (R288). -/
def teardownDone (s : State) : Bool :=
  if s.thread = .halted ∧ s.fatal = none then s.devices.all fun d => !d.body.isRunning else true

/-- A RegisterFile that the session can hold: unique names and addresses (R190, R191) and, where no instance of DEVICES is
`named` for RF.CONSTRUCT to build, as in every session, the registers that the variant's rules name (R39), a Timer's twelve
of R111 among them. -/
def deviceOk (named : List (Ident × DevKind)) (d : Device) : Bool :=
  regsUnique d.regs && (decide (named ≠ []) || hasRequired d.body.kind (d.regs.map (·.name)))

/-- In a session every instance of DEVICES has been built (R280 step 3). -/
def sessionBuilt (s : State) : Bool := decide (s.thread = .halted ∨ s.named = [])

/-- The part of the invariant that is about data alone: memory in its canonical form, one instance for an identifier
(R211), a proper RegisterFile in every device, proper active-frame records. -/
def State.dataInv (s : State) : Bool :=
  s.mem.wf && decide ((s.devices.map (·.id)).Nodup) && s.devices.all (deviceOk s.named) && s.afs.all recordOk

/-- The invariant that every step keeps: the data's, every device built in a session, so that each has its required registers
there, and teardown complete once a run has ended. -/
def State.inv (s : State) : Bool := s.dataInv && sessionBuilt s && teardownDone s

/-- No fatal error is present and the substrate runs. -/
def State.live (s : State) : Prop := s.fatal = none ∧ s.thread = .running

/-- An operation that builds a session up (R271, R280 steps 1 to 3). -/
def isBuilding (i : Instr) : Prop :=
  (∃ image, i = .vtParse image) ∨ (∃ d regs, i = .rfConstruct d regs) ∨ (∃ image ds plat, i = .sessionStart image ds plat)

/-- A hook of the running substrate (R262). -/
def isHook (i : Instr) : Prop :=
  i = .icBoundary ∨ (∃ a, i = .icBlockEntry a) ∨ (∃ a n, i = .mmioRead a n) ∨ (∃ a n v, i = .mmioWrite a n v)

/-- The operation can come in this state (R231, R251, R262, R271, R280, R288; log 14): before a session what builds one up,
in a session every other, a hook only once the substrate runs; teardown's `stop()` calls also around a session and after a
fatal error, and the ticks also while a callback hangs. -/
def State.admits (s : State) (i : Instr) : Prop :=
  (s.fatal = none ∧ s.thread = .halted ∧ isBuilding i) ∨
  (s.fatal = none ∧ s.thread = .ready ∧ ¬ isBuilding i ∧ ¬ isHook i) ∨
  (s.fatal = none ∧ s.thread = .running ∧ ¬ isBuilding i) ∨
  (∃ d j, i = .timerStop d j ∧ (s.fatal ≠ none ∨ s.thread = .halted)) ∨
  (∃ d, i = .timerTick d ∧ s.fatal = none ∧ s.thread = .hung)

/-- The vector table and the parameters are the same in both states (R34, R45). -/
def sameConfig (s t : State) : Prop := t.vt = s.vt ∧ t.params = s.params

/-- R0 to R3 and R12 are the same in both CPU states. -/
def sameGeneral (c c' : Cpu) : Prop := c'.r0 = c.r0 ∧ c'.r1 = c.r1 ∧ c'.r2 = c.r2 ∧ c'.r3 = c.r3 ∧ c'.r12 = c.r12

/-- Whether an address is outside the `n` bytes from `a` on, addresses modulo 2^32. -/
def outside (a : Word) (n : Nat) (x : Nat) : Prop := ∀ i, i < n → x ≠ (a + BitVec.ofNat 32 i).toNat

/-- Every byte outside the `n` bytes from `a` on reads the same in both memories. -/
def sameOutside (m m' : Memory) (a : Word) (n : Nat) : Prop := ∀ x, outside a n x → m'.read x = m.read x

/-- Every one of the `n` bytes from `a` on is in MAPPED. -/
def mappedFrom (mapped : List Region) (a : Word) (n : Nat) : Prop :=
  ∀ i, i < n → isMapped mapped (a + BitVec.ofNat 32 i) = true

/-- Byte i of the `n` bytes from `a` on is the first that is not in MAPPED. -/
def firstUnmappedAt (mapped : List Region) (a : Word) (n i : Nat) : Prop :=
  i < n ∧ isMapped mapped (a + BitVec.ofNat 32 i) = false ∧ ∀ j, j < i → isMapped mapped (a + BitVec.ofNat 32 j) = true

/-- Byte i of a word, the lowest first (R61). -/
def byteOf (v : Word) (i : Nat) : Byte := v.extractLsb' (8 * i) 8

/-- Every other device than `d` is the same in both states. -/
def sameOtherDevices (s t : State) (d : Ident) : Prop := ∀ e, e ≠ d → t.device e = s.device e

/-- A call of a callback that changes no RegisterFile but that of `d` (the proviso of R177). -/
def callStaysOn (d : Ident) : SessionCall → Bool
  | .setState e _ => decide (e = d)
  | .setByAddress e _ _ => decide (e = d)
  | .setByName e _ _ => decide (e = d)
  | _ => true

/-- Every invocation of every callback stays on `d`. -/
def callbacksStayOn (d : Ident) (s : State) : Prop := ∀ c ∈ s.cbCode, ∀ run ∈ c.runs, ∀ call ∈ run, callStaysOn d call = true

end Sys2Proof.Machine
end

