-- ==== Sys2Proof/Certificates/Slice0/Obligations.lean ====
section
/-! DEFINITION. The statements about the model, from the numbered rules of spec/. Each docstring names the rules it
formalises, and says where a clause rests on a choice of the model (log numbers are notes/assumptions/). -/

open Sys2Proof Sys2Proof.Machine

/-! ### Interrupt Controller -/

/-- R131: `raise(n)` queues n at the tail of `pend` when ENTRY_TIMING is boundary, and enters it at once when it is
immediate. -/
def Obligations.RaiseQueuesAtTailOrEnters : Prop :=
  ∀ (n : Nat) (s : State),
    (s.params.timing = .boundary → exec (.icRaise n) s = .next { s with pend := s.pend ++ [n] }) ∧
    (s.params.timing = .immediate → exec (.icRaise n) s = exec (.icEnter n) s)

/-- R132: at a boundary the pending numbers are entered in FIFO order, each by IC.ENTER with the number dequeued, as
long as no fatal error is present; an empty queue does nothing. That a number whose entry fails stays dequeued, and the
entries before it stay, is the model's reading of R132 beside R251 (log 13). -/
def Obligations.BoundaryEntersInFifoOrder : Prop :=
  ∀ (s : State),
    (s.pend = [] → exec .icBoundary s = .next s) ∧
    (s.fatal ≠ none → exec .icBoundary s = .next s) ∧
    (∀ n rest, s.pend = n :: rest → s.fatal = none →
      ∃ t, exec (.icEnter n) { s with pend := rest } = .next t ∧ t.pend = rest ∧ exec .icBoundary s = exec .icBoundary t)

/-- R132, R140, R256: when every pending number has a handler and the frames of all of them, one below the other on the
selected stack, are mapped, a boundary empties the queue and enters every number, each nesting on the one before, so that the last raised is on top of the active-frame stack; no
RegisterFile, parameter or log entry changes. -/
def Obligations.BoundaryEntersEveryPending : Prop :=
  ∀ (s : State), s.fatal = none →
    mappedFrom s.params.mapped
      (s.cpu.sp (spselOf s.cpu.control) - BitVec.ofNat 32 (s.pend.length * frameSize (fpcaOf s.cpu.control)))
      (s.pend.length * frameSize (fpcaOf s.cpu.control)) →
    (∀ n ∈ s.pend, 1 ≤ n ∧ n ≤ 17 ∧ s.vt.entry n ≠ 0) →
    ∃ t, exec .icBoundary s = .next t ∧ t.fatal = none ∧ t.pend = [] ∧
      t.afs.map (·.irq) = s.pend.reverse ++ s.afs.map (·.irq) ∧
      (∀ n, s.pend.getLast? = some n → t.cpu.pc = s.vt.entry n) ∧
      sameGeneral s.cpu t.cpu ∧ t.cpu.control = s.cpu.control ∧ t.cpu.fp = s.cpu.fp ∧
      t.devices = s.devices ∧ t.log = s.log ∧ sameConfig s t

/-- R133: the lookup answers the table word of a number in 1..17, with AbsentVector outside that range and ZeroVector
for a word 0, and changes nothing else. -/
def Obligations.LookupAnswersOrFaults : Prop :=
  ∀ (n : Nat) (s : State),
    (1 ≤ n → n ≤ 17 → s.vt.entry n ≠ 0 → exec (.vtLookup n) s = .next { s with ret := .word (s.vt.entry n) }) ∧
    (s.fatal = none → (n < 1 ∨ 17 < n) → exec (.vtLookup n) s = .next { s with fatal := some (.absentVector n) }) ∧
    (s.fatal = none → 1 ≤ n → n ≤ 17 → s.vt.entry n = 0 →
      exec (.vtLookup n) s = .next { s with fatal := some (.zeroVector n) })

/-- R134, with the layouts of R98 and R99 and the sizes of R142: entering a number that has a handler, on a stack whose
frame is mapped. The context is saved below the selected stack pointer, LR, IPSR and PC are written, a record is pushed,
and nothing else changes (R145): memory outside the frame, the other stack pointer, CONTROL, the general and FP registers,
`pend`, the devices. -/
def Obligations.EnterSavesContextAndJumps : Prop :=
  ∀ (n : Nat) (s : State), 1 ≤ n → n ≤ 17 → s.vt.entry n ≠ 0 →
    mappedFrom s.params.mapped (entryBase s.cpu) (frameSize (fpcaOf s.cpu.control)) →
    ∃ t, exec (.icEnter n) s = .next t ∧
      entryBase s.cpu =
        (if s.cpu.control.getLsbD 1 then s.cpu.psp else s.cpu.msp) - (if s.cpu.control.getLsbD 2 then 100#32 else 32#32) ∧
      t = { s with
        cpu := { s.cpu with
          lr := t.cpu.lr
          xpsr := t.cpu.xpsr
          pc := s.vt.entry n
          msp := if s.cpu.control.getLsbD 1 then s.cpu.msp else entryBase s.cpu
          psp := if s.cpu.control.getLsbD 1 then entryBase s.cpu else s.cpu.psp }
        mem := t.mem
        afs := { irq := n, excReturn := t.cpu.lr, spsel := s.cpu.control.getLsbD 1, fpca := s.cpu.control.getLsbD 2,
                 frameBase := entryBase s.cpu } :: s.afs } ∧
      t.cpu.lr = encodeExcReturn (s.cpu.control.getLsbD 1) (s.cpu.control.getLsbD 2) ∧
      (∀ i, t.cpu.xpsr.getLsbD i = if i < 9 then (BitVec.ofNat 9 n).getLsbD i else s.cpu.xpsr.getLsbD i) ∧
      t.mem.memRead (entryBase s.cpu + 0x00#32) 4 = s.cpu.r0 ∧ t.mem.memRead (entryBase s.cpu + 0x04#32) 4 = s.cpu.r1 ∧
      t.mem.memRead (entryBase s.cpu + 0x08#32) 4 = s.cpu.r2 ∧ t.mem.memRead (entryBase s.cpu + 0x0C#32) 4 = s.cpu.r3 ∧
      t.mem.memRead (entryBase s.cpu + 0x10#32) 4 = s.cpu.r12 ∧ t.mem.memRead (entryBase s.cpu + 0x14#32) 4 = s.cpu.lr ∧
      t.mem.memRead (entryBase s.cpu + 0x18#32) 4 = s.cpu.pc ∧ t.mem.memRead (entryBase s.cpu + 0x1C#32) 4 = s.cpu.xpsr ∧
      (s.cpu.control.getLsbD 2 = true →
        (∀ k : Fin 16, t.mem.memRead (entryBase s.cpu + BitVec.ofNat 32 (0x20 + 4 * k.val)) 4 = s.cpu.fp.s k) ∧
        t.mem.memRead (entryBase s.cpu + 0x60#32) 4 = s.cpu.fp.fpscr) ∧
      sameOutside s.mem t.mem (entryBase s.cpu) (frameSize (fpcaOf s.cpu.control))

/-- R257 and R66 for `enter`: AbsentVector, then ZeroVector, then FrameAccessUnmapped with the first unmapped address;
only `fatal` changes. Where IC.ENTER traps. -/
def Obligations.EnterChecksInOrder : Prop :=
  ∀ (n : Nat) (s : State), s.fatal = none →
    ((n < 1 ∨ 17 < n) → exec (.icEnter n) s = .next { s with fatal := some (.absentVector n) }) ∧
    (1 ≤ n → n ≤ 17 → s.vt.entry n = 0 → exec (.icEnter n) s = .next { s with fatal := some (.zeroVector n) }) ∧
    (1 ≤ n → n ≤ 17 → s.vt.entry n ≠ 0 →
      ∀ i, firstUnmappedAt s.params.mapped (entryBase s.cpu) (frameSize (fpcaOf s.cpu.control)) i →
        exec (.icEnter n) s =
          .next { s with fatal := some (.frameAccessUnmapped (entryBase s.cpu + BitVec.ofNat 32 i)) })

/-- R138, with the layouts of R98 and R99: a return while an exception is active, LR legal where that is asked for, and
the frame mapped. The registers are the frame's words, the stack pointer that LR names moves up, CONTROL bits 1 and 2
are LR's, a record is popped, and nothing else changes (R146): memory, the other stack pointer, `pend`, the devices. -/
def Obligations.ReturnRestoresFromFrame : Prop :=
  ∀ (s : State) (r : FrameRec) (rest : List FrameRec), s.afs = r :: rest →
    (s.params.strict = true → legalExcReturn s.cpu.lr = true) →
    mappedFrom s.params.mapped (s.cpu.sp (s.cpu.lr.getLsbD 2)) (if s.cpu.lr.getLsbD 4 then 32 else 100) →
    ∃ t, exec .icReturn s = .next t ∧
      (∀ a, inReturnRange a = true → exec (.icBlockEntry a) s = .next t) ∧
      t = { s with cpu := t.cpu, afs := rest } ∧
      t.cpu.r0 = s.mem.memRead (s.cpu.sp (s.cpu.lr.getLsbD 2) + 0x00#32) 4 ∧
      t.cpu.r1 = s.mem.memRead (s.cpu.sp (s.cpu.lr.getLsbD 2) + 0x04#32) 4 ∧
      t.cpu.r2 = s.mem.memRead (s.cpu.sp (s.cpu.lr.getLsbD 2) + 0x08#32) 4 ∧
      t.cpu.r3 = s.mem.memRead (s.cpu.sp (s.cpu.lr.getLsbD 2) + 0x0C#32) 4 ∧
      t.cpu.r12 = s.mem.memRead (s.cpu.sp (s.cpu.lr.getLsbD 2) + 0x10#32) 4 ∧
      t.cpu.lr = s.mem.memRead (s.cpu.sp (s.cpu.lr.getLsbD 2) + 0x14#32) 4 ∧
      t.cpu.pc = s.mem.memRead (s.cpu.sp (s.cpu.lr.getLsbD 2) + 0x18#32) 4 ∧
      t.cpu.xpsr = s.mem.memRead (s.cpu.sp (s.cpu.lr.getLsbD 2) + 0x1C#32) 4 ∧
      (s.cpu.lr.getLsbD 4 = true → t.cpu.fp = s.cpu.fp) ∧
      (s.cpu.lr.getLsbD 4 = false →
        (∀ k : Fin 16, t.cpu.fp.s k =
          s.mem.memRead (s.cpu.sp (s.cpu.lr.getLsbD 2) + BitVec.ofNat 32 (0x20 + 4 * k.val)) 4) ∧
        t.cpu.fp.fpscr = s.mem.memRead (s.cpu.sp (s.cpu.lr.getLsbD 2) + 0x60#32) 4) ∧
      t.cpu.sp (s.cpu.lr.getLsbD 2) =
        s.cpu.sp (s.cpu.lr.getLsbD 2) + (if s.cpu.lr.getLsbD 4 then 32#32 else 100#32) ∧
      t.cpu.sp (!s.cpu.lr.getLsbD 2) = s.cpu.sp (!s.cpu.lr.getLsbD 2) ∧
      (∀ i, t.cpu.control.getLsbD i =
        if i = 1 then s.cpu.lr.getLsbD 2 else if i = 2 then !s.cpu.lr.getLsbD 4 else s.cpu.control.getLsbD i)

/-- R257 for `return`: ReturnOutsideHandler, then IllegalExcReturn, then FrameAccessUnmapped; only `fatal` changes.
Where IC.RETURN traps. -/
def Obligations.ReturnChecksInOrder : Prop :=
  ∀ (s : State), s.fatal = none →
    (s.afs = [] → exec .icReturn s = .next { s with fatal := some (.returnOutsideHandler s.cpu.lr) }) ∧
    (s.afs ≠ [] → s.params.strict = true → legalExcReturn s.cpu.lr = false →
      exec .icReturn s = .next { s with fatal := some (.illegalExcReturn s.cpu.lr) }) ∧
    (s.afs ≠ [] → (s.params.strict = true → legalExcReturn s.cpu.lr = true) →
      ∀ i, firstUnmappedAt s.params.mapped (s.cpu.sp (decodeSpsel s.cpu.lr)) (frameSize (decodeFpca s.cpu.lr)) i →
        exec .icReturn s = .next
          { s with fatal := some (.frameAccessUnmapped (s.cpu.sp (decodeSpsel s.cpu.lr) + BitVec.ofNat 32 i)) })

/-- R141, the §8 property as the source words it: an entry followed at once by a return restores every register, both
stack pointers, CONTROL and the active-frame stack; only the bytes of the frame remain changed. -/
def Obligations.EnterThenReturnRestoresEverything : Prop :=
  ∀ (n : Nat) (s t : State), exec (.icEnter n) s = .next t → t.fatal = none →
    exec .icReturn t = .next { s with mem := t.mem }

/-- R141 in full: between the entry and the return a handler may change everything but LR, the stack pointer the entry
selected, and the bytes of the frame; it changes no parameter, and every exception entered meanwhile has returned, so that
the active-frame stack is as the entry left it. The return still restores the eight registers, the FP registers
of an extended frame, and that stack pointer, and leaves CONTROL bits 1 and 2 at the captured values. -/
def Obligations.ReturnAfterHandlerRestoresContext : Prop :=
  ∀ (n : Nat) (s t u : State), exec (.icEnter n) s = .next t → t.fatal = none → s.fatal = none →
    u.cpu.lr = t.cpu.lr → u.cpu.sp (spselOf s.cpu.control) = t.cpu.sp (spselOf s.cpu.control) →
    (∀ i, i < frameSize (fpcaOf s.cpu.control) →
      u.mem.read (entryBase s.cpu + BitVec.ofNat 32 i).toNat = t.mem.read (entryBase s.cpu + BitVec.ofNat 32 i).toNat) →
    u.afs = t.afs → u.params = s.params →
    ∃ v, exec .icReturn u = .next v ∧ v.fatal = u.fatal ∧ sameGeneral s.cpu v.cpu ∧ v.cpu.lr = s.cpu.lr ∧
      v.cpu.pc = s.cpu.pc ∧ v.cpu.xpsr = s.cpu.xpsr ∧
      v.cpu.sp (spselOf s.cpu.control) = s.cpu.sp (spselOf s.cpu.control) ∧
      spselOf v.cpu.control = spselOf s.cpu.control ∧ fpcaOf v.cpu.control = fpcaOf s.cpu.control ∧
      (fpcaOf s.cpu.control = true → v.cpu.fp = s.cpu.fp) ∧ (fpcaOf s.cpu.control = false → v.cpu.fp = u.cpu.fp) ∧
      v.afs = s.afs ∧ v.mem = u.mem

/-- R140: two entries taken one inside the other, on whatever stack CONTROL names at each (R30, C9: the handler of the
first may have changed CONTROL), unwind in LIFO order: the two returns give back the registers of the state before
the first entry, provided the inner frame lies outside the outer one. -/
def Obligations.NestedEntriesUnwindInLifoOrder : Prop :=
  ∀ (m n : Nat) (c : Word) (s t u : State), s.fatal = none →
    exec (.icEnter m) s = .next t → t.fatal = none →
    exec (.icEnter n) { t with cpu := { t.cpu with control := c } } = .next u → u.fatal = none →
    (∀ i, i < frameSize (fpcaOf s.cpu.control) →
      outside (entryBase { t.cpu with control := c }) (frameSize (fpcaOf c))
        (entryBase s.cpu + BitVec.ofNat 32 i).toNat) →
    ∃ v w, exec .icReturn u = .next v ∧ exec .icReturn v = .next w ∧ w.fatal = none ∧ w.afs = s.afs ∧
      v.cpu.pc = t.cpu.pc ∧ v.cpu.lr = t.cpu.lr ∧ v.cpu.xpsr = t.cpu.xpsr ∧
      sameGeneral s.cpu w.cpu ∧ w.cpu.lr = s.cpu.lr ∧ w.cpu.pc = s.cpu.pc ∧ w.cpu.xpsr = s.cpu.xpsr ∧
      w.cpu.msp = s.cpu.msp ∧ w.cpu.psp = s.cpu.psp ∧ w.cpu.fp = s.cpu.fp ∧
      spselOf w.cpu.control = spselOf s.cpu.control ∧ fpcaOf w.cpu.control = fpcaOf s.cpu.control

/-- R95 and R137: a block entry at 0xFFFFFF00..0xFFFFFFFF performs the return, and any other is nonmatch, which changes
nothing (R139, NONMATCH_POLICY = ignore). -/
def Obligations.BlockEntrySelectsByRange : Prop :=
  ∀ (a : Word) (s : State),
    (0xFFFFFF00 ≤ a.toNat → exec (.icBlockEntry a) s = exec .icReturn s) ∧
    (a.toNat < 0xFFFFFF00 → exec (.icBlockEntry a) s = .next s) ∧
    exec (.icNonmatch a) s = .next s

/-- R91, R92: the EXC_RETURN word handed back for each of the four captured pairs. -/
def Obligations.EncodeGivesTheFourWords : Prop :=
  ∀ (s : State),
    exec (.icEncode false false) s = .next { s with ret := .word 0xFFFFFFF9#32 } ∧
    exec (.icEncode true false) s = .next { s with ret := .word 0xFFFFFFFD#32 } ∧
    exec (.icEncode false true) s = .next { s with ret := .word 0xFFFFFFE9#32 } ∧
    exec (.icEncode true true) s = .next { s with ret := .word 0xFFFFFFED#32 }

/-- R93, R136: decoding reads bit 2 and the inverse of bit 4, and gives back every pair that was encoded. -/
def Obligations.DecodeReadsBitsAndInvertsEncode : Prop :=
  (∀ (v : Word) (s : State), exec (.icDecode v) s = .next { s with ret := .mode (v.getLsbD 2) (!v.getLsbD 4) }) ∧
  (∀ (p f : Bool) (s t : State) (w : Word), exec (.icEncode p f) s = .next t → t.ret = .word w →
    exec (.icDecode w) t = .next { t with ret := .mode p f })

/-- R94: the legal EXC_RETURN values are exactly the four of R92. -/
def Obligations.LegalExcReturnsAreExactlyFour : Prop :=
  ∀ (v : Word), legalExcReturn v = true ↔
    v = 0xFFFFFFF9#32 ∨ v = 0xFFFFFFFD#32 ∨ v = 0xFFFFFFE9#32 ∨ v = 0xFFFFFFED#32

/-- R147, R101: the vector table is the first 72 bytes of the image as little-endian words; a shorter image is fatal.
Nothing else changes. -/
def Obligations.ParseReadsTheImageHeader : Prop :=
  ∀ (image : List Byte) (s : State),
    (72 ≤ image.length →
      ∃ t, exec (.vtParse image) s = .next t ∧ t = { s with vt := t.vt } ∧
        ∀ n, n < 18 → (t.vt.entry n).toNat =
          (image.getD (4 * n) 0).toNat + 2 ^ 8 * (image.getD (4 * n + 1) 0).toNat +
            2 ^ 16 * (image.getD (4 * n + 2) 0).toNat + 2 ^ 24 * (image.getD (4 * n + 3) 0).toNat) ∧
    (image.length < 72 → s.fatal = none →
      exec (.vtParse image) s = .next { s with fatal := some (.imageTooShort image.length) })

/-- R34, R45: no operation but the load of an image and the start of a session changes the vector table or a parameter;
the load of an image changes no parameter, and the start of a session none but HW_DB, MAPPED and SUBSTRATE_IRQ_MAP, which
come with it (R9, R270, R283; log 26). -/
def Obligations.VectorTableAndParametersFixed : Prop :=
  ∀ (i : Instr) (s t : State), exec i s = .next t →
    ((∀ im, i ≠ .vtParse im) → (∀ im ds pl, i ≠ .sessionStart im ds pl) → sameConfig s t) ∧
    ((∀ im ds pl, i ≠ .sessionStart im ds pl) → t.params = s.params) ∧
    t.params = { s.params with hwDb := t.params.hwDb, mapped := t.params.mapped, irqMap := t.params.irqMap }

/-- R32: every CONTROL bit other than bits 1 and 2 keeps its value across every operation but the start of a session. -/
def Obligations.ControlBitsOtherThanModeKept : Prop :=
  ∀ (i : Instr) (s t : State), exec i s = .next t → (∀ im ds pl, i ≠ .sessionStart im ds pl) →
    ∀ k, k ≠ 1 → k ≠ 2 → t.cpu.control.getLsbD k = s.cpu.control.getLsbD k

/-! ### MMIO Dispatcher -/

/-- R171: the lookup answers the instance that HW_DB's entry for the exact address names; absent where there is no entry,
and where the entry names a device with no instance (D20). HW_DB's entry for an address is the first in the model's
list (log 6). -/
def Obligations.LookupResolvesExactAddress : Prop :=
  ∀ (a : Word) (s : State),
    ((∀ e ∈ s.params.hwDb, e.addr ≠ a) → exec (.mmioLookup a) s = .next { s with ret := .absent }) ∧
    (∀ pre e post, s.params.hwDb = pre ++ e :: post → (∀ x ∈ pre, x.addr ≠ a) → e.addr = a →
      ((∃ d ∈ s.devices, d.id = e.devId) → exec (.mmioLookup a) s = .next { s with ret := .device e.devId }) ∧
      ((∀ d ∈ s.devices, d.id ≠ e.devId) → exec (.mmioLookup a) s = .next { s with ret := .absent }))

/-- R172: a dispatched read of a register first overwrites the mapped ones of the four backing bytes with the register's
value, and returns its low n bytes. Nothing but those bytes changes. -/
def Obligations.ReadOfRegisterOverwritesBacking : Prop :=
  ∀ (a : Word) (n : Nat) (s : State) (x : Device) (r : Reg), (n = 1 ∨ n = 2 ∨ n = 4) →
    mappedFrom s.params.mapped a n → s.resolve a = some x → byAddress x.regs a = some r →
    ∃ t, exec (.mmioRead a n) s = .next t ∧ t = { s with mem := t.mem, ret := t.ret } ∧
      t.ret = .word (BitVec.ofNat 32 (r.value.toNat % 2 ^ (8 * n))) ∧
      (∀ i, i < 4 → t.mem.read (a + BitVec.ofNat 32 i).toNat =
        if isMapped s.params.mapped (a + BitVec.ofNat 32 i) then byteOf r.value i
        else s.mem.read (a + BitVec.ofNat 32 i).toNat) ∧
      sameOutside s.mem t.mem a 4

/-- R174, R176: a dispatched read that no register answers returns backing memory and changes no state but the value
handed back (the model's `ret`). -/
def Obligations.OpenBusReadReturnsBacking : Prop :=
  ∀ (a : Word) (n : Nat) (s : State), (n = 1 ∨ n = 2 ∨ n = 4) → mappedFrom s.params.mapped a n →
    (s.resolve a = none ∨ ∃ x, s.resolve a = some x ∧ byAddress x.regs a = none) →
    exec (.mmioRead a n) s = .next { s with ret := .word (s.mem.memRead a n) }

/-- R67, R71, R257: a size other than 1, 2 or 4, then a byte outside MAPPED, stops a dispatched access before anything
else; only `fatal` changes. Where MMIO.READ and MMIO.WRITE trap. -/
def Obligations.DispatchedAccessChecksFirst : Prop :=
  ∀ (a : Word) (n : Nat) (v : Word) (s : State), s.fatal = none →
    ((n ≠ 1 ∧ n ≠ 2 ∧ n ≠ 4) →
      exec (.mmioRead a n) s = .next { s with fatal := some (.unsupportedAccessSize a n) } ∧
      exec (.mmioWrite a n v) s = .next { s with fatal := some (.unsupportedAccessSize a n) }) ∧
    ((n = 1 ∨ n = 2 ∨ n = 4) → ¬ mappedFrom s.params.mapped a n →
      exec (.mmioRead a n) s = .next { s with fatal := some (.substrateAccessFault a) } ∧
      exec (.mmioWrite a n v) s = .next { s with fatal := some (.substrateAccessFault a) })

/-- R69: a dispatched read is idempotent: the second returns the same value and leaves the same state. That memory is in
its canonical form is part of the invariant. -/
def Obligations.DispatchedReadIsIdempotent : Prop :=
  ∀ (a : Word) (n : Nat) (s t : State), s.mem.wf = true → exec (.mmioRead a n) s = .next t →
    exec (.mmioRead a n) t = .next t

/-- R173, R251: a dispatched write to an address a device owns is the device's write of the zero-extended value and then
the raw bytes; once a side effect has raised a fatal error the raw bytes do not land. That they do not land either after a
callback that does not return is the model's reading of R231 (log 19). -/
def Obligations.WriteRunsDeviceThenLands : Prop :=
  ∀ (a : Word) (n : Nat) (v : Word) (s : State) (x : Device), (n = 1 ∨ n = 2 ∨ n = 4) →
    mappedFrom s.params.mapped a n → s.resolve a = some x →
    ∃ u, exec (.devWrite x.id a (BitVec.ofNat 32 (v.toNat % 2 ^ (8 * n)))) s = .next u ∧
      (u.fatal = none → u.thread ≠ .hung →
        ∃ t, exec (.mmioWrite a n v) s = .next t ∧ t = { u with mem := t.mem } ∧
          (∀ i, i < n → t.mem.read (a + BitVec.ofNat 32 i).toNat = byteOf v i) ∧ sameOutside u.mem t.mem a n) ∧
      ((u.fatal ≠ none ∨ u.thread = .hung) → exec (.mmioWrite a n v) s = .next u)

/-- R175, R176: a dispatched write that no register takes changes the backing bytes a..a+n-1 and nothing else. That no two
instances share an identifier (R211) is part of the invariant. -/
def Obligations.OpenBusWriteLandsInMemory : Prop :=
  ∀ (a : Word) (n : Nat) (v : Word) (s : State), (n = 1 ∨ n = 2 ∨ n = 4) → s.live → mappedFrom s.params.mapped a n →
    (s.devices.map (·.id)).Nodup →
    (s.resolve a = none ∨ ∃ x, s.resolve a = some x ∧ byAddress x.regs a = none) →
    ∃ t, exec (.mmioWrite a n v) s = .next t ∧ t = { s with mem := t.mem } ∧
      (∀ i, i < n → t.mem.read (a + BitVec.ofNat 32 i).toNat = byteOf v i) ∧ sameOutside s.mem t.mem a n

/-- R177: a dispatched write changes the RegisterFile of no device but the owner's, provided the callbacks change no other;
a dispatched read changes no device. -/
def Obligations.MmioIsolation : Prop :=
  ∀ (a : Word) (n : Nat) (v : Word) (s t : State),
    (exec (.mmioRead a n) s = .next t → t.devices = s.devices) ∧
    (s.resolve a = none → exec (.mmioWrite a n v) s = .next t → t.devices = s.devices) ∧
    (∀ x, s.resolve a = some x → callbacksStayOn x.id s → exec (.mmioWrite a n v) s = .next t →
      ∀ e, e ≠ x.id → (t.device e).map (·.regs) = (s.device e).map (·.regs))

/-! ### RegisterFile -/

/-- R191: `construct` gives an instance of DEVICES exactly the listed registers, each at value 0 (REG_RESET), an empty
RegisterFile from an empty list, beside the device fields of R286; a repeated name, then a repeated address, is fatal, and
nothing else changes. That it changes nothing on an instance that has its RegisterFile, even on a list with a repeat, and
nothing on an identifier that no instance of DEVICES has, is the model's choice (log 27, deduced from R190 and R107). Which
of several repeated names or addresses is reported is the model's too (log 31). -/
def Obligations.ConstructBuildsOrRejects : Prop :=
  ∀ (d : Ident) (regs : List (Ident × Word)) (s : State),
    (∀ kind, s.device d = none → s.namedKind d = some kind →
      ((regs.map (·.1)).Nodup → (regs.map (·.2)).Nodup →
        exec (.rfConstruct d regs) s = .next { s with
          devices := s.devices ++ [{
            id := d
            body := match kind with
              | .clock => .clock
              | .gpio => .gpio
              | .rtc => .rtc
              | .radio => .radio .disabled none none
              | .timer => .timer 0 false
            regs := regs.map fun r => { name := r.1, addr := r.2, value := 0 } }] }) ∧
      (s.fatal = none → ¬ (regs.map (·.1)).Nodup →
        ∃ nm, List.Duplicate nm (regs.map (·.1)) ∧
          exec (.rfConstruct d regs) s = .next { s with fatal := some (.duplicateRegister d (.name nm)) }) ∧
      (s.fatal = none → (regs.map (·.1)).Nodup → ¬ (regs.map (·.2)).Nodup →
        ∃ ad, List.Duplicate ad (regs.map (·.2)) ∧
          exec (.rfConstruct d regs) s = .next { s with fatal := some (.duplicateRegister d (.address ad)) })) ∧
    (∀ x, s.device d = some x → exec (.rfConstruct d regs) s = .next s) ∧
    (s.device d = none → s.namedKind d = none → exec (.rfConstruct d regs) s = .next s)

/-- R192, R193: a lookup by name or by address answers the register that has it, or absent. -/
def Obligations.LookupsAnswerTheRegister : Prop :=
  ∀ (d : Ident) (s : State) (x : Device), s.device d = some x → regsUnique x.regs = true →
    (∀ r ∈ x.regs, exec (.rfByName d r.name) s = .next { s with ret := .reg r } ∧
      exec (.rfByAddr d r.addr) s = .next { s with ret := .reg r }) ∧
    (∀ nm, (∀ r ∈ x.regs, r.name ≠ nm) → exec (.rfByName d nm) s = .next { s with ret := .absent }) ∧
    (∀ a, (∀ r ∈ x.regs, r.addr ≠ a) → exec (.rfByAddr d a) s = .next { s with ret := .absent })

/-- R198, with R194 and R195: a store by address is what the lookup by name then answers, and a store by name what the
lookup by address answers, truncated to 32 bits; no other register and no other device changes. An address or a name no
register has stores nothing. -/
def Obligations.StoresVisibleThroughTheOtherLookup : Prop :=
  ∀ (d : Ident) (v : Nat) (s : State) (x : Device), s.device d = some x → regsUnique x.regs = true →
    (∀ r ∈ x.regs,
      (∃ t, exec (.rfSetByAddr d r.addr v) s = .next t ∧ t = { s with devices := t.devices } ∧
        exec (.rfByName d r.name) t = .next { t with ret := .reg { r with value := BitVec.ofNat 32 v } } ∧
        (∀ q ∈ x.regs, q ≠ r → exec (.rfByName d q.name) t = .next { t with ret := .reg q }) ∧
        (t.device d).map (·.body) = some x.body ∧ sameOtherDevices s t d) ∧
      (∃ t, exec (.rfSetByName d r.name v) s = .next t ∧ t = { s with devices := t.devices } ∧
        exec (.rfByAddr d r.addr) t = .next { t with ret := .reg { r with value := BitVec.ofNat 32 v } } ∧
        (∀ q ∈ x.regs, q ≠ r → exec (.rfByAddr d q.addr) t = .next { t with ret := .reg q }) ∧
        (t.device d).map (·.body) = some x.body ∧ sameOtherDevices s t d)) ∧
    (∀ a, (∀ r ∈ x.regs, r.addr ≠ a) → ∃ t, exec (.rfSetByAddr d a v) s = .next t ∧
      t = { s with devices := t.devices } ∧ ∀ e, t.device e = s.device e) ∧
    (∀ nm, (∀ r ∈ x.regs, r.name ≠ nm) → ∃ t, exec (.rfSetByName d nm v) s = .next t ∧
      t = { s with devices := t.devices } ∧ ∀ e, t.device e = s.device e)

/-- R196: the bit test of a register, false from bit 32 on. -/
def Obligations.BitTestReadsOneBit : Prop :=
  ∀ (d nm : Ident) (n : Nat) (s : State) (r : Reg), s.register d nm = some r →
    exec (.rfBit d nm n) s = .next { s with ret := .bool (decide (n ≤ 31) && r.value.getLsbD n) }

/-- R197: bit i of a bit range is bit first + i of the register while first + i ≤ last, and 0 beyond; so the shift is by
`first`, an empty range is 0 and bits above 31 read as 0. -/
def Obligations.BitRangeExtractsInclusive : Prop :=
  ∀ (d nm : Ident) (first last : Nat) (s : State) (r : Reg), s.register d nm = some r →
    ∃ w, exec (.rfBitRange d nm first last) s = .next { s with ret := .word w } ∧
      ∀ i, w.getLsbD i = (decide (first + i ≤ last) && r.value.getLsbD (first + i))

/-- R199: every RegisterFile operation other than `construct` answers and raises no fatal error, for every input. A lookup
hands back the register or absent; a bit test and a bit range of a register that exists hand back a value. On a device or
a register that does not exist they hand nothing back, which is the model's reading of R107 (log 4). -/
def Obligations.RegisterFileOperationsAreTotal : Prop :=
  ∀ (d nm : Ident) (a : Word) (v n m : Nat) (s : State),
    (∀ i, i ∈ [Instr.rfByName d nm, .rfByAddr d a, .rfSetByAddr d a v, .rfSetByName d nm v, .rfBit d nm n,
        .rfBitRange d nm n m] →
      ∃ t, exec i s = .next t ∧ t.fatal = s.fatal ∧ t.mem = s.mem ∧ t.cpu = s.cpu ∧ t.log = s.log ∧ t.afs = s.afs ∧
        t.pend = s.pend ∧ sameConfig s t) ∧
    (∀ x, s.device d = some x →
      (exec (.rfByName d nm) s = .next { s with ret := .absent } ∨
        ∃ r ∈ x.regs, r.name = nm ∧ exec (.rfByName d nm) s = .next { s with ret := .reg r }) ∧
      (exec (.rfByAddr d a) s = .next { s with ret := .absent } ∨
        ∃ r ∈ x.regs, r.addr = a ∧ exec (.rfByAddr d a) s = .next { s with ret := .reg r })) ∧
    (∀ r, s.register d nm = some r →
      (∃ b, exec (.rfBit d nm n) s = .next { s with ret := .bool b }) ∧
      ∃ w, exec (.rfBitRange d nm n m) s = .next { s with ret := .word w })

/-! ### Devices -/

/-- R211, R212: an instance answers its identifier, and the value of its register at an address or absent; reading
changes nothing. -/
def Obligations.IdentifyAndReadAnswer : Prop :=
  ∀ (d : Ident) (a : Word) (s : State) (x : Device), s.device d = some x →
    exec (.devIdentify d) s = .next { s with ret := .device d } ∧
    (∀ r, byAddress x.regs a = some r → exec (.devRead d a) s = .next { s with ret := .word r.value }) ∧
    (byAddress x.regs a = none → exec (.devRead d a) s = .next { s with ret := .absent })

/-- R213: a device write stores the value and then runs the side effect that the variant and the register's name select;
every other register is pure storage (R217, R218, R224, R229), and an address the device does not know changes nothing.
That no two instances share an identifier (R211) is part of the invariant. -/
def Obligations.DeviceWriteStoresThenRunsSideEffect : Prop :=
  ∀ (d : Ident) (a v : Word) (s : State) (x : Device), s.device d = some x → (s.devices.map (·.id)).Nodup →
    (byAddress x.regs a = none → exec (.devWrite d a v) s = .next s) ∧
    (∀ r, byAddress x.regs a = some r → ∃ u, exec (.rfSetByAddr d a v.toNat) s = .next u ∧
      (x.body.kind = .clock → r.name = nmTasksHfclkstart → exec (.devWrite d a v) s = exec (.clockHfclkstart d v) u) ∧
      (x.body.kind = .gpio → r.name = nmOutset → exec (.devWrite d a v) s = exec (.gpioOutset d v) u) ∧
      (x.body.kind = .gpio → r.name = nmOutclr → exec (.devWrite d a v) s = exec (.gpioOutclr d v) u) ∧
      (x.body.kind = .radio → r.name = nmTasksTxen → exec (.devWrite d a v) s = exec (.radioTxen d v) u) ∧
      (x.body.kind = .radio → r.name = nmTasksRxen → exec (.devWrite d a v) s = exec (.radioRxen d v) u) ∧
      (∀ k, x.body.kind = .timer → k < 6 → r.name = nmTasksCapture k →
        exec (.devWrite d a v) s = exec (.timerCapture d k) u) ∧
      ((x.body.kind = .clock → r.name ≠ nmTasksHfclkstart) →
        (x.body.kind = .gpio → r.name ≠ nmOutset ∧ r.name ≠ nmOutclr) →
        (x.body.kind = .radio → r.name ≠ nmTasksTxen ∧ r.name ≠ nmTasksRxen) →
        (x.body.kind = .timer → ∀ k, k < 6 → r.name ≠ nmTasksCapture k) →
        exec (.devWrite d a v) s = .next u))

/-- R214: HFCLKSTART sets EVENTS_HFCLKSTARTED to 1, whatever value was written, and no other register, device or memory
changes. -/
def Obligations.HfclkstartSetsTheEvent : Prop :=
  ∀ (d : Ident) (v : Word) (s : State) (x : Device) (r : Reg), s.device d = some x → x.body = .clock →
    byName x.regs nmEventsHfclkstarted = some r →
    ∃ t y, exec (.clockHfclkstart d v) s = .next t ∧ t = { s with devices := t.devices } ∧ sameOtherDevices s t d ∧
      t.device d = some y ∧ y.body = x.body ∧ byName y.regs nmEventsHfclkstarted = some { r with value := 1 } ∧
      ∀ nm, nm ≠ nmEventsHfclkstarted → byName y.regs nm = byName x.regs nm

/-- R215, R216, R110: OUTSET and OUTCLR report the indices of the set bits, ascending, as pins set or cleared, and change
nothing but the log. -/
def Obligations.GpioReportsSetBits : Prop :=
  ∀ (d : Ident) (v : Word) (s : State) (x : Device), s.device d = some x → x.body = .gpio →
    ∃ pins, pins.Pairwise (· < ·) ∧ (∀ i, i ∈ pins ↔ i < 32 ∧ v.getLsbD i = true) ∧
      exec (.gpioOutset d v) s = .next { s with log := s.log ++ [.gpioPins .set pins] } ∧
      exec (.gpioOutclr d v) s = .next { s with log := s.log ++ [.gpioPins .clear pins] }

/-- R219: TXEN with a null PACKETPTR logs the warning and does nothing else. Otherwise an unmapped length byte, then the
first unmapped byte of the rest of the packet, is a SubstrateAccessFault (and nothing else changes), and a mapped packet
with no transmit callback changes nothing. -/
def Obligations.TxenWithoutTransmission : Prop :=
  ∀ (d : Ident) (v : Word) (s : State) (x : Device) (st : RadioState) (tx rx : Option Nat) (r : Reg),
    s.device d = some x → x.body = .radio st tx rx → byName x.regs nmPacketptr = some r →
    (r.value = 0 → exec (.radioTxen d v) s = .next { s with log := s.log ++ [.nullPacketPtr .tasksTxen] }) ∧
    (r.value ≠ 0 → s.fatal = none → isMapped s.params.mapped r.value = false →
      exec (.radioTxen d v) s = .next { s with fatal := some (.substrateAccessFault r.value) }) ∧
    (r.value ≠ 0 → s.fatal = none → isMapped s.params.mapped r.value = true →
      ∀ i, firstUnmappedAt s.params.mapped (r.value + 1) (s.mem.read r.value.toNat).toNat i →
        exec (.radioTxen d v) s =
          .next { s with fatal := some (.substrateAccessFault (r.value + 1 + BitVec.ofNat 32 i)) }) ∧
    (r.value ≠ 0 → tx = none → mappedFrom s.params.mapped r.value ((s.mem.read r.value.toNat).toNat + 1) →
      exec (.radioTxen d v) s = .next s)

/-- R219: TXEN with a transmit callback passes it the length byte and that many further bytes: RadioTx with exactly
these bytes is logged and the callback is invoked once. What the invocation does is its session code's calls in order
(the model's cbCode, log 18): none where nothing is bound or every list is used up, else the next list of calls, which is
then used up. -/
def Obligations.TxenPassesPacketToCallback : Prop :=
  ∀ (d : Ident) (v : Word) (s : State) (x : Device) (st : RadioState) (f : Nat) (rx : Option Nat) (r : Reg),
    s.device d = some x → x.body = .radio st (some f) rx → byName x.regs nmPacketptr = some r → r.value ≠ 0 →
    mappedFrom s.params.mapped r.value ((s.mem.read r.value.toNat).toNat + 1) →
    ∃ bytes : List Byte, bytes.length = (s.mem.read r.value.toNat).toNat + 1 ∧
      (∀ i, i < bytes.length → bytes[i]? = some (s.mem.read (r.value + BitVec.ofNat 32 i).toNat)) ∧
      ((∀ c ∈ s.cbCode, c.id ≠ f) → exec (.radioTxen d v) s = .next { s with log := s.log ++ [.radioTx bytes] }) ∧
      (∀ pre post, s.cbCode = pre ++ { id := f, runs := [] } :: post → (∀ c ∈ pre, c.id ≠ f) →
        exec (.radioTxen d v) s = .next { s with log := s.log ++ [.radioTx bytes] }) ∧
      (∀ pre run runs post, s.cbCode = pre ++ { id := f, runs := run :: runs } :: post → (∀ c ∈ pre ++ post, c.id ≠ f) →
        exec (.radioTxen d v) s = .next (runCalls run
          { s with log := s.log ++ [.radioTx bytes], cbCode := pre ++ { id := f, runs := runs } :: post }))

/-- R220: RXEN invokes the receive callback, logging RadioRx; with no callback nothing happens. What the invocation does
is its session code's calls in order (the model's cbCode, log 18): none where nothing is bound or every list is used up. -/
def Obligations.RxenInvokesReceiveCallback : Prop :=
  ∀ (d : Ident) (v : Word) (s : State) (x : Device) (st : RadioState) (tx rx : Option Nat),
    s.device d = some x → x.body = .radio st tx rx →
    (rx = none → exec (.radioRxen d v) s = .next s) ∧
    (∀ f, rx = some f → (∀ c ∈ s.cbCode, c.id ≠ f) →
      exec (.radioRxen d v) s = .next { s with log := s.log ++ [.radioRx] }) ∧
    (∀ f pre post, rx = some f → s.cbCode = pre ++ { id := f, runs := [] } :: post → (∀ c ∈ pre, c.id ≠ f) →
      exec (.radioRxen d v) s = .next { s with log := s.log ++ [.radioRx] }) ∧
    (∀ f pre run runs post, rx = some f → s.cbCode = pre ++ { id := f, runs := run :: runs } :: post →
      (∀ c ∈ pre ++ post, c.id ≠ f) →
      exec (.radioRxen d v) s = .next (runCalls run
        { s with log := s.log ++ [.radioRx], cbCode := pre ++ { id := f, runs := runs } :: post }))

/-- R231: the calls of a callback run in order and each follows its own rule: a session call is the meaning of its
operation, a raw write stores the bytes and a raw read hands them back (R13, R62), and `read state` hands back a register,
memory, a register of a RegisterFile or the log (R270); a tick between two calls is TIMER.TICK (R72, R227, log 17). After a
call that raises a fatal error, none follows. The same raw accesses and readings come as arrivals. The model's readings:
which calls there are (log 20), that a raw access outside MAPPED is a SubstrateAccessFault (log 24), and that none follows a
call that does not return (log 19). -/
def Obligations.CallbackCallsFollowTheirRules : Prop :=
  ∀ (s : State),
    runCalls [] s = s ∧
    (∀ c cs, s.fatal = none → s.thread ≠ .hung → runCalls (c :: cs) s = runCalls cs (runCall c s)) ∧
    (∀ cs, (s.fatal ≠ none ∨ s.thread = .hung) → runCalls cs s = s) ∧
    (∀ n, exec (.icRaise n) s = .next (runCall (.raise n) s)) ∧
    (∀ d k f, exec (.radioRegCb d k f) s = .next (runCall (.registerCb d k f) s)) ∧
    (∀ d bs, exec (.radioInject d bs) s = .next (runCall (.injectPacket d bs) s)) ∧
    (∀ d st, exec (.radioSetState d st) s = .next (runCall (.setState d st) s)) ∧
    (∀ d, exec (.timerStart d) s = .next (runCall (.start d) s)) ∧
    (∀ d j, exec (.timerStop d j) s = .next (runCall (.stop d j) s)) ∧
    (∀ d, exec (.timerTick d) s = .next (runCall (.tick d) s)) ∧
    (∀ d a v, exec (.rfSetByAddr d a v) s = .next (runCall (.setByAddress d a v) s)) ∧
    (∀ d nm v, exec (.rfSetByName d nm v) s = .next (runCall (.setByName d nm v) s)) ∧
    runCall .hang s = { s with thread := .hung } ∧
    (∀ a bytes, runArrival (.rawWrite a bytes) s = .next (runCall (.rawWrite a bytes) s) ∧
      (bytes.length ≤ 2 ^ 32 → mappedFrom s.params.mapped a bytes.length →
        ∃ t, runCall (.rawWrite a bytes) s = t ∧ t = { s with mem := t.mem } ∧
          (∀ i, i < bytes.length → bytes[i]? = some (t.mem.read (a + BitVec.ofNat 32 i).toNat)) ∧
          sameOutside s.mem t.mem a bytes.length) ∧
      (s.fatal = none → ∀ i, firstUnmappedAt s.params.mapped a bytes.length i →
        runCall (.rawWrite a bytes) s = { s with fatal := some (.substrateAccessFault (a + BitVec.ofNat 32 i)) })) ∧
    (∀ a n, runArrival (.rawRead a n) s = .next (runCall (.rawRead a n) s) ∧
      (mappedFrom s.params.mapped a n →
        ∃ bytes, bytes.length = n ∧ (∀ i, i < n → bytes[i]? = some (s.mem.read (a + BitVec.ofNat 32 i).toNat)) ∧
          runCall (.rawRead a n) s = { s with ret := .bytes bytes } ∧
          runCall (.read (.mem a n)) s = { s with ret := .bytes bytes }) ∧
      (s.fatal = none → ∀ i, firstUnmappedAt s.params.mapped a n i →
        runCall (.rawRead a n) s = { s with fatal := some (.substrateAccessFault (a + BitVec.ofNat 32 i)) })) ∧
    (∀ sel, runArrival (.read sel) s = .next (runCall (.read sel) s)) ∧
    (∀ id, runCall (.read (.reg id)) s = { s with ret := .word (s.cpu.read id) }) ∧
    (∀ d nm r, s.register d nm = some r → runCall (.read (.devReg d nm)) s = { s with ret := .reg r }) ∧
    runCall (.read .log) s = { s with ret := .log s.log }

/-- R221: `injectPacket` with a null PACKETPTR logs the warning and writes nothing; an unmapped byte is a
SubstrateAccessFault; else the bytes are written at PACKETPTR's target and nothing else changes. -/
def Obligations.InjectWritesPacket : Prop :=
  ∀ (d : Ident) (bytes : List Byte) (s : State) (x : Device) (r : Reg), s.device d = some x → x.body.kind = .radio →
    byName x.regs nmPacketptr = some r →
    (r.value = 0 → exec (.radioInject d bytes) s = .next { s with log := s.log ++ [.nullPacketPtr .injectPacket] }) ∧
    (r.value ≠ 0 → s.fatal = none → ∀ i, firstUnmappedAt s.params.mapped r.value bytes.length i →
      exec (.radioInject d bytes) s = .next { s with fatal := some (.substrateAccessFault (r.value + BitVec.ofNat 32 i)) }) ∧
    (r.value ≠ 0 → bytes.length ≤ 2 ^ 32 → mappedFrom s.params.mapped r.value bytes.length →
      ∃ t, exec (.radioInject d bytes) s = .next t ∧ t = { s with mem := t.mem } ∧
        (∀ i, i < bytes.length → bytes[i]? = some (t.mem.read (r.value + BitVec.ofNat 32 i).toNat)) ∧
        sameOutside s.mem t.mem r.value bytes.length)

/-- R222, R109: `setState` sets the logical state and writes its code into STATE; no other register, device field, device
or memory changes. -/
def Obligations.SetStateMirrorsCode : Prop :=
  ∀ (d : Ident) (st st0 : RadioState) (tx rx : Option Nat) (s : State) (x : Device) (r : Reg), s.device d = some x →
    x.body = .radio st0 tx rx → byName x.regs nmState = some r →
    ∃ t y code, exec (.radioSetState d st) s = .next t ∧ t = { s with devices := t.devices } ∧ sameOtherDevices s t d ∧
      t.device d = some y ∧ y.body = .radio st tx rx ∧ byName y.regs nmState = some { r with value := code } ∧
      (st, code.toNat) ∈ [(RadioState.disabled, 0), (.rxRampUp, 1), (.rxIdle, 2), (.rx, 3), (.rxDisabled, 4),
        (.txRampUp, 9), (.txIdle, 10), (.tx, 11), (.txDisabled, 12)] ∧
      ∀ nm, nm ≠ nmState → byName y.regs nm = byName x.regs nm

/-- R223: a registration replaces the callback of its own kind and nothing else. -/
def Obligations.RegistrationReplacesOneCallback : Prop :=
  ∀ (d : Ident) (f : Nat) (st : RadioState) (tx rx : Option Nat) (s : State) (x : Device), s.device d = some x →
    x.body = .radio st tx rx →
    (∃ t, exec (.radioRegCb d .tx f) s = .next t ∧ t = { s with devices := t.devices } ∧ sameOtherDevices s t d ∧
      t.device d = some { x with body := .radio st (some f) rx }) ∧
    (∃ t, exec (.radioRegCb d .rx f) s = .next t ∧ t = { s with devices := t.devices } ∧ sameOtherDevices s t d ∧
      t.device d = some { x with body := .radio st tx (some f) })

/-- R225, R226: `start` makes the timer run and keeps its counter; `stop` on a running timer either ends the tick agent,
counter kept, or raises TickJoinFailure, as the environment draws (the draw is an operand in the model, log 16); on a
stopped timer it does nothing. -/
def Obligations.TimerStartAndStop : Prop :=
  ∀ (d : Ident) (c : Nat) (run : Bool) (s : State) (x : Device), s.device d = some x → x.body = .timer c run →
    (∃ t, exec (.timerStart d) s = .next t ∧ t = { s with devices := t.devices } ∧ sameOtherDevices s t d ∧
      t.device d = some { x with body := .timer c true }) ∧
    (run = true → ∃ t, exec (.timerStop d true) s = .next t ∧ t = { s with devices := t.devices } ∧
      sameOtherDevices s t d ∧ t.device d = some { x with body := .timer c false }) ∧
    (run = true → s.fatal = none → exec (.timerStop d false) s = .next { s with fatal := some (.tickJoinFailure d) }) ∧
    (run = false → ∀ joins, exec (.timerStop d joins) s = .next s)

/-- R227: a tick adds 1 to the counter of a running timer and does nothing else; a timer that does not run has no tick. -/
def Obligations.TickIncrementsRunningCounter : Prop :=
  ∀ (d : Ident) (c : Nat) (s : State) (x : Device), s.device d = some x →
    (x.body = .timer c true → ∃ t, exec (.timerTick d) s = .next t ∧ t = { s with devices := t.devices } ∧
      sameOtherDevices s t d ∧ t.device d = some { x with body := .timer (c + 1) true }) ∧
    (x.body = .timer c false → exec (.timerTick d) s = .next s)

/-- R228: a capture stores counter × 1 000 000 modulo 2^32 in CC[k], running or not, and changes no other register. -/
def Obligations.CaptureStoresScaledCounter : Prop :=
  ∀ (d : Ident) (k c : Nat) (run : Bool) (s : State) (x : Device) (r : Reg), k < 6 → s.device d = some x →
    x.body = .timer c run → byName x.regs (nmCc k) = some r →
    ∃ t y w, exec (.timerCapture d k) s = .next t ∧ t = { s with devices := t.devices } ∧ sameOtherDevices s t d ∧
      t.device d = some y ∧ y.body = x.body ∧ byName y.regs (nmCc k) = some { r with value := w } ∧
      w.toNat = c * 1000000 % 2 ^ 32 ∧ ∀ nm, nm ≠ nmCc k → byName y.regs nm = byName x.regs nm

/-- The model's reading of R107 (log 4): an arrival that matches no row has no effect, be it a device operation on an
instance that does not exist or is of another variant, a bit test or bit range of a register that does not exist, a capture
slot past 5, or a packet that decodes to no arrival (which is only taken). -/
def Obligations.ArrivalMatchingNoRowHasNoEffect : Prop :=
  ∀ (d nm : Ident) (a v : Word) (n m k : Nat) (bs : List Byte) (st : RadioState) (ck : CbKind) (j : Bool) (s : State),
    (s.device d = none →
      exec (.rfByName d nm) s = .next s ∧ exec (.rfByAddr d a) s = .next s ∧ exec (.rfSetByAddr d a n) s = .next s ∧
      exec (.rfSetByName d nm n) s = .next s ∧ exec (.rfBit d nm n) s = .next s ∧ exec (.rfBitRange d nm n m) s = .next s ∧
      exec (.devIdentify d) s = .next s ∧ exec (.devRead d a) s = .next s ∧ exec (.devWrite d a v) s = .next s ∧
      exec (.radioRegCb d ck n) s = .next s ∧ exec (.timerStart d) s = .next s) ∧
    (s.isKind d .clock = false → exec (.clockHfclkstart d v) s = .next s) ∧
    (s.isKind d .gpio = false → exec (.gpioOutset d v) s = .next s ∧ exec (.gpioOutclr d v) s = .next s) ∧
    (s.isKind d .radio = false → exec (.radioTxen d v) s = .next s ∧ exec (.radioRxen d v) s = .next s ∧
      exec (.radioInject d bs) s = .next s ∧ exec (.radioSetState d st) s = .next s ∧
      exec (.radioRegCb d ck n) s = .next s) ∧
    (s.isKind d .timer = false → exec (.timerStart d) s = .next s ∧ exec (.timerStop d j) s = .next s ∧
      exec (.timerTick d) s = .next s ∧ exec (.timerCapture d k) s = .next s) ∧
    (s.register d nm = none → exec (.rfBit d nm n) s = .next s ∧ exec (.rfBitRange d nm n m) s = .next s) ∧
    (6 ≤ k → exec (.timerCapture d k) s = .next s) ∧
    (∀ p rest e, s.fatal = none → s.arrivals = p :: rest → decodeArrival p = .bad e →
      step s = .next { s with arrivals := rest, ret := .none })

/-! ### Session -/

/-- R280, R286, R285: a session that starts without an error. Every piece of state is set again, none of it from the
session before: the vector table is the image's, MSP and PC are its first two words, CONTROL and IPSR are 0, the queue, the
active-frame stack and the log are empty, every device is there with its registers at 0, a Radio Disabled without callbacks
and a Timer stopped at 0; the registers of R283, memory and MAPPED are what the substrate holds at launch, and HW_DB and
SUBSTRATE_IRQ_MAP are the session's (R9, R263). That these and the launch draw, whose later blocks of bytes lie over earlier
ones, are operands is the model's (log 26), that a byte the draw does not give is 0 too (log 11), and `thread`, `named` and
`cbCode` are its own fields (log 14, 27, 18). -/
def Obligations.SessionStartSetsResetTable : Prop :=
  ∀ (image : List Byte) (devs : List DevSpec) (db : List HwEntry) (im : List (Nat × Nat)) (l : Launch) (s : State), s.fatal = none →
    72 ≤ image.length → (devs.map (·.id)).Nodup →
    (∀ d ∈ devs, (d.regs.map (·.1)).Nodup ∧ (d.regs.map (·.2)).Nodup) →
    ∃ t p, exec (.vtParse image) s = .next p ∧ exec (.sessionStart image devs { hwDb := db, irqMap := im, launch := l }) s = .next t ∧
      t = { s with
        vt := p.vt, pend := [], afs := [], fatal := none, log := [], thread := .ready, named := [], cbCode := []
        params := { s.params with hwDb := db, mapped := l.mapped, irqMap := im }
        mem := t.mem
        devices := devs.map fun d =>
          { id := d.id
            body := match d.kind with
              | .clock => .clock
              | .gpio => .gpio
              | .rtc => .rtc
              | .radio => .radio .disabled none none
              | .timer => .timer 0 false
            regs := d.regs.map fun r => { name := r.1, addr := r.2, value := 0 } }
        cpu := { r0 := l.r0, r1 := l.r1, r2 := l.r2, r3 := l.r3, r12 := l.r12, lr := l.lr, pc := p.vt.entry 1,
                 xpsr := t.cpu.xpsr, msp := p.vt.entry 0, psp := l.psp, control := 0, fp := t.cpu.fp } } ∧
      (∀ i, t.cpu.xpsr.getLsbD i = if i < 9 then false else l.xpsr.getLsbD i) ∧
      (∀ k : Fin 16, t.cpu.fp.s k = l.fp.getD k.val 0) ∧ t.cpu.fp.fpscr = l.fp.getD 16 0 ∧
      (∀ pre b post, l.mem = pre ++ b :: post → b.2.length ≤ 2 ^ 32 → ∀ i, i < b.2.length →
        (∀ c ∈ post, outside c.1 c.2.length (b.1 + BitVec.ofNat 32 i).toNat) →
        b.2[i]? = some (t.mem.read (b.1 + BitVec.ofNat 32 i).toNat)) ∧
      (∀ x, (∀ b ∈ l.mem, outside b.1 b.2.length x) → t.mem.read x = 0)

/-- R280 steps 1 to 3: a short image, then a repeated identifier, then a repeated register of a device, ends the start with
its fatal error. Of a device's registers a repeated name is reported before a repeated address (R191, R257). That the
device is the first in the model's list with a repeat is the model's choice, and so is which of several repeated names,
addresses or identifiers is reported (log 31). No register, memory, queue or log changes. -/
def Obligations.SessionStartRejectsBadConfiguration : Prop :=
  ∀ (image : List Byte) (devs : List DevSpec) (db : List HwEntry) (im : List (Nat × Nat)) (l : Launch) (s : State), s.fatal = none →
    (image.length < 72 →
      exec (.sessionStart image devs { hwDb := db, irqMap := im, launch := l }) s = .next { s with fatal := some (.imageTooShort image.length) }) ∧
    (72 ≤ image.length → ¬ (devs.map (·.id)).Nodup →
      ∃ t id, List.Duplicate id (devs.map (·.id)) ∧ exec (.sessionStart image devs { hwDb := db, irqMap := im, launch := l }) s = .next t ∧
        t = { s with vt := t.vt, fatal := some (.duplicateRegister id .identify) }) ∧
    (72 ≤ image.length → (devs.map (·.id)).Nodup → ∀ pre d post, devs = pre ++ d :: post →
      (∀ e ∈ pre, (e.regs.map (·.1)).Nodup ∧ (e.regs.map (·.2)).Nodup) →
      (¬ (d.regs.map (·.1)).Nodup →
        ∃ t nm, List.Duplicate nm (d.regs.map (·.1)) ∧ exec (.sessionStart image devs { hwDb := db, irqMap := im, launch := l }) s = .next t ∧
          t = { s with vt := t.vt, devices := t.devices, named := t.named, params := t.params,
                       fatal := some (.duplicateRegister d.id (.name nm)) }) ∧
      ((d.regs.map (·.1)).Nodup → ¬ (d.regs.map (·.2)).Nodup →
        ∃ t ad, List.Duplicate ad (d.regs.map (·.2)) ∧ exec (.sessionStart image devs { hwDb := db, irqMap := im, launch := l }) s = .next t ∧
          t = { s with vt := t.vt, devices := t.devices, named := t.named, params := t.params,
                       fatal := some (.duplicateRegister d.id (.address ad)) }))

/-- R289, R288: at the deadline the substrate is halted and every Timer is stopped, its counter kept. A Timer whose tick
agent does not exit is a TickJoinFailure, the first one kept; that teardown goes on past it is the model's reading
(log 15). Nothing but the devices' `running`, the thread and `fatal` changes. -/
def Obligations.DeadlineHaltsAndStopsEveryTimer : Prop :=
  ∀ (orphans : List Ident) (s : State), s.fatal = none → (s.devices.map (·.id)).Nodup →
    ∃ t, exec (.sessionDeadline orphans) s = .next t ∧
      t = { s with thread := .halted, devices := t.devices, fatal := t.fatal } ∧
      t.devices = s.devices.map (fun x =>
        { x with body := match x.body with
          | .timer c run => .timer c (run && decide (x.id ∈ orphans))
          | b => b }) ∧
      ((∀ x ∈ s.devices, x.body.isRunning = true → x.id ∉ orphans) → t.fatal = none) ∧
      (∀ pre x post, s.devices = pre ++ x :: post → x.body.isRunning = true → x.id ∈ orphans →
        (∀ y ∈ pre, y.body.isRunning = true → y.id ∉ orphans) → t.fatal = some (.tickJoinFailure x.id))

/-! ### Steps and the whole machine -/

/-- R107, R72: when the first packet decodes to an operation that can come in the state (`State.admits`), a step is `exec`
of that operation, as one atomic step, with the packet taken and the handed-back value cleared; one that cannot come has
its named stop: after a fatal error (R251), without a session or after its end (R289, R290), what builds a session up
while one is under way (R271, R288), a hook before the run call (R262, R280), and anything but a tick while a callback
hangs (R231). The run call lets the substrate run (R280 step 7). The arrivals and the thread's states are the model's
(log 1, log 14). -/
def Obligations.StepRunsTheDecodedInstruction : Prop :=
  ∀ (s : State) (p : List Byte) (rest : List (List Byte)), s.arrivals = p :: rest →
    (∀ i, decode p = .ok i → i.wellFormed = true ∧
      (s.admits i → step s = exec i { s with arrivals := rest, ret := .none }) ∧
      (¬ s.admits i →
        (∀ f, s.fatal = some f → step s = .fault (.sessionAborted f)) ∧
        (s.fatal = none → s.thread = .halted → step s = .fault .threadHalted) ∧
        (s.fatal = none → (s.thread = .ready ∨ s.thread = .running) → isBuilding i → step s = .fault .sessionUnderWay) ∧
        (s.fatal = none → s.thread = .ready → isHook i → step s = .fault .notRunning) ∧
        (s.fatal = none → s.thread = .hung → step s = .fault .callbackHung))) ∧
    (∀ budget, decodeArrival p = .ok (.run budget) → s.fatal = none → s.thread = .ready →
      step s = .next { s with arrivals := rest, ret := .none, thread := .running })

/-- R251, with R290 for teardown and its `stop()` calls and R270 for the host's reading of state, at which the block does
nothing (log 12): once a fatal error is present no agent takes another step. A `stop()` call and a teardown keep the error,
every register, memory and the log; a teardown halts the thread and ends every tick agent but the orphans'. -/
def Obligations.NoStepAfterFatalErrorButTeardown : Prop :=
  ∀ (s : State) (f : Fatal), s.fatal = some f →
    (s.arrivals = [] → step s = .fault (.sessionAborted f)) ∧
    ∀ p rest, s.arrivals = p :: rest →
      (∀ d j, decodeArrival p = .ok (.op (.timerStop d j)) →
        ∃ t, step s = .next t ∧ t = { s with arrivals := rest, ret := .none, devices := t.devices } ∧
          (∀ e, (t.device e).map (·.regs) = (s.device e).map (·.regs))) ∧
      (∀ orphans, decodeArrival p = .ok (.teardown orphans) → (s.devices.map (·.id)).Nodup →
        step s = .next { s with
          arrivals := rest, ret := .none, thread := .halted
          devices := s.devices.map fun x =>
            { x with body := match x.body with
              | .timer c run => .timer c (run && decide (x.id ∈ orphans))
              | b => b } }) ∧
      (∀ sel, decodeArrival p = .ok (.read sel) → ∃ v, step s = .next { s with arrivals := rest, ret := v }) ∧
      ((∀ d j, decodeArrival p ≠ .ok (.op (.timerStop d j))) → (∀ orphans, decodeArrival p ≠ .ok (.teardown orphans)) →
        (∀ sel, decodeArrival p ≠ .ok (.read sel)) → step s = .fault (.sessionAborted f))

/-- R37, D42: no operation clears or replaces a fatal error that is present. R38: the log is append-only within a
session. -/
def Obligations.FatalErrorStaysAndLogOnlyGrows : Prop :=
  ∀ (i : Instr) (s t : State), exec i s = .next t →
    (∀ f, s.fatal = some f → t.fatal = some f) ∧
    ((∀ im ds pl, i ≠ .sessionStart im ds pl) → s.log <+: t.log)

/-- R263: the hardware-interrupt hook raises the number SUBSTRATE_IRQ_MAP gives, and does nothing where it gives none. The
map is the model's list of pairs, the first of a number answering (log 7); the event is an arrival of the model
(log 25). -/
def Obligations.HardwareInterruptHookRaises : Prop :=
  ∀ (s : State) (p : List Byte) (rest : List (List Byte)) (k : Nat), s.live → s.arrivals = p :: rest →
    decodeArrival p = .ok (.hwIrq k) →
    ((∀ e ∈ s.params.irqMap, e.1 ≠ k) → step s = .next { s with arrivals := rest, ret := .none }) ∧
    (∀ pre n post, s.params.irqMap = pre ++ (k, n) :: post → (∀ e ∈ pre, e.1 ≠ k) →
      step s = exec (.icRaise n) { s with arrivals := rest, ret := .none })

/-- R25: writing IPSR changes only xPSR[8:0] and no other register, and IPSR reads as xPSR[8:0]. -/
def Obligations.IpsrIsAFieldOfXpsr : Prop :=
  ∀ (c : Cpu) (v : Word),
    c.write .ipsr v = { c with xpsr := (c.write .ipsr v).xpsr } ∧
    (∀ i, (c.write .ipsr v).xpsr.getLsbD i = if i < 9 then v.getLsbD i else c.xpsr.getLsbD i) ∧
    (∀ i, (c.read .ipsr).getLsbD i = (decide (i < 9) && c.xpsr.getLsbD i))

/-- Decoding an encoded well-formed operation gives it back, for every operation of the table (the packet format is the
model's, log 2). -/
def Obligations.DecodeInvertsEncodeForEveryOperation : Prop :=
  ∀ (i : Instr), i.wellFormed = true → decode (encode i) = .ok i ∧ decodeArrival (encode i) = .ok (.op i)

/-- A few words of the table and packets written out: the operations they stand for (log 2, log 3). -/
def Obligations.WrittenOutPacketsDecode : Prop :=
  decode [1, 17, 0, 0, 0, 0, 0, 0, 0] = .ok (.icRaise 17) ∧
  decode [6, 0xF8, 0xFF, 0xFF, 0xFF] = .ok (.icBlockEntry 0xFFFFFFF8#32) ∧
  decode [13, 0x08, 0x05, 0x00, 0x50, 4, 0, 0, 0, 0, 0, 0, 0, 5, 0, 0, 0] = .ok (.mmioWrite 0x50000508#32 4 5#32) ∧
  decodeTableWord 32 0xFFFFFF00 = some .icReturn ∧
  decodeTableWord 32 0xFFFFFFE9 = some (.icDecode 0xFFFFFFE9#32) ∧
  decodeTableWord 32 0x302 = some (.icNonmatch 0x302#32)

/-- The invariant of `Sys2Proof.Machine.State.inv` is kept by every step: memory stays canonical, one instance for an
identifier (R211), names and addresses unique in every RegisterFile (R103, R190), every device of a session built and with
the registers its variant's rules name (R39, R111, R280 step 3; log 27), every active-frame record one that `enter` writes (R36, R92), and no tick agent left once a run has ended
without a fatal error (R288, log 14). -/
def Obligations.EveryStepKeepsTheInvariant : Prop :=
  ∀ (s t : State), s.inv = true → step s = .next t → t.inv = true

/-- The invariant holds right after reset. -/
def Obligations.ResetMeetsTheInvariant : Prop := State.reset.inv = true

/-- R286, the rows whose value the spec gives, at `State.reset`: MSP = VT[0], PC = VT[1], CONTROL = 0, IPSR = 0, `pend`,
`afs` and `log` empty, `fatal` none. The vector table and the parameters of `State.reset` are the model's (log 7, 10). -/
def Obligations.ResetMeetsTheResetTable : Prop :=
  State.reset.cpu.msp = State.reset.vt.entry 0 ∧ State.reset.cpu.pc = State.reset.vt.entry 1 ∧
    State.reset.cpu.control = 0 ∧ State.reset.cpu.read .ipsr = 0 ∧ State.reset.pend = [] ∧ State.reset.afs = [] ∧
    State.reset.fatal = none ∧ State.reset.log = []
end

