-- ==== Sys2Proof/Laws/Memory.lean ====
section
/-! SUPPORT. Laws of emulated memory: what a read gives after a write, and that every write keeps the canonical form. -/

namespace Sys2Proof.Machine

/-! ### One byte -/

theorem Memory.read_erase (m : Memory) (a b : Nat) :
    (m.erase a).read b = if b = a then unlistedByte else m.read b := by
  induction m with
  | nil => simp [Memory.erase, Memory.read]
  | cons p t ih =>
    obtain ⟨k, v⟩ := p
    by_cases hka : k = a
    · by_cases hb : b = a
      · simp_all [Memory.erase]
      · have : ¬ a = b := fun h => hb h.symm
        simp_all [Memory.erase, Memory.read]
    · by_cases hb : b = a
      · simp_all [Memory.erase, Memory.read]
      · by_cases hk : k = b <;> simp_all [Memory.erase, Memory.read]

theorem Memory.read_insert (m : Memory) (a : Nat) (x : Byte) (h : ∀ p ∈ m, p.1 ≠ a) (b : Nat) :
    (m.insert a x).read b = if b = a then x else m.read b := by
  induction m with
  | nil =>
    by_cases hb : b = a
    · simp [Memory.insert, Memory.read, hb]
    · have : ¬ a = b := fun h => hb h.symm
      simp [Memory.insert, Memory.read, hb, this]
  | cons p t ih =>
    obtain ⟨k, v⟩ := p
    have hk : k ≠ a := h (k, v) (by simp)
    have ht : ∀ p ∈ t, p.1 ≠ a := fun p hp => h p (by simp [hp])
    unfold Memory.insert
    split
    · by_cases hb : b = a
      · simp [Memory.read, hb]
      · have : ¬ a = b := fun h => hb h.symm
        simp [Memory.read, hb, this]
    · by_cases hkb : k = b
      · have hb : b ≠ a := hkb ▸ hk
        simp [Memory.read, hkb, hb]
      · simp [Memory.read, hkb, ih ht]

theorem Memory.erase_keys (m : Memory) (a : Nat) : ∀ p ∈ m.erase a, p.1 ≠ a := by
  induction m with
  | nil => simp [Memory.erase]
  | cons p t ih =>
    obtain ⟨k, v⟩ := p
    by_cases hka : k = a
    · simpa [Memory.erase, hka] using ih
    · simp only [Memory.erase, hka, if_false, List.mem_cons]
      rintro q (rfl | hq)
      · exact hka
      · exact ih q hq

/-- A byte reads as written, and every other byte as before. -/
@[simp] theorem Memory.read_write (m : Memory) (a : Nat) (x : Byte) (b : Nat) :
    (m.write a x).read b = if b = a then x else m.read b := by
  unfold Memory.write
  split
  · next h => rw [Memory.read_erase, h]
  · rw [Memory.read_insert _ _ _ (Memory.erase_keys m a), Memory.read_erase]
    split <;> rfl

/-! ### The canonical form -/

theorem Memory.wfFrom_mono {lo lo' : Nat} (h : lo ≤ lo') (m : Memory) (hm : Memory.wfFrom lo' m = true) :
    Memory.wfFrom lo m = true := by
  cases m with
  | nil => rfl
  | cons p t =>
    obtain ⟨k, v⟩ := p
    simp only [Memory.wfFrom, Bool.and_eq_true, decide_eq_true_eq] at hm ⊢
    exact ⟨⟨⟨by omega, hm.1.1.2⟩, hm.1.2⟩, hm.2⟩

theorem Memory.wfFrom_erase (m : Memory) (a : Nat) : ∀ lo, Memory.wfFrom lo m = true → Memory.wfFrom lo (m.erase a) = true := by
  induction m with
  | nil => intro lo _; rfl
  | cons p t ih =>
    obtain ⟨k, v⟩ := p
    intro lo hm
    simp only [Memory.wfFrom, Bool.and_eq_true, decide_eq_true_eq] at hm
    by_cases hka : k = a
    · simp only [Memory.erase, hka, if_true]
      exact ih lo (Memory.wfFrom_mono (by omega) t hm.2)
    · simp only [Memory.erase, hka, if_false, Memory.wfFrom, Bool.and_eq_true, decide_eq_true_eq]
      exact ⟨hm.1, ih _ hm.2⟩

theorem Memory.wfFrom_insert (a : Nat) (x : Byte) (ha : a < 2 ^ 32) (hx : x ≠ unlistedByte) (m : Memory)
    (hk : ∀ p ∈ m, p.1 ≠ a) : ∀ lo, lo ≤ a → Memory.wfFrom lo m = true → Memory.wfFrom lo (m.insert a x) = true := by
  induction m with
  | nil =>
    intro lo hlo _
    simp only [Memory.insert, Memory.wfFrom, Bool.and_eq_true, decide_eq_true_eq]
    exact ⟨⟨⟨hlo, ha⟩, hx⟩, trivial⟩
  | cons p t ih =>
    obtain ⟨k, v⟩ := p
    intro lo hlo hm
    have hka : k ≠ a := hk (k, v) (by simp)
    have ht : ∀ p ∈ t, p.1 ≠ a := fun p hp => hk p (by simp [hp])
    simp only [Memory.wfFrom, Bool.and_eq_true, decide_eq_true_eq] at hm
    unfold Memory.insert
    split
    · simp only [Memory.wfFrom, Bool.and_eq_true, decide_eq_true_eq]
      exact ⟨⟨⟨hlo, ha⟩, hx⟩, ⟨⟨by omega, hm.1.1.2⟩, hm.1.2⟩, hm.2⟩
    · simp only [Memory.wfFrom, Bool.and_eq_true, decide_eq_true_eq]
      exact ⟨hm.1, ih ht (k + 1) (by omega) hm.2⟩

/-- A byte below every listed address reads as an unlisted one. -/
theorem Memory.read_below (m : Memory) : ∀ lo a, Memory.wfFrom lo m = true → a < lo → m.read a = unlistedByte := by
  induction m with
  | nil => intro _ _ _ _; rfl
  | cons p t ih =>
    obtain ⟨k, v⟩ := p
    intro lo a h ha
    simp only [Memory.wfFrom, Bool.and_eq_true, decide_eq_true_eq] at h
    rw [Memory.read, if_neg (by omega)]
    exact ih (k + 1) a h.2 (by omega)

/-- The form is canonical: memories in it that read the same are the same list. -/
theorem Memory.eq_of_read (m : Memory) :
    ∀ (m' : Memory) lo lo', Memory.wfFrom lo m = true → Memory.wfFrom lo' m' = true → (∀ a, m.read a = m'.read a) → m = m' := by
  induction m with
  | nil =>
    intro m' lo lo' _ h' hr
    cases m' with
    | nil => rfl
    | cons p t =>
      obtain ⟨k, v⟩ := p
      simp only [Memory.wfFrom, Bool.and_eq_true, decide_eq_true_eq] at h'
      exact absurd (by simpa [Memory.read] using (hr k).symm) h'.1.2
  | cons p t ih =>
    obtain ⟨k, v⟩ := p
    intro m' lo lo' h h' hr
    simp only [Memory.wfFrom, Bool.and_eq_true, decide_eq_true_eq] at h
    cases m' with
    | nil => exact absurd (by simpa [Memory.read] using hr k) h.1.2
    | cons p' t' =>
      obtain ⟨k', v'⟩ := p'
      simp only [Memory.wfFrom, Bool.and_eq_true, decide_eq_true_eq] at h'
      rcases Nat.lt_trichotomy k k' with hk | hk | hk
      · have hb := hr k
        rw [Memory.read, if_pos rfl, Memory.read, if_neg (by omega), Memory.read_below t' (k' + 1) k h'.2 (by omega)] at hb
        exact absurd hb h.1.2
      · subst hk
        have hv : v = v' := by simpa [Memory.read] using hr k
        subst hv
        rw [ih t' _ _ h.2 h'.2 fun a => ?_]
        rcases Nat.lt_or_ge k a with ha | ha
        · have := hr a
          rwa [Memory.read, if_neg (by omega), Memory.read, if_neg (by omega)] at this
        · rw [Memory.read_below t (k + 1) a h.2 (by omega), Memory.read_below t' (k + 1) a h'.2 (by omega)]
      · have hb := hr k'
        rw [Memory.read, if_neg (by omega), Memory.read_below t (k + 1) k' h.2 (by omega), Memory.read, if_pos rfl] at hb
        exact absurd hb.symm h'.1.2

/-- Writing one byte keeps the canonical form. -/
theorem Memory.wf_write (m : Memory) (a : Nat) (x : Byte) (ha : a < 2 ^ 32) (h : m.wf = true) : (m.write a x).wf = true := by
  unfold Memory.write Memory.wf
  split
  · exact Memory.wfFrom_erase m a 0 h
  · next hx => exact Memory.wfFrom_insert a x ha hx _ (Memory.erase_keys m a) 0 (Nat.zero_le _) (Memory.wfFrom_erase m a 0 h)

/-- Writing bytes keeps the canonical form. -/
theorem Memory.wf_writeBytes (bs : List Byte) : ∀ (m : Memory) (a : Word), m.wf = true → (m.writeBytes a bs).wf = true := by
  induction bs with
  | nil => intro m a h; exact h
  | cons b bs ih => intro m a h; exact ih _ _ (Memory.wf_write m _ b a.isLt h)

theorem Memory.wf_memWrite (m : Memory) (a : Word) (n : Nat) (v : Word) (h : m.wf = true) : (m.memWrite a n v).wf = true :=
  Memory.wf_writeBytes _ m a h

theorem Memory.wf_pushWords (ws : List Word) : ∀ (m : Memory) (a : Word), m.wf = true → (m.pushWords a ws).wf = true := by
  induction ws with
  | nil => intro m a h; exact h
  | cons w ws ih => intro m a h; exact Memory.wf_memWrite _ _ _ _ (ih m (a + 4) h)

/-! ### Several bytes -/

@[simp] theorem leBytes_length (n v : Nat) : (leBytes n v).length = n := by
  induction n generalizing v with
  | zero => rfl
  | succ n ih => simp [leBytes, ih]

@[simp] theorem leValue_leBytes (n v : Nat) : leValue (leBytes n v) = v % 256 ^ n := by
  induction n generalizing v with
  | zero => simp [leBytes, leValue, Nat.mod_one]
  | succ n ih =>
    rw [leBytes, leValue, ih, BitVec.toNat_ofNat, Nat.pow_succ 256 n, Nat.mul_comm (256 ^ n), Nat.mod_mul]

theorem outside_zero (a : Word) (x : Nat) : outside a 0 x := fun _ h => absurd h (Nat.not_lt_zero _)

theorem Word.add_one_add (a : Word) (i : Nat) : a + 1 + BitVec.ofNat 32 i = a + BitVec.ofNat 32 (i + 1) := by
  rw [BitVec.add_assoc]; congr 1; apply BitVec.eq_of_toNat_eq; simp [Nat.add_comm]

theorem outside_succ {a : Word} {n : Nat} {x : Nat} (h : outside a (n + 1) x) : x ≠ a.toNat ∧ outside (a + 1) n x := by
  refine ⟨by simpa using h 0 (Nat.succ_pos n), fun i hi => ?_⟩
  rw [Word.add_one_add]; exact h (i + 1) (Nat.succ_lt_succ hi)

/-- A byte outside the bytes written reads as before. -/
theorem Memory.read_writeBytes_outside (bs : List Byte) :
    ∀ (m : Memory) (a : Word) (x : Nat), outside a bs.length x → (m.writeBytes a bs).read x = m.read x := by
  induction bs with
  | nil => intro m a x _; rfl
  | cons b bs ih =>
    intro m a x h
    obtain ⟨h0, h1⟩ := outside_succ (n := bs.length) h
    rw [Memory.writeBytes, ih _ _ _ h1, Memory.read_write, if_neg h0]

theorem Memory.read_memWrite_outside (m : Memory) (a : Word) (n : Nat) (v : Word) (x : Nat) (h : outside a n x) :
    (m.memWrite a n v).read x = m.read x :=
  Memory.read_writeBytes_outside _ m a x (by simpa using h)

/-- Two offsets below 2^32 from one address give different addresses. -/
theorem Word.offset_ne (a : Word) {i j : Nat} (hi : i < 2 ^ 32) (hj : j < 2 ^ 32) (h : i ≠ j) :
    (a + BitVec.ofNat 32 i).toNat ≠ (a + BitVec.ofNat 32 j).toNat := by
  simp only [BitVec.toNat_add, BitVec.toNat_ofNat]
  have := a.isLt
  omega

/-- The i-th byte written reads as the i-th of the list. -/
theorem Memory.read_writeBytes_at (bs : List Byte) :
    ∀ (m : Memory) (a : Word) (i : Nat) (h : i < bs.length), bs.length ≤ 2 ^ 32 →
      (m.writeBytes a bs).read (a + BitVec.ofNat 32 i).toNat = bs[i] := by
  induction bs with
  | nil => intro m a i h; exact absurd h (Nat.not_lt_zero _)
  | cons b bs ih =>
    intro m a i h hl
    simp only [List.length_cons] at h hl
    cases i with
    | zero =>
      rw [Memory.writeBytes, Memory.read_writeBytes_outside]
      · simp
      · intro j hj
        have := Word.offset_ne a (i := 0) (j := j + 1) (by omega) (by omega) (by omega)
        rw [Word.add_one_add]; exact this
    | succ i =>
      rw [Memory.writeBytes, ← Word.add_one_add, ih _ _ i (by omega) (by omega)]
      simp

theorem Memory.readBytes_length (m : Memory) (n : Nat) : ∀ a, (m.readBytes a n).length = n := by
  induction n with
  | zero => intro a; rfl
  | succ n ih => intro a; simp [Memory.readBytes, ih]

theorem Memory.getElem_readBytes (m : Memory) (n : Nat) :
    ∀ (a : Word) (i : Nat) (h : i < (m.readBytes a n).length), (m.readBytes a n)[i] = m.read (a + BitVec.ofNat 32 i).toNat := by
  induction n with
  | zero => intro a i h; simp [Memory.readBytes] at h
  | succ n ih =>
    intro a i h
    cases i with
    | zero => simp [Memory.readBytes]
    | succ i => simp only [Memory.readBytes, List.getElem_cons_succ, ih, Word.add_one_add]

/-- Reading the bytes just written gives them back. -/
theorem Memory.readBytes_writeBytes (m : Memory) (a : Word) (bs : List Byte) (h : bs.length ≤ 2 ^ 32) :
    (m.writeBytes a bs).readBytes a bs.length = bs := by
  apply List.ext_getElem (Memory.readBytes_length _ _ _)
  intro i h1 h2
  rw [Memory.getElem_readBytes, Memory.read_writeBytes_at bs m a i h2 h]

/-- Bytes read are the same in memories that agree on them. -/
theorem Memory.readBytes_congr (m m' : Memory) (n : Nat) :
    ∀ a : Word, (∀ i, i < n → m.read (a + BitVec.ofNat 32 i).toNat = m'.read (a + BitVec.ofNat 32 i).toNat) →
      m.readBytes a n = m'.readBytes a n := by
  induction n with
  | zero => intro a _; rfl
  | succ n ih =>
    intro a h
    have h0 := h 0 (Nat.succ_pos n)
    simp only [Memory.readBytes]
    rw [ih (a + 1) fun i hi => by rw [Word.add_one_add]; exact h (i + 1) (Nat.succ_lt_succ hi)]
    simpa using h0

theorem Memory.memRead_congr (m m' : Memory) (a : Word) (n : Nat)
    (h : ∀ i, i < n → m.read (a + BitVec.ofNat 32 i).toNat = m'.read (a + BitVec.ofNat 32 i).toNat) :
    m.memRead a n = m'.memRead a n := by
  unfold Memory.memRead; rw [Memory.readBytes_congr m m' n a h]

/-- An n-byte read of an n-byte write gives the value's n low bytes. -/
theorem Memory.memRead_memWrite (m : Memory) (a : Word) (n : Nat) (v : Word) (hn : n ≤ 4) :
    (m.memWrite a n v).memRead a n = BitVec.ofNat 32 (v.toNat % 2 ^ (8 * n)) := by
  have h := Memory.readBytes_writeBytes m a (leBytes n v.toNat) (by simp; omega)
  rw [leBytes_length] at h
  unfold Memory.memRead Memory.memWrite
  rw [h, leValue_leBytes, show (256 : Nat) = 2 ^ 8 from rfl, ← Nat.pow_mul]

theorem Memory.memRead_memWrite_word (m : Memory) (a v : Word) : (m.memWrite a 4 v).memRead a 4 = v := by
  rw [Memory.memRead_memWrite m a 4 v (by omega)]
  apply BitVec.eq_of_toNat_eq
  simp [Nat.mod_eq_of_lt v.isLt]

/-! ### Words pushed as a frame -/

theorem Word.add_four_add (a : Word) (i : Nat) : a + 4 + BitVec.ofNat 32 i = a + BitVec.ofNat 32 (4 + i) := by
  rw [BitVec.add_assoc]; congr 1; apply BitVec.eq_of_toNat_eq; simp

/-- A byte outside the words pushed reads as before. -/
theorem Memory.read_pushWords_outside (ws : List Word) :
    ∀ (m : Memory) (a : Word) (x : Nat), outside a (4 * ws.length) x → (m.pushWords a ws).read x = m.read x := by
  induction ws with
  | nil => intro m a x _; rfl
  | cons w ws ih =>
    intro m a x h
    rw [Memory.pushWords, Memory.read_memWrite_outside, ih]
    · intro i hi
      rw [Word.add_four_add]
      exact h (4 + i) (by simp only [List.length_cons]; omega)
    · intro i hi
      exact h i (by simp only [List.length_cons]; omega)

theorem Word.add_ofNat_add (a : Word) (i j : Nat) :
    a + BitVec.ofNat 32 i + BitVec.ofNat 32 j = a + BitVec.ofNat 32 (i + j) := by
  rw [BitVec.add_assoc]; congr 1; apply BitVec.eq_of_toNat_eq; simp

/-- The k-th word pushed reads as the k-th of the list. -/
theorem Memory.memRead_pushWords (ws : List Word) :
    ∀ (m : Memory) (a : Word) (k : Nat) (h : k < ws.length), 4 * ws.length ≤ 2 ^ 32 →
      (m.pushWords a ws).memRead (a + BitVec.ofNat 32 (4 * k)) 4 = ws[k] := by
  induction ws with
  | nil => intro m a k h; exact absurd h (Nat.not_lt_zero _)
  | cons w ws ih =>
    intro m a k h hl
    simp only [List.length_cons] at h hl
    cases k with
    | zero => simpa [Memory.pushWords] using Memory.memRead_memWrite_word (m.pushWords (a + 4) ws) a w
    | succ k =>
      have hk := ih m (a + 4) k (by omega) (by omega)
      rw [Word.add_four_add, show 4 + 4 * k = 4 * (k + 1) by omega] at hk
      rw [List.getElem_cons_succ, ← hk, Memory.pushWords]
      apply Memory.memRead_congr
      intro i hi
      apply Memory.read_memWrite_outside
      intro j hj
      rw [Word.add_ofNat_add]
      exact Word.offset_ne a (by omega) (by omega) (by omega)

/-! ### MAPPED -/

/-- The check finds nothing exactly when every byte is mapped. -/
theorem firstUnmapped_none (mapped : List Region) (n : Nat) :
    ∀ a : Word, firstUnmapped mapped a n = none ↔ ∀ i, i < n → isMapped mapped (a + BitVec.ofNat 32 i) = true := by
  induction n with
  | zero => intro a; simp [firstUnmapped]
  | succ n ih =>
    intro a
    constructor
    · intro h i hi
      unfold firstUnmapped at h
      split at h
      · next hm =>
        cases i with
        | zero => simpa using hm
        | succ i => rw [← Word.add_one_add]; exact (ih (a + 1)).1 h i (by omega)
      · cases h
    · intro h
      unfold firstUnmapped
      have h0 : isMapped mapped a = true := by simpa using h 0 (Nat.succ_pos n)
      rw [if_pos h0]
      exact (ih (a + 1)).2 fun i hi => by rw [Word.add_one_add]; exact h (i + 1) (by omega)

/-- The check answers an unmapped byte before which every byte is mapped. -/
theorem firstUnmapped_some (mapped : List Region) (n : Nat) :
    ∀ a x : Word, firstUnmapped mapped a n = some x →
      ∃ i, i < n ∧ x = a + BitVec.ofNat 32 i ∧ isMapped mapped x = false ∧
        ∀ j, j < i → isMapped mapped (a + BitVec.ofNat 32 j) = true := by
  induction n with
  | zero => intro a x h; simp [firstUnmapped] at h
  | succ n ih =>
    intro a x h
    unfold firstUnmapped at h
    split at h
    · next hm =>
      obtain ⟨i, hi, hx, hu, hb⟩ := ih (a + 1) x h
      refine ⟨i + 1, by omega, by rw [hx, Word.add_one_add], hu, ?_⟩
      intro j hj
      cases j with
      | zero => simpa using hm
      | succ j => rw [← Word.add_one_add]; exact hb j (by omega)
    · next hm =>
      cases h
      exact ⟨0, Nat.succ_pos n, by simp, by simpa using hm, fun j hj => absurd hj (Nat.not_lt_zero j)⟩

end Sys2Proof.Machine
end

