-- ==== Sys2Proof/Laws/Decode.lean ====
section
/-! SUPPORT. Each reader of an operand takes back exactly what its writer put down, whatever follows. -/

namespace Sys2Proof

/-- `rd` reads back `a` from what `wr` writes for it, and leaves what follows. -/
def ReadsBack {α : Type} (rd : Reader α) (wr : α → List Byte) (a : α) : Prop :=
  ∀ rest, rd (wr a ++ rest) = some (a, rest)

theorem rdTake_append (xs : List Byte) : ∀ rest, rdTake xs.length (xs ++ rest) = some (xs, rest) := by
  induction xs with
  | nil => intro rest; rfl
  | cons x xs ih => intro rest; simp [rdTake, ih]

theorem rdNum_leBytes (n v : Nat) (h : v < 256 ^ n) (rest : List Byte) :
    rdNum n (leBytes n v ++ rest) = some (v, rest) := by
  have := rdTake_append (leBytes n v) rest
  rw [Machine.leBytes_length] at this
  simp [rdNum, this, Nat.mod_eq_of_lt h]

theorem readsBack_word (w : Word) : ReadsBack rdWord wrWord w := by
  intro rest
  have h : w.toNat < 256 ^ 4 := by have := w.isLt; omega
  simp [rdWord, wrWord, rdNum_leBytes 4 _ h]

theorem readsBack_nat (n : Nat) (h : natFits n = true) : ReadsBack rdNat wrNat n := by
  intro rest
  have h' : n < 256 ^ 8 := by simpa [natFits] using h
  exact rdNum_leBytes 8 n h' rest

theorem readsBack_bool (b : Bool) : ReadsBack rdBool wrBool b := by
  intro rest
  cases b <;> simp [rdBool, wrBool, rdNum, rdTake, leValue]

theorem lenFits_lt {α : Type} {l : List α} (h : lenFits l = true) : l.length < 256 ^ 4 := by
  simpa [lenFits] using h

theorem readsBack_bytes (bs : List Byte) (h : lenFits bs = true) : ReadsBack rdBytes wrBytes bs := by
  intro rest
  simp [rdBytes, wrBytes, rdNum_leBytes 4 _ (lenFits_lt h), rdTake_append]

theorem rdMany_flatMap {α : Type} (rd : Reader α) (wr : α → List Byte) (xs : List α)
    (h : ∀ x ∈ xs, ReadsBack rd wr x) : ∀ rest, rdMany rd xs.length (xs.flatMap wr ++ rest) = some (xs, rest) := by
  induction xs with
  | nil => intro rest; rfl
  | cons x xs ih =>
    intro rest
    have hx : ReadsBack rd wr x := h x (by simp)
    simp only [List.length_cons, List.flatMap_cons, List.append_assoc, rdMany]
    rw [hx, ]
    simp only [ih (fun y hy => h y (by simp [hy]))]

theorem readsBack_list {α : Type} (rd : Reader α) (wr : α → List Byte) (xs : List α) (hl : lenFits xs = true)
    (h : ∀ x ∈ xs, ReadsBack rd wr x) : ReadsBack (rdList rd) (wrList wr) xs := by
  intro rest
  simp [rdList, wrList, rdNum_leBytes 4 _ (lenFits_lt hl), rdMany_flatMap rd wr xs h]

theorem readsBack_pair {α β : Type} {ra : Reader α} {rb : Reader β} {wa : α → List Byte} {wb : β → List Byte} {a : α} {b : β}
    (ha : ReadsBack ra wa a) (hb : ReadsBack rb wb b) :
    ReadsBack (rdPair ra rb) (fun x => wa x.1 ++ wb x.2) (a, b) := by
  intro rest
  simp only [rdPair, List.append_assoc]
  rw [ha]
  simp only []
  rw [hb]

/-- A constructor applied to an operand that reads back. -/
theorem rdMap_readsBack {α β : Type} {ra : Reader α} {wa : α → List Byte} {a : α} (f : α → β) (ha : ReadsBack ra wa a)
    (rest : List Byte) : rdMap f ra (wa a ++ rest) = some (f a, rest) := by
  simp only [rdMap]
  rw [ha]

theorem readsBack_oneOf {α : Type} [DecidableEq α] (all : List α) (a : α) (h : a ∈ all) (hl : all.length ≤ 256) :
    ReadsBack (rdOneOf all) (wrOneOf all) a := by
  intro rest
  have hi : all.idxOf a < all.length := List.idxOf_lt_length_of_mem h
  have hg : all[all.idxOf a]? = some a := by
    rw [List.getElem?_eq_getElem hi, List.getElem_idxOf]
  simp [rdOneOf, wrOneOf, rdNum_leBytes 1 _ (show all.idxOf a < 256 ^ 1 by omega), hg]

theorem readsBack_devKind (k : DevKind) : ReadsBack (rdOneOf allDevKinds) (wrOneOf allDevKinds) k :=
  readsBack_oneOf _ k (by cases k <;> decide) (by decide)

theorem readsBack_radioState (st : RadioState) : ReadsBack (rdOneOf allRadioStates) (wrOneOf allRadioStates) st :=
  readsBack_oneOf _ st (by cases st <;> decide) (by decide)

theorem readsBack_cbKind (k : CbKind) : ReadsBack (rdOneOf allCbKinds) (wrOneOf allCbKinds) k :=
  readsBack_oneOf _ k (by cases k <;> decide) (by decide)

theorem readsBack_regs (regs : List (Ident × Word)) (h : regsFit regs = true) : ReadsBack rdRegs wrRegs regs := by
  simp only [regsFit, Bool.and_eq_true, List.all_eq_true] at h
  refine readsBack_list _ _ regs h.1 fun x hx => ?_
  exact readsBack_pair (readsBack_bytes x.1 (h.2 x hx)) (readsBack_word x.2)

theorem readsBack_devSpec (d : DevSpec) (h : d.fits = true) : ReadsBack rdDevSpec wrDevSpec d := by
  simp only [DevSpec.fits, Bool.and_eq_true] at h
  intro rest
  exact rdMap_readsBack (a := (d.id, d.kind, d.regs)) _
    (readsBack_pair (readsBack_bytes _ h.1.1) (readsBack_pair (readsBack_devKind d.kind) (readsBack_regs _ h.1.2))) rest

theorem readsBack_hwEntry (e : HwEntry) (h : e.fits = true) : ReadsBack rdHwEntry wrHwEntry e := by
  simp only [HwEntry.fits, Bool.and_eq_true] at h
  intro rest
  exact rdMap_readsBack (a := (e.addr, e.name, e.devId)) _
    (readsBack_pair (readsBack_word e.addr) (readsBack_pair (readsBack_bytes _ h.1) (readsBack_bytes _ h.2))) rest

theorem readsBack_devSpecs (ds : List DevSpec) (hl : lenFits ds = true) (h : ds.all DevSpec.fits = true) :
    ReadsBack (rdList rdDevSpec) (wrList wrDevSpec) ds :=
  readsBack_list _ _ ds hl fun d hd => readsBack_devSpec d (List.all_eq_true.1 h d hd)

theorem readsBack_hwEntries (es : List HwEntry) (hl : lenFits es = true) (h : es.all HwEntry.fits = true) :
    ReadsBack (rdList rdHwEntry) (wrList wrHwEntry) es :=
  readsBack_list _ _ es hl fun e he => readsBack_hwEntry e (List.all_eq_true.1 h e he)

theorem readsBack_idents (ids : List Ident) (h : idsFit ids = true) : ReadsBack (rdList rdBytes) (wrList wrBytes) ids := by
  simp only [idsFit, Bool.and_eq_true, List.all_eq_true] at h
  exact readsBack_list _ _ ids h.1 fun x hx => readsBack_bytes x (h.2 x hx)

theorem readsBack_region (x : Region) (h : natFits x.base = true ∧ natFits x.size = true) :
    ReadsBack rdRegion wrRegion x := by
  intro rest
  exact rdMap_readsBack (a := (x.base, x.size)) _ (readsBack_pair (readsBack_nat _ h.1) (readsBack_nat _ h.2)) rest

/-- Exactly the items of a list whose length the reader knows. -/
theorem readsBack_many {α : Type} (rd : Reader α) (wr : α → List Byte) (xs : List α) (n : Nat) (hn : xs.length = n)
    (h : ∀ x ∈ xs, ReadsBack rd wr x) : ReadsBack (rdMany rd n) (fun l => l.flatMap wr) xs := by
  intro rest
  subst hn
  exact rdMany_flatMap rd wr xs h rest

theorem Launch.ofWords_words (l : Launch) : Launch.ofWords l.words l.mem l.mapped = l := by
  cases l; rfl

theorem readsBack_launch (l : Launch) (h : l.fits = true) : ReadsBack rdLaunch wrLaunch l := by
  simp only [Launch.fits, Bool.and_eq_true, List.all_eq_true, decide_eq_true_eq] at h
  obtain ⟨⟨hf, hm, hmem⟩, hp, hmap⟩ := h
  intro rest
  have hw : l.words.length = 25 := by simp [Launch.words, hf]
  have := rdMap_readsBack (a := (l.words, l.mem, l.mapped)) (fun x => Launch.ofWords x.1 x.2.1 x.2.2)
    (readsBack_pair (readsBack_many rdWord wrWord l.words 25 hw fun x _ => readsBack_word x)
      (readsBack_pair
        (readsBack_list (rdPair rdWord rdBytes) (fun b => wrWord b.1 ++ wrBytes b.2) l.mem hm fun b hb =>
          readsBack_pair (readsBack_word b.1) (readsBack_bytes b.2 (hmem b hb)))
        (readsBack_list rdRegion wrRegion l.mapped hp fun x hx => readsBack_region x (hmap x hx)))) rest
  rw [Launch.ofWords_words] at this
  exact this

theorem readsBack_platform (p : Platform) (h : p.fits = true) : ReadsBack rdPlatform wrPlatform p := by
  simp only [Platform.fits, Bool.and_eq_true] at h
  intro rest
  have hm : ∀ e ∈ p.irqMap, natFits e.1 = true ∧ natFits e.2 = true := by simpa using h.1.2.2
  exact rdMap_readsBack (a := (p.hwDb, p.irqMap, p.launch)) _
    (readsBack_pair (readsBack_hwEntries _ h.1.1.1 h.1.1.2)
      (readsBack_pair
        (readsBack_list (rdPair rdNat rdNat) (fun e => wrNat e.1 ++ wrNat e.2) p.irqMap h.1.2.1 fun e he =>
          readsBack_pair (readsBack_nat e.1 (hm e he).1) (readsBack_nat e.2 (hm e he).2))
        (readsBack_launch _ h.2))) rest

/-- Decoding in one rewrite: a known number, operands that read to their end, a well-formed operation. -/
theorem decode_of_operands {t : Byte} {body : List Byte} {rd : Reader Instr} {i : Instr}
    (ht : rdOperands t.toNat = some rd) (hr : rd body = some (i, [])) (hw : i.wellFormed = true) :
    decode (t :: body) = .ok i := by
  simp [decode, ht, hr, hw]

end Sys2Proof
end

