-- ==== Sys2Proof/Laws/Flags.lean ====
section
/-! SUPPORT. Laws of the EXC_RETURN codec and of the CONTROL and xPSR fields. -/

namespace Sys2Proof.Machine

@[simp] theorem decodeSpsel_encode (s f : Bool) : decodeSpsel (encodeExcReturn s f) = s := by
  cases s <;> cases f <;> decide

@[simp] theorem decodeFpca_encode (s f : Bool) : decodeFpca (encodeExcReturn s f) = f := by
  cases s <;> cases f <;> decide

@[simp] theorem legal_encode (s f : Bool) : legalExcReturn (encodeExcReturn s f) = true := by
  cases s <;> cases f <;> decide

/-- with_mode writes bit 1 and bit 2 and keeps every other bit (R96). -/
theorem getLsbD_withMode (c : Word) (s f : Bool) (i : Nat) :
    (withMode c s f).getLsbD i = if i = 1 then s else if i = 2 then f else c.getLsbD i := by
  by_cases hi : i < 32
  · unfold withMode
    interval_cases i <;> cases s <;> cases f <;> simp
  · have h32 : 32 ≤ i := by omega
    rw [BitVec.getLsbD_of_ge _ i h32, BitVec.getLsbD_of_ge _ i h32, if_neg (by omega), if_neg (by omega)]

@[simp] theorem spselOf_withMode (c : Word) (s f : Bool) : spselOf (withMode c s f) = s := by
  unfold spselOf; rw [getLsbD_withMode, if_pos rfl]

@[simp] theorem fpcaOf_withMode (c : Word) (s f : Bool) : fpcaOf (withMode c s f) = f := by
  unfold fpcaOf; rw [getLsbD_withMode, if_neg (by decide), if_pos rfl]

/-- Writing back the bits CONTROL holds changes nothing. -/
@[simp] theorem withMode_self (c : Word) : withMode c (spselOf c) (fpcaOf c) = c := by
  apply BitVec.eq_of_getLsbD_eq
  intro i _
  rw [getLsbD_withMode]
  split
  · next h => rw [h]; rfl
  · split
    · next h => rw [h]; rfl
    · rfl

/-- with_ipsr writes bits [8:0] and keeps every other bit (R97). -/
theorem getLsbD_withIpsr (p : Word) (n : Nat) (i : Nat) :
    (withIpsr p n).getLsbD i = if i < 9 then (BitVec.ofNat 9 n).getLsbD i else p.getLsbD i := by
  by_cases hi : i < 32
  · unfold withIpsr
    interval_cases i <;> simp
  · have h32 : 32 ≤ i := by omega
    rw [BitVec.getLsbD_of_ge _ i h32, BitVec.getLsbD_of_ge _ i h32, if_neg (by omega)]

@[simp] theorem ipsrOf_withIpsr (p : Word) (n : Nat) : ipsrOf (withIpsr p n) = BitVec.ofNat 9 n := by
  apply BitVec.eq_of_getLsbD_eq
  intro i hi
  simp [ipsrOf, getLsbD_withIpsr, hi]

/-- The words of the registers built from words. -/
@[simp] theorem FpRegs.words_ofWords (w : Nat → Word) : (FpRegs.ofWords w).words = (List.range 17).map w := rfl

/-- Registers built from their own words. -/
theorem FpRegs.ofWords_words (f : FpRegs) (w : Nat → Word) (h : ∀ k, (hk : k < f.words.length) → w k = f.words[k]) :
    FpRegs.ofWords w = f := by
  have e : ∀ k, (hk : k < 17) → w k = f.words[k] := fun k hk => h k hk
  cases f
  simp only [FpRegs.ofWords, FpRegs.mk.injEq]
  exact ⟨e 0 (by decide), e 1 (by decide), e 2 (by decide), e 3 (by decide), e 4 (by decide), e 5 (by decide),
    e 6 (by decide), e 7 (by decide), e 8 (by decide), e 9 (by decide), e 10 (by decide), e 11 (by decide),
    e 12 (by decide), e 13 (by decide), e 14 (by decide), e 15 (by decide), e 16 (by decide)⟩

/-- The vector table built from words holds word n at entry n. -/
theorem VectorTable.entry_ofWords (w : Nat → Word) (n : Nat) (h : n < 18) : (VectorTable.ofWords w).entry n = w n := by
  unfold VectorTable.entry
  interval_cases n <;> rfl

/-- Bit i of a bit range (R197). -/
theorem getLsbD_regBitRange (v : Word) (first last i : Nat) :
    (regBitRange v first last).getLsbD i = (decide (first + i ≤ last) && v.getLsbD (first + i)) := by
  unfold regBitRange
  split
  · next h => simp; omega
  · split
    · next h =>
      rw [BitVec.getLsbD_of_ge v (first + i) (by omega)]
      simp
    · split
      · next h1 h2 h3 =>
        rw [BitVec.getLsbD_ushiftRight]
        by_cases hi : first + i ≤ last
        · simp [hi]
        · rw [BitVec.getLsbD_of_ge v (first + i) (by omega)]; simp
      · next h1 h2 h3 =>
        rw [BitVec.getLsbD_and, BitVec.getLsbD_ushiftRight, BitVec.getLsbD_ofNat]
        by_cases hi : first + i ≤ last
        · have : i < last - first + 1 := by omega
          have h32 : i < 32 := by omega
          simp [hi, h32, Nat.testBit_two_pow_sub_one, this]
        · have : ¬ i < last - first + 1 := by omega
          simp [hi, Nat.testBit_two_pow_sub_one, this]

end Sys2Proof.Machine
end

