-- ==== Sys2Proof/Laws/State.lean ====
section
/-! SUPPORT. What each small update of State leaves in each field: one lemma per field per update. -/

namespace Sys2Proof.Machine

/-! ### emit -/

@[simp] theorem emit_cpu (e : Event) (s : State) : (emit e s).cpu = s.cpu := rfl

@[simp] theorem emit_mem (e : Event) (s : State) : (emit e s).mem = s.mem := rfl

@[simp] theorem emit_vt (e : Event) (s : State) : (emit e s).vt = s.vt := rfl

@[simp] theorem emit_pend (e : Event) (s : State) : (emit e s).pend = s.pend := rfl

@[simp] theorem emit_afs (e : Event) (s : State) : (emit e s).afs = s.afs := rfl

@[simp] theorem emit_fatal (e : Event) (s : State) : (emit e s).fatal = s.fatal := rfl

@[simp] theorem emit_log (e : Event) (s : State) : (emit e s).log = s.log ++ [e] := rfl

@[simp] theorem emit_devices (e : Event) (s : State) : (emit e s).devices = s.devices := rfl

@[simp] theorem emit_params (e : Event) (s : State) : (emit e s).params = s.params := rfl

@[simp] theorem emit_named (e : Event) (s : State) : (emit e s).named = s.named := rfl

@[simp] theorem emit_thread (e : Event) (s : State) : (emit e s).thread = s.thread := rfl

@[simp] theorem emit_cbCode (e : Event) (s : State) : (emit e s).cbCode = s.cbCode := rfl

@[simp] theorem emit_arrivals (e : Event) (s : State) : (emit e s).arrivals = s.arrivals := rfl

@[simp] theorem emit_ret (e : Event) (s : State) : (emit e s).ret = s.ret := rfl

/-! ### answer -/

@[simp] theorem answer_cpu (v : Value) (s : State) : (answer v s).cpu = s.cpu := rfl

@[simp] theorem answer_mem (v : Value) (s : State) : (answer v s).mem = s.mem := rfl

@[simp] theorem answer_vt (v : Value) (s : State) : (answer v s).vt = s.vt := rfl

@[simp] theorem answer_pend (v : Value) (s : State) : (answer v s).pend = s.pend := rfl

@[simp] theorem answer_afs (v : Value) (s : State) : (answer v s).afs = s.afs := rfl

@[simp] theorem answer_fatal (v : Value) (s : State) : (answer v s).fatal = s.fatal := rfl

@[simp] theorem answer_log (v : Value) (s : State) : (answer v s).log = s.log := rfl

@[simp] theorem answer_devices (v : Value) (s : State) : (answer v s).devices = s.devices := rfl

@[simp] theorem answer_params (v : Value) (s : State) : (answer v s).params = s.params := rfl

@[simp] theorem answer_named (v : Value) (s : State) : (answer v s).named = s.named := rfl

@[simp] theorem answer_thread (v : Value) (s : State) : (answer v s).thread = s.thread := rfl

@[simp] theorem answer_cbCode (v : Value) (s : State) : (answer v s).cbCode = s.cbCode := rfl

@[simp] theorem answer_arrivals (v : Value) (s : State) : (answer v s).arrivals = s.arrivals := rfl

@[simp] theorem answer_ret (v : Value) (s : State) : (answer v s).ret = v := rfl

/-! ### updateDevice -/

@[simp] theorem updateDevice_cpu (s : State) (d : Ident) (f : Device → Device) : (s.updateDevice d f).cpu = s.cpu := rfl

@[simp] theorem updateDevice_mem (s : State) (d : Ident) (f : Device → Device) : (s.updateDevice d f).mem = s.mem := rfl

@[simp] theorem updateDevice_vt (s : State) (d : Ident) (f : Device → Device) : (s.updateDevice d f).vt = s.vt := rfl

@[simp] theorem updateDevice_pend (s : State) (d : Ident) (f : Device → Device) : (s.updateDevice d f).pend = s.pend := rfl

@[simp] theorem updateDevice_afs (s : State) (d : Ident) (f : Device → Device) : (s.updateDevice d f).afs = s.afs := rfl

@[simp] theorem updateDevice_fatal (s : State) (d : Ident) (f : Device → Device) : (s.updateDevice d f).fatal = s.fatal := rfl

@[simp] theorem updateDevice_log (s : State) (d : Ident) (f : Device → Device) : (s.updateDevice d f).log = s.log := rfl

@[simp] theorem updateDevice_devices (s : State) (d : Ident) (f : Device → Device) : (s.updateDevice d f).devices = s.devices.map fun x => if x.id == d then f x else x := rfl

@[simp] theorem updateDevice_params (s : State) (d : Ident) (f : Device → Device) : (s.updateDevice d f).params = s.params := rfl

@[simp] theorem updateDevice_named (s : State) (d : Ident) (f : Device → Device) : (s.updateDevice d f).named = s.named := rfl

@[simp] theorem updateDevice_thread (s : State) (d : Ident) (f : Device → Device) : (s.updateDevice d f).thread = s.thread := rfl

@[simp] theorem updateDevice_cbCode (s : State) (d : Ident) (f : Device → Device) : (s.updateDevice d f).cbCode = s.cbCode := rfl

@[simp] theorem updateDevice_arrivals (s : State) (d : Ident) (f : Device → Device) : (s.updateDevice d f).arrivals = s.arrivals := rfl

@[simp] theorem updateDevice_ret (s : State) (d : Ident) (f : Device → Device) : (s.updateDevice d f).ret = s.ret := rfl

/-! ### consume -/

@[simp] theorem consume_cpu (s : State) (rest : List (List Byte)) : (s.consume rest).cpu = s.cpu := rfl

@[simp] theorem consume_mem (s : State) (rest : List (List Byte)) : (s.consume rest).mem = s.mem := rfl

@[simp] theorem consume_vt (s : State) (rest : List (List Byte)) : (s.consume rest).vt = s.vt := rfl

@[simp] theorem consume_pend (s : State) (rest : List (List Byte)) : (s.consume rest).pend = s.pend := rfl

@[simp] theorem consume_afs (s : State) (rest : List (List Byte)) : (s.consume rest).afs = s.afs := rfl

@[simp] theorem consume_fatal (s : State) (rest : List (List Byte)) : (s.consume rest).fatal = s.fatal := rfl

@[simp] theorem consume_log (s : State) (rest : List (List Byte)) : (s.consume rest).log = s.log := rfl

@[simp] theorem consume_devices (s : State) (rest : List (List Byte)) : (s.consume rest).devices = s.devices := rfl

@[simp] theorem consume_params (s : State) (rest : List (List Byte)) : (s.consume rest).params = s.params := rfl

@[simp] theorem consume_named (s : State) (rest : List (List Byte)) : (s.consume rest).named = s.named := rfl

@[simp] theorem consume_thread (s : State) (rest : List (List Byte)) : (s.consume rest).thread = s.thread := rfl

@[simp] theorem consume_cbCode (s : State) (rest : List (List Byte)) : (s.consume rest).cbCode = s.cbCode := rfl

@[simp] theorem consume_arrivals (s : State) (rest : List (List Byte)) : (s.consume rest).arrivals = rest := rfl

@[simp] theorem consume_ret (s : State) (rest : List (List Byte)) : (s.consume rest).ret = .none := rfl

/-! ### raiseFatal -/

@[simp] theorem raiseFatal_cpu (f : Fatal) (s : State) : (raiseFatal f s).cpu = s.cpu := by
  unfold raiseFatal; split <;> simp_all

@[simp] theorem raiseFatal_mem (f : Fatal) (s : State) : (raiseFatal f s).mem = s.mem := by
  unfold raiseFatal; split <;> simp_all

@[simp] theorem raiseFatal_vt (f : Fatal) (s : State) : (raiseFatal f s).vt = s.vt := by
  unfold raiseFatal; split <;> simp_all

@[simp] theorem raiseFatal_pend (f : Fatal) (s : State) : (raiseFatal f s).pend = s.pend := by
  unfold raiseFatal; split <;> simp_all

@[simp] theorem raiseFatal_afs (f : Fatal) (s : State) : (raiseFatal f s).afs = s.afs := by
  unfold raiseFatal; split <;> simp_all

@[simp] theorem raiseFatal_fatal (f : Fatal) (s : State) : (raiseFatal f s).fatal = some (s.fatal.getD f) := by
  unfold raiseFatal; split <;> simp_all

@[simp] theorem raiseFatal_log (f : Fatal) (s : State) : (raiseFatal f s).log = s.log := by
  unfold raiseFatal; split <;> simp_all

@[simp] theorem raiseFatal_devices (f : Fatal) (s : State) : (raiseFatal f s).devices = s.devices := by
  unfold raiseFatal; split <;> simp_all

@[simp] theorem raiseFatal_params (f : Fatal) (s : State) : (raiseFatal f s).params = s.params := by
  unfold raiseFatal; split <;> simp_all

@[simp] theorem raiseFatal_named (f : Fatal) (s : State) : (raiseFatal f s).named = s.named := by
  unfold raiseFatal; split <;> simp_all

@[simp] theorem raiseFatal_thread (f : Fatal) (s : State) : (raiseFatal f s).thread = s.thread := by
  unfold raiseFatal; split <;> simp_all

@[simp] theorem raiseFatal_cbCode (f : Fatal) (s : State) : (raiseFatal f s).cbCode = s.cbCode := by
  unfold raiseFatal; split <;> simp_all

@[simp] theorem raiseFatal_arrivals (f : Fatal) (s : State) : (raiseFatal f s).arrivals = s.arrivals := by
  unfold raiseFatal; split <;> simp_all

@[simp] theorem raiseFatal_ret (f : Fatal) (s : State) : (raiseFatal f s).ret = s.ret := by
  unfold raiseFatal; split <;> simp_all

/-! ### setByAddress -/

@[simp] theorem setByAddress_cpu (d : Ident) (a : Word) (v : Nat) (s : State) : (setByAddress d a v s).cpu = s.cpu := rfl

@[simp] theorem setByAddress_mem (d : Ident) (a : Word) (v : Nat) (s : State) : (setByAddress d a v s).mem = s.mem := rfl

@[simp] theorem setByAddress_vt (d : Ident) (a : Word) (v : Nat) (s : State) : (setByAddress d a v s).vt = s.vt := rfl

@[simp] theorem setByAddress_pend (d : Ident) (a : Word) (v : Nat) (s : State) : (setByAddress d a v s).pend = s.pend := rfl

@[simp] theorem setByAddress_afs (d : Ident) (a : Word) (v : Nat) (s : State) : (setByAddress d a v s).afs = s.afs := rfl

@[simp] theorem setByAddress_fatal (d : Ident) (a : Word) (v : Nat) (s : State) : (setByAddress d a v s).fatal = s.fatal := rfl

@[simp] theorem setByAddress_log (d : Ident) (a : Word) (v : Nat) (s : State) : (setByAddress d a v s).log = s.log := rfl

@[simp] theorem setByAddress_params (d : Ident) (a : Word) (v : Nat) (s : State) : (setByAddress d a v s).params = s.params := rfl

@[simp] theorem setByAddress_named (d : Ident) (a : Word) (v : Nat) (s : State) : (setByAddress d a v s).named = s.named := rfl

@[simp] theorem setByAddress_thread (d : Ident) (a : Word) (v : Nat) (s : State) : (setByAddress d a v s).thread = s.thread := rfl

@[simp] theorem setByAddress_cbCode (d : Ident) (a : Word) (v : Nat) (s : State) : (setByAddress d a v s).cbCode = s.cbCode := rfl

@[simp] theorem setByAddress_arrivals (d : Ident) (a : Word) (v : Nat) (s : State) : (setByAddress d a v s).arrivals = s.arrivals := rfl

@[simp] theorem setByAddress_ret (d : Ident) (a : Word) (v : Nat) (s : State) : (setByAddress d a v s).ret = s.ret := rfl

/-! ### setByName -/

@[simp] theorem setByName_cpu (d n : Ident) (v : Nat) (s : State) : (setByName d n v s).cpu = s.cpu := rfl

@[simp] theorem setByName_mem (d n : Ident) (v : Nat) (s : State) : (setByName d n v s).mem = s.mem := rfl

@[simp] theorem setByName_vt (d n : Ident) (v : Nat) (s : State) : (setByName d n v s).vt = s.vt := rfl

@[simp] theorem setByName_pend (d n : Ident) (v : Nat) (s : State) : (setByName d n v s).pend = s.pend := rfl

@[simp] theorem setByName_afs (d n : Ident) (v : Nat) (s : State) : (setByName d n v s).afs = s.afs := rfl

@[simp] theorem setByName_fatal (d n : Ident) (v : Nat) (s : State) : (setByName d n v s).fatal = s.fatal := rfl

@[simp] theorem setByName_log (d n : Ident) (v : Nat) (s : State) : (setByName d n v s).log = s.log := rfl

@[simp] theorem setByName_params (d n : Ident) (v : Nat) (s : State) : (setByName d n v s).params = s.params := rfl

@[simp] theorem setByName_named (d n : Ident) (v : Nat) (s : State) : (setByName d n v s).named = s.named := rfl

@[simp] theorem setByName_thread (d n : Ident) (v : Nat) (s : State) : (setByName d n v s).thread = s.thread := rfl

@[simp] theorem setByName_cbCode (d n : Ident) (v : Nat) (s : State) : (setByName d n v s).cbCode = s.cbCode := rfl

@[simp] theorem setByName_arrivals (d n : Ident) (v : Nat) (s : State) : (setByName d n v s).arrivals = s.arrivals := rfl

@[simp] theorem setByName_ret (d n : Ident) (v : Nat) (s : State) : (setByName d n v s).ret = s.ret := rfl

/-- Raising a fatal error where none is present sets it and changes nothing else (R251). -/
theorem raiseFatal_of_none {f : Fatal} {s : State} (h : s.fatal = none) : raiseFatal f s = { s with fatal := some f } := by
  unfold raiseFatal; rw [h]

/-- The first fatal error is kept (D42). -/
theorem raiseFatal_of_some {f g : Fatal} {s : State} (h : s.fatal = some g) : raiseFatal f s = s := by
  unfold raiseFatal; rw [h]

end Sys2Proof.Machine
end

