-- ==== Sys2Proof/Laws/Ops.lean ====
section
/-! SUPPORT. What each shared operation can do, said once: later proofs cite these and do not unfold the operations. -/

namespace Sys2Proof.Machine

/-! ### Stack pointers -/

@[simp] theorem Cpu.sp_setSp (c : Cpu) (b b' : Bool) (v : Word) : (c.setSp b v).sp b' = if b' = b then v else c.sp b' := by
  cases b <;> cases b' <;> rfl

/-- setSp writes the stack pointer it selects and keeps everything else. -/
theorem Cpu.setSp_eq (c : Cpu) (b : Bool) (v : Word) :
    c.setSp b v = { c with msp := if b then c.msp else v, psp := if b then v else c.psp } := by cases b <;> rfl

theorem Cpu.setSp_fields (c : Cpu) (b : Bool) (v : Word) :
    (c.setSp b v).r0 = c.r0 ∧ (c.setSp b v).r1 = c.r1 ∧ (c.setSp b v).r2 = c.r2 ∧ (c.setSp b v).r3 = c.r3 ∧
      (c.setSp b v).r12 = c.r12 ∧ (c.setSp b v).lr = c.lr ∧ (c.setSp b v).pc = c.pc ∧ (c.setSp b v).xpsr = c.xpsr ∧
      (c.setSp b v).control = c.control ∧ (c.setSp b v).fp = c.fp := by
  cases b <;> exact ⟨rfl, rfl, rfl, rfl, rfl, rfl, rfl, rfl, rfl, rfl⟩

@[simp] theorem frameWords_length (c : Cpu) (f : Bool) : 4 * (frameWords c f).length = frameSize f := by
  cases f <;> rfl

/-! ### The lookup -/

/-- An entry that succeeds has its number in 1..17 and its non-zero table word as the handler (R133). -/
theorem lookupVector_ok {t : VectorTable} {n : Nat} {h : Word} (e : lookupVector t n = .ok h) :
    1 ≤ n ∧ n ≤ 17 ∧ h = t.entry n ∧ h ≠ 0 := by
  unfold lookupVector at e
  split at e
  · cases e
  · next hn =>
    split at e
    · cases e
    · next h0 =>
      cases e
      exact ⟨by omega, by omega, rfl, h0⟩

theorem lookupVector_of {t : VectorTable} {n : Nat} (h1 : 1 ≤ n) (h2 : n ≤ 17) (h0 : t.entry n ≠ 0) :
    lookupVector t n = .ok (t.entry n) := by
  unfold lookupVector
  rw [if_neg (by omega), if_neg h0]

/-! ### Entry and return -/

/-- Everything `enter` can do (R134, R257): a lookup error, an unmapped frame byte, or the entry. -/
theorem enter_cases (n : Nat) (s : State) :
    (∃ f, lookupVector s.vt n = .error f ∧ enter n s = raiseFatal f s) ∨
    (∃ h a, lookupVector s.vt n = .ok h ∧
      firstUnmapped s.params.mapped (entryBase s.cpu) (frameSize (fpcaOf s.cpu.control)) = some a ∧
      enter n s = raiseFatal (.frameAccessUnmapped a) s) ∨
    (∃ h, lookupVector s.vt n = .ok h ∧
      firstUnmapped s.params.mapped (entryBase s.cpu) (frameSize (fpcaOf s.cpu.control)) = none ∧
      enter n s =
        { s with
          cpu := entryCpu s.cpu n h
          mem := Memory.pushWords s.mem (entryBase s.cpu) (frameWords s.cpu (fpcaOf s.cpu.control))
          afs := entryRec s.cpu n :: s.afs }) := by
  unfold enter
  split
  · next f hf => exact .inl ⟨f, hf, rfl⟩
  · next h hh =>
    split
    · next a ha => exact .inr (.inl ⟨h, a, hh, ha, rfl⟩)
    · next hn => exact .inr (.inr ⟨h, hh, hn, rfl⟩)

/-- Everything `return` can do (R138, R257): one of the three errors, in order, or the pop. -/
theorem excReturn_cases (s : State) :
    (s.afs = [] ∧ excReturn s = raiseFatal (.returnOutsideHandler s.cpu.lr) s) ∨
    (s.afs ≠ [] ∧ s.params.strict = true ∧ legalExcReturn s.cpu.lr = false ∧
      excReturn s = raiseFatal (.illegalExcReturn s.cpu.lr) s) ∨
    (∃ a, s.afs ≠ [] ∧ (s.params.strict = true → legalExcReturn s.cpu.lr = true) ∧
      firstUnmapped s.params.mapped (s.cpu.sp (decodeSpsel s.cpu.lr)) (frameSize (decodeFpca s.cpu.lr)) = some a ∧
      excReturn s = raiseFatal (.frameAccessUnmapped a) s) ∨
    (∃ r rest, s.afs = r :: rest ∧ (s.params.strict = true → legalExcReturn s.cpu.lr = true) ∧
      firstUnmapped s.params.mapped (s.cpu.sp (decodeSpsel s.cpu.lr)) (frameSize (decodeFpca s.cpu.lr)) = none ∧
      excReturn s = { s with cpu := returnCpu s.cpu s.mem s.cpu.lr, afs := rest }) := by
  unfold excReturn
  split
  · next h => exact .inl ⟨h, rfl⟩
  · next r rest h =>
    have hne : s.afs ≠ [] := by rw [h]; exact List.cons_ne_nil _ _
    split
    · next hl =>
      simp only [Bool.and_eq_true, Bool.not_eq_true'] at hl
      exact .inr (.inl ⟨hne, hl.1, hl.2, rfl⟩)
    · next hl =>
      have hl' : s.params.strict = true → legalExcReturn s.cpu.lr = true := by
        intro hs; simpa [hs] using hl
      split
      · next a ha => exact .inr (.inr (.inl ⟨a, hne, hl', ha, rfl⟩))
      · next hn => exact .inr (.inr (.inr ⟨r, rest, h, hl', hn, rfl⟩))

/-- `enter` never touches the pending queue (R145). -/
@[simp] theorem enter_pend (n : Nat) (s : State) : (enter n s).pend = s.pend := by
  rcases enter_cases n s with ⟨f, -, h⟩ | ⟨h', a, -, -, h⟩ | ⟨h', -, -, h⟩ <;> rw [h] <;> simp

/-! ### RegisterFiles -/

theorem find_map_keep {α : Type} (l : List α) (p q : α → Bool) (f : α → α) (hf : ∀ x ∈ l, p (if q x then f x else x) = p x) :
    (l.map fun x => if q x then f x else x).find? p = (l.find? p).map fun x => if q x then f x else x := by
  induction l with
  | nil => rfl
  | cons x l ih =>
    have hx := hf x (by simp)
    have hl := ih fun y hy => hf y (by simp [hy])
    simp only [List.map_cons, List.find?_cons, hx]
    cases p x <;> simp [hl]

/-- A device lookup after an update that keeps identifiers. -/
theorem device_updateDevice (s : State) (d e : Ident) (f : Device → Device) (hf : ∀ x, (f x).id = x.id) :
    (s.updateDevice d f).device e = if e = d then (s.device d).map f else s.device e := by
  unfold State.device
  rw [updateDevice_devices, find_map_keep]
  · by_cases h : e = d
    · subst h
      simp only [if_true]
      cases hx : s.devices.find? (fun x => x.id == e) with
      | none => rfl
      | some x =>
        have : x.id == e := by simpa using List.find?_some hx
        simp only [Option.map_some, this, if_true]
    · rw [if_neg h]
      cases hx : s.devices.find? (fun x => x.id == e) with
      | none => rfl
      | some x =>
        have hxe : x.id = e := by simpa using List.find?_some hx
        have : (x.id == d) = false := by simp [hxe, h]
        simp only [Option.map_some, this, Bool.false_eq_true, if_false]
  · intro x _
    split <;> simp [hf]

/-- The RegisterFile stores what setByAddress is given, under the register's own address (R194). -/
theorem byAddress_regsSetByAddr (regs : List Reg) (a b v : Word) :
    byAddress (regsSetByAddr regs a v) b =
      (byAddress regs b).map fun r => if r.addr == a then { r with value := v } else r := by
  unfold byAddress regsSetByAddr
  rw [find_map_keep]
  intro x _
  split <;> rfl

theorem byName_regsSetByAddr (regs : List Reg) (a v : Word) (name : Ident) :
    byName (regsSetByAddr regs a v) name =
      (byName regs name).map fun r => if r.addr == a then { r with value := v } else r := by
  unfold byName regsSetByAddr
  rw [find_map_keep]
  intro x _
  split <;> rfl

theorem byName_regsSetByName (regs : List Reg) (name nm : Ident) (v : Word) :
    byName (regsSetByName regs name v) nm =
      (byName regs nm).map fun r => if r.name == name then { r with value := v } else r := by
  unfold byName regsSetByName
  rw [find_map_keep]
  intro x _
  split <;> rfl

theorem byAddress_regsSetByName (regs : List Reg) (name : Ident) (a v : Word) :
    byAddress (regsSetByName regs name v) a =
      (byAddress regs a).map fun r => if r.name == name then { r with value := v } else r := by
  unfold byAddress regsSetByName
  rw [find_map_keep]
  intro x _
  split <;> rfl

theorem regsSetByAddr_names (regs : List Reg) (a v : Word) :
    (regsSetByAddr regs a v).map (·.name) = regs.map (·.name) := by
  simp only [regsSetByAddr, List.map_map]
  apply List.map_congr_left
  intro r _
  simp only [Function.comp]
  split <;> rfl

theorem regsSetByAddr_addrs (regs : List Reg) (a v : Word) :
    (regsSetByAddr regs a v).map (·.addr) = regs.map (·.addr) := by
  simp only [regsSetByAddr, List.map_map]
  apply List.map_congr_left
  intro r _
  simp only [Function.comp]
  split <;> rfl

theorem regsSetByName_names (regs : List Reg) (name : Ident) (v : Word) :
    (regsSetByName regs name v).map (·.name) = regs.map (·.name) := by
  simp only [regsSetByName, List.map_map]
  apply List.map_congr_left
  intro r _
  simp only [Function.comp]
  split <;> rfl

theorem regsSetByName_addrs (regs : List Reg) (name : Ident) (v : Word) :
    (regsSetByName regs name v).map (·.addr) = regs.map (·.addr) := by
  simp only [regsSetByName, List.map_map]
  apply List.map_congr_left
  intro r _
  simp only [Function.comp]
  split <;> rfl

/-- A list without a repeat has no duplicate. -/
theorem firstRepeat_none {α : Type} [DecidableEq α] (l : List α) : firstRepeat l = none ↔ l.Nodup := by
  induction l with
  | nil => simp [firstRepeat]
  | cons x xs ih =>
    unfold firstRepeat
    split
    · next h => simp [h]
    · next h => simp [h, ih]

/-- What `firstRepeat` answers stands twice in the list. -/
theorem firstRepeat_some {α : Type} [DecidableEq α] (l : List α) (x : α) (h : firstRepeat l = some x) :
    x ∈ l ∧ ¬ l.Nodup := by
  refine ⟨?_, fun hn => by rw [(firstRepeat_none l).2 hn] at h; cases h⟩
  induction l with
  | nil => simp [firstRepeat] at h
  | cons y ys ih =>
    unfold firstRepeat at h
    split at h
    · cases h; simp
    · simp [ih h]

/-- A list with a repeat has one that `firstRepeat` answers. -/
theorem firstRepeat_duplicate {α : Type} [DecidableEq α] (l : List α) (h : ¬ l.Nodup) :
    ∃ x, firstRepeat l = some x ∧ List.Duplicate x l := by
  induction l with
  | nil => exact absurd List.nodup_nil h
  | cons y ys ih =>
    unfold firstRepeat
    split
    · next hm => exact ⟨y, rfl, List.Duplicate.cons_mem hm⟩
    · next hm =>
      obtain ⟨x, e, hx⟩ := ih fun hn => h (List.nodup_cons.2 ⟨hm, hn⟩)
      exact ⟨x, e, List.Duplicate.cons_duplicate hx⟩

/-- A repeated name is what `construct` reports (R191). -/
theorem duplicateIn_name (regs : List (Ident × Word)) (h : ¬ (regs.map (·.1)).Nodup) :
    ∃ nm, duplicateIn regs = some (.name nm) ∧ List.Duplicate nm (regs.map (·.1)) := by
  obtain ⟨nm, e, hd⟩ := firstRepeat_duplicate _ h
  exact ⟨nm, by simp [duplicateIn, e], hd⟩

/-- A repeated address is, where no name is repeated (R191, R257). -/
theorem duplicateIn_address (regs : List (Ident × Word)) (hn : (regs.map (·.1)).Nodup) (h : ¬ (regs.map (·.2)).Nodup) :
    ∃ a, duplicateIn regs = some (.address a) ∧ List.Duplicate a (regs.map (·.2)) := by
  obtain ⟨a, e, hd⟩ := firstRepeat_duplicate _ h
  exact ⟨a, by simp [duplicateIn, (firstRepeat_none _).2 hn, e], hd⟩

/-- `construct` finds no duplicate exactly when names and addresses are unique (R191). -/
theorem duplicateIn_none (regs : List (Ident × Word)) :
    duplicateIn regs = none ↔ (regs.map (·.1)).Nodup ∧ (regs.map (·.2)).Nodup := by
  rw [← firstRepeat_none, ← firstRepeat_none]
  unfold duplicateIn
  cases firstRepeat (regs.map (·.1)) <;> cases firstRepeat (regs.map (·.2)) <;> simp

/-- A fresh RegisterFile without duplicates has unique names and addresses. -/
theorem regsUnique_freshRegs (regs : List (Ident × Word)) (h : duplicateIn regs = none) : regsUnique (freshRegs regs) = true := by
  have := (duplicateIn_none regs).1 h
  simpa [regsUnique, freshRegs, Function.comp_def] using this

/-! ### What every operation that is no load of an image leaves standing -/

/-- `t` can follow `s` within a session: the vector table, the parameters and the arrivals to come are the same, the log
only grows, a fatal error stays, the device instances stay (RF.CONSTRUCT alone adds one), those only named stay, the data's
invariant is kept, the thread goes on or hangs, and no bit of CONTROL but 1 and 2 changes (R32). -/
structure Follows (s t : State) : Prop where
  vt : t.vt = s.vt
  params : t.params = s.params
  arrivals : t.arrivals = s.arrivals
  log : s.log <+: t.log
  fatal : ∀ f, s.fatal = some f → t.fatal = some f
  ids : s.devices.map (·.id) <+: t.devices.map (·.id)
  named : t.named = s.named
  inv : s.dataInv = true → t.dataInv = true
  thread : t.thread = s.thread ∨ t.thread = .hung
  control : ∀ k, k ≠ 1 → k ≠ 2 → t.cpu.control.getLsbD k = s.cpu.control.getLsbD k

theorem Follows.refl (s : State) : Follows s s :=
  ⟨rfl, rfl, rfl, List.prefix_rfl, fun _ h => h, List.prefix_rfl, rfl, fun h => h, .inl rfl, fun _ _ _ => rfl⟩

theorem Follows.trans {s t u : State} (h : Follows s t) (k : Follows t u) : Follows s u where
  vt := k.vt.trans h.vt
  params := k.params.trans h.params
  arrivals := k.arrivals.trans h.arrivals
  log := h.log.trans k.log
  fatal := fun f e => k.fatal f (h.fatal f e)
  ids := h.ids.trans k.ids
  named := k.named.trans h.named
  inv := fun e => k.inv (h.inv e)
  thread := by
    rcases k.thread with e | e
    · rcases h.thread with e' | e'
      · exact .inl (e.trans e')
      · exact .inr (e.trans e')
    · exact .inr e
  control := fun i h1 h2 => (k.control i h1 h2).trans (h.control i h1 h2)

theorem dataInv_iff (s : State) : s.dataInv = true ↔
    s.mem.wf = true ∧ (s.devices.map (·.id)).Nodup ∧ (∀ d ∈ s.devices, deviceOk s.named d = true) ∧
      (∀ r ∈ s.afs, recordOk r = true) := by
  simp [State.dataInv, and_assoc]

theorem raiseFatal_follows (f : Fatal) (s : State) : Follows s (raiseFatal f s) := by
  refine ⟨by simp, by simp, by simp, by simp, fun g h => by simp [h], by simp, by simp, fun h => ?_, .inl (by simp), fun _ _ _ => by simp⟩
  rw [dataInv_iff] at h ⊢
  simpa using h

theorem emit_follows (e : Event) (s : State) : Follows s (emit e s) :=
  ⟨rfl, rfl, rfl, by simp, fun _ h => h, List.prefix_rfl, rfl, fun h => h, .inl rfl, fun _ _ _ => rfl⟩

theorem answer_follows (v : Value) (s : State) : Follows s (answer v s) :=
  ⟨rfl, rfl, rfl, List.prefix_rfl, fun _ h => h, List.prefix_rfl, rfl, fun h => h, .inl rfl, fun _ _ _ => rfl⟩

/-- Changing memory to another canonical one. -/
theorem setMem_follows (m : Memory) (s : State) (hm : s.mem.wf = true → m.wf = true) : Follows s { s with mem := m } := by
  refine ⟨rfl, rfl, rfl, List.prefix_rfl, fun _ h => h, List.prefix_rfl, rfl, fun h => ?_, .inl rfl, fun _ _ _ => rfl⟩
  rw [dataInv_iff] at h ⊢
  exact ⟨hm h.1, h.2⟩

/-- A device whose variant and register names stay and whose addresses stay unique is still a proper one. -/
theorem deviceOk_of {named : List (Ident × DevKind)} {x y : Device} (hk : y.body.kind = x.body.kind) (hn : y.regs.map (·.name) = x.regs.map (·.name))
    (ha : y.regs.map (·.addr) = x.regs.map (·.addr)) (h : deviceOk named x = true) :
    deviceOk named y = true := by
  simpa only [deviceOk, regsUnique, hk, hn, ha] using h

/-- A device update that keeps the identifier and leaves a proper device proper. -/
theorem updateDevice_follows (s : State) (d : Ident) (f : Device → Device) (hid : ∀ x, (f x).id = x.id)
    (hr : ∀ x, deviceOk s.named x = true → deviceOk s.named (f x) = true) : Follows s (s.updateDevice d f) := by
  have hids : (s.updateDevice d f).devices.map (·.id) = s.devices.map (·.id) := by
    rw [updateDevice_devices, List.map_map]
    apply List.map_congr_left
    intro x _
    simp only [Function.comp]
    split <;> simp [hid]
  refine ⟨rfl, rfl, rfl, List.prefix_rfl, fun _ h => h, by rw [hids], rfl, fun h => ?_, .inl rfl, fun _ _ _ => rfl⟩
  rw [dataInv_iff] at h ⊢
  refine ⟨h.1, by rw [hids]; exact h.2.1, ?_, h.2.2.2⟩
  intro x hx
  rw [updateDevice_devices, List.mem_map] at hx
  obtain ⟨y, hy, rfl⟩ := hx
  split
  · exact hr y (h.2.2.1 y hy)
  · exact h.2.2.1 y hy

theorem setByAddress_follows (d : Ident) (a : Word) (v : Nat) (s : State) : Follows s (setByAddress d a v s) :=
  updateDevice_follows _ _ _ (fun _ => rfl) fun _ =>
    deviceOk_of rfl (regsSetByAddr_names _ _ _) (regsSetByAddr_addrs _ _ _)

theorem setByName_follows (d nm : Ident) (v : Nat) (s : State) : Follows s (setByName d nm v s) :=
  updateDevice_follows _ _ _ (fun _ => rfl) fun _ =>
    deviceOk_of rfl (regsSetByName_names _ _ _) (regsSetByName_addrs _ _ _)

/-- Changing device fields beyond the RegisterFile, the variant kept. -/
theorem updateBody_follows (s : State) (d : Ident) (f : DevBody → DevBody) (hf : ∀ b, (f b).kind = b.kind) :
    Follows s (s.updateDevice d fun x => { x with body := f x.body }) :=
  updateDevice_follows _ _ _ (fun _ => rfl) fun x => deviceOk_of (hf x.body) rfl rfl

@[simp] theorem DevBody.setRstate_kind (st : RadioState) (b : DevBody) : (b.setRstate st).kind = b.kind := by
  cases b <;> rfl

@[simp] theorem DevBody.setCb_kind (k : CbKind) (f : Nat) (b : DevBody) : (b.setCb k f).kind = b.kind := by
  cases b <;> cases k <;> rfl

@[simp] theorem DevBody.setRunning_kind (r : Bool) (b : DevBody) : (b.setRunning r).kind = b.kind := by cases b <;> rfl

@[simp] theorem DevBody.tick_kind (b : DevBody) : b.tick.kind = b.kind := by cases b <;> rfl

@[simp] theorem freshBody_kind (k : DevKind) : (freshBody k).kind = k := by cases k <;> rfl

theorem enter_follows (n : Nat) (s : State) : Follows s (enter n s) := by
  rcases enter_cases n s with ⟨f, -, h⟩ | ⟨_, a, -, -, h⟩ | ⟨hd, hl, -, h⟩ <;> rw [h]
  · exact raiseFatal_follows _ _
  · exact raiseFatal_follows _ _
  · refine ⟨rfl, rfl, rfl, List.prefix_rfl, fun _ h => h, List.prefix_rfl, rfl, fun hi => ?_, .inl rfl, fun k _ _ => by simp [entryCpu, Cpu.setSp_eq]⟩
    rw [dataInv_iff] at hi ⊢
    obtain ⟨h1, h17, -, -⟩ := lookupVector_ok hl
    refine ⟨Memory.wf_pushWords _ _ _ hi.1, hi.2.1, hi.2.2.1, ?_⟩
    intro r hr
    rcases List.mem_cons.1 hr with rfl | hr
    · simp [recordOk, entryRec, h1, h17]
    · exact hi.2.2.2 r hr

theorem raiseException_follows (n : Nat) (s : State) : Follows s (raiseException n s) := by
  unfold raiseException
  split
  · exact ⟨rfl, rfl, rfl, List.prefix_rfl, fun _ h => h, List.prefix_rfl, rfl, fun h => h, .inl rfl, fun _ _ _ => rfl⟩
  · exact enter_follows n s

theorem drainPending_follows (ns : List Nat) : ∀ s, Follows s (drainPending ns s) := by
  induction ns with
  | nil => exact Follows.refl
  | cons n rest ih =>
    intro s
    unfold drainPending
    split
    · exact Follows.refl s
    · have h0 : Follows s { s with pend := rest } :=
        ⟨rfl, rfl, rfl, List.prefix_rfl, fun _ h => h, List.prefix_rfl, rfl, fun h => h, .inl rfl, fun _ _ _ => rfl⟩
      exact h0.trans ((enter_follows n _).trans (ih _))

theorem excReturn_follows (s : State) : Follows s (excReturn s) := by
  rcases excReturn_cases s with ⟨-, h⟩ | ⟨-, -, -, h⟩ | ⟨a, -, -, -, h⟩ | ⟨r, rest, ha, -, -, h⟩ <;> rw [h]
  · exact raiseFatal_follows _ _
  · exact raiseFatal_follows _ _
  · exact raiseFatal_follows _ _
  · refine ⟨rfl, rfl, rfl, List.prefix_rfl, fun _ h => h, List.prefix_rfl, rfl, fun hi => ?_, .inl rfl, fun k h1 h2 => ?_⟩
    · rw [dataInv_iff] at hi ⊢
      refine ⟨hi.1, hi.2.1, hi.2.2.1, fun x hx => hi.2.2.2 x ?_⟩
      rw [ha]; exact List.mem_cons_of_mem _ hx
    · simp [returnCpu, getLsbD_withMode, h1, h2]

theorem nonmatch_eq (a : Word) (s : State) : nonmatch a s = s := by
  unfold nonmatch
  cases s.params.nonmatch
  rfl

theorem blockEntry_follows (a : Word) (s : State) : Follows s (blockEntry a s) := by
  unfold blockEntry
  split
  · exact excReturn_follows s
  · rw [nonmatch_eq]; exact Follows.refl s

/-- A device just built without a duplicate is a proper one, on a list with its variant's required registers or while the
devices are still being built. -/
theorem deviceOk_fresh {named : List (Ident × DevKind)} {d : Ident} {kind : DevKind} {regs : List (Ident × Word)}
    (hd : duplicateIn regs = none) (hr : named ≠ [] ∨ hasRequired kind (regs.map (·.1)) = true) :
    deviceOk named { id := d, body := freshBody kind, regs := freshRegs regs } = true := by
  simp only [deviceOk, regsUnique_freshRegs regs hd, freshBody_kind, Bool.true_and, Bool.or_eq_true, decide_eq_true_eq]
  simpa [freshRegs, Function.comp_def] using hr

/-- An instance that is named is among the named ones. -/
theorem named_ne_nil {s : State} {d : Ident} {kind : DevKind} (h : s.namedKind d = some kind) : s.named ≠ [] := by
  intro e
  simp [State.namedKind, e] at h

/-- No instance has an identifier that a lookup does not find. -/
theorem device_none {s : State} {d : Ident} (h : s.device d = none) : d ∉ s.devices.map (·.id) := by
  intro hm
  obtain ⟨x, hx, rfl⟩ := List.mem_map.1 hm
  have := List.find?_eq_none.1 h x hx
  simp at this

/-- Everything `construct` can do (R191, R190, log 27): no effect, a duplicate's fatal error, or one device more. -/
theorem construct_cases (d : Ident) (regs : List (Ident × Word)) (s : State) :
    ((∃ x, s.device d = some x) ∧ construct d regs s = s) ∨
    (s.device d = none ∧ s.namedKind d = none ∧ construct d regs s = s) ∨
    (∃ kind w, s.device d = none ∧ s.namedKind d = some kind ∧ duplicateIn regs = some w ∧
      construct d regs s = raiseFatal (.duplicateRegister d w) s) ∨
    (∃ kind, s.device d = none ∧ s.namedKind d = some kind ∧ duplicateIn regs = none ∧ construct d regs s =
        { s with devices := s.devices ++ [{ id := d, body := freshBody kind, regs := freshRegs regs }] }) := by
  unfold construct buildDevice
  cases hx : s.device d with
  | some x => exact .inl ⟨⟨x, rfl⟩, rfl⟩
  | none =>
    cases hk : s.namedKind d with
    | none => exact .inr (.inl ⟨rfl, rfl, rfl⟩)
    | some kind =>
      cases hd : duplicateIn regs with
      | some w => exact .inr (.inr (.inl ⟨kind, w, rfl, rfl, rfl, rfl⟩))
      | none => exact .inr (.inr (.inr ⟨kind, rfl, rfl, rfl, rfl⟩))

theorem construct_follows (d : Ident) (regs : List (Ident × Word)) (s : State) : Follows s (construct d regs s) := by
  rcases construct_cases d regs s with ⟨-, h⟩ | ⟨-, -, h⟩ | ⟨k, w, -, -, -, h⟩ | ⟨k, hn, hk, hd, h⟩ <;> rw [h]
  · exact Follows.refl s
  · exact Follows.refl s
  · exact raiseFatal_follows _ _
  · refine ⟨rfl, rfl, rfl, List.prefix_rfl, fun _ h => h, by simp, rfl, fun hi => ?_, .inl rfl, fun _ _ _ => rfl⟩
    rw [dataInv_iff] at hi ⊢
    refine ⟨hi.1, ?_, ?_, hi.2.2.2⟩
    · have := device_none hn
      simp only [List.map_append, List.nodup_append, hi.2.1, true_and]
      refine ⟨by simp, ?_⟩
      intro a ha b hb
      simp only [List.map_cons, List.map_nil, List.mem_singleton] at hb
      subst hb
      exact fun e => this (e ▸ ha)
    · intro x hx
      rcases List.mem_append.1 hx with hx | hx
      · exact hi.2.2.1 x hx
      · rw [List.mem_singleton.1 hx]; exact deviceOk_fresh hd (.inl (named_ne_nil hk))

/-- Everything the naming of the devices can do (R210, R211, log 27). -/
theorem nameDevices_cases (devs : List (Ident × DevKind)) (db : List HwEntry) (s : State) :
    (∃ id, firstRepeat (devs.map (·.1)) = some id ∧ nameDevices devs db s = raiseFatal (.duplicateRegister id .identify) s) ∨
    ((devs.map (·.1)).Nodup ∧
      nameDevices devs db s = { s with devices := [], named := devs, params := { s.params with hwDb := db } }) := by
  unfold nameDevices
  cases h : firstRepeat (devs.map (·.1)) with
  | some id => exact .inl ⟨id, rfl, rfl⟩
  | none => exact .inr ⟨(firstRepeat_none _).1 h, rfl⟩

/-- Everything `injectPacket` can do (R221). -/
theorem injectPacket_follows (d : Ident) (bytes : List Byte) (s : State) : Follows s (injectPacket d bytes s) := by
  unfold injectPacket
  split
  · exact Follows.refl s
  · split
    · dsimp only
      split
      · exact emit_follows _ _
      · split
        · exact raiseFatal_follows _ _
        · exact setMem_follows _ _ fun h => Memory.wf_writeBytes _ _ _ h
    · exact Follows.refl s

theorem setRadioState_follows (d : Ident) (st : RadioState) (s : State) : Follows s (setRadioState d st s) := by
  unfold setRadioState
  split
  · exact (updateBody_follows s d _ fun _ => by simp).trans (setByName_follows _ _ _ _)
  · exact Follows.refl s

theorem registerCb_follows (d : Ident) (kind : CbKind) (f : Nat) (s : State) : Follows s (registerCb d kind f s) := by
  unfold registerCb
  split
  · exact updateBody_follows s d _ fun _ => by simp
  · exact Follows.refl s

theorem timerStart_follows (d : Ident) (s : State) : Follows s (timerStart d s) := by
  unfold timerStart
  split
  · exact updateBody_follows s d _ fun _ => by simp
  · exact Follows.refl s

theorem timerStop_follows (d : Ident) (joins : Bool) (s : State) : Follows s (timerStop d joins s) := by
  unfold timerStop
  split
  · split
    · exact updateBody_follows s d _ fun _ => by simp
    · exact raiseFatal_follows _ _
  · exact Follows.refl s

theorem timerTick_follows (d : Ident) (s : State) : Follows s (timerTick d s) := by
  unfold timerTick
  split
  · exact updateBody_follows s d _ fun _ => by simp
  · exact Follows.refl s

theorem timerCapture_follows (d : Ident) (k : Nat) (s : State) : Follows s (timerCapture d k s) := by
  unfold timerCapture
  split
  · split
    · exact Follows.refl s
    · split
      · exact setByName_follows _ _ _ _
      · exact Follows.refl s
  · exact Follows.refl s

theorem rawWrite_follows (a : Word) (bytes : List Byte) (s : State) : Follows s (rawWrite a bytes s) := by
  unfold rawWrite
  split
  · exact raiseFatal_follows _ _
  · exact setMem_follows _ _ fun h => Memory.wf_writeBytes _ _ _ h

theorem rawRead_follows (a : Word) (n : Nat) (s : State) : Follows s (rawRead a n s) := by
  unfold rawRead
  split
  · exact raiseFatal_follows _ _
  · exact answer_follows _ _

/-- Reading state changes nothing but the value handed back (R270). -/
theorem readState_eq (sel : ReadSel) (s : State) : ∃ v, readState sel s = answer v s := by
  unfold readState answerReg
  split
  · exact ⟨_, rfl⟩
  · split <;> exact ⟨_, rfl⟩
  · split <;> exact ⟨_, rfl⟩
  · exact ⟨_, rfl⟩

theorem readState_follows (sel : ReadSel) (s : State) : Follows s (readState sel s) := by
  obtain ⟨v, h⟩ := readState_eq sel s
  rw [h]
  exact answer_follows v s

theorem runCall_follows (c : SessionCall) (s : State) : Follows s (runCall c s) := by
  cases c with
  | raise n => exact raiseException_follows n s
  | registerCb d kind f => exact registerCb_follows d kind f s
  | injectPacket d bytes => exact injectPacket_follows d bytes s
  | setState d st => exact setRadioState_follows d st s
  | start d => exact timerStart_follows d s
  | stop d joins => exact timerStop_follows d joins s
  | setByAddress d a v => exact setByAddress_follows d a v s
  | setByName d name v => exact setByName_follows d name v s
  | rawWrite a bytes => exact rawWrite_follows a bytes s
  | hang => exact ⟨rfl, rfl, rfl, List.prefix_rfl, fun _ h => h, List.prefix_rfl, rfl, fun h => h, .inr rfl, fun _ _ _ => rfl⟩
  | rawRead a n => exact rawRead_follows a n s
  | read sel => exact readState_follows sel s
  | tick d => exact timerTick_follows d s

theorem runCalls_follows (cs : List SessionCall) : ∀ s, Follows s (runCalls cs s) := by
  induction cs with
  | nil => exact Follows.refl
  | cons c cs ih =>
    intro s
    unfold runCalls
    split
    · exact Follows.refl s
    · exact (runCall_follows c s).trans (ih _)

theorem invokeCallback_follows (f : Nat) (s : State) : Follows s (invokeCallback f s) := by
  unfold invokeCallback
  split
  · exact Follows.refl s
  · split
    · exact Follows.refl s
    · refine Follows.trans ?_ (runCalls_follows _ _)
      exact ⟨rfl, rfl, rfl, List.prefix_rfl, fun _ h => h, List.prefix_rfl, rfl, fun h => h, .inl rfl, fun _ _ _ => rfl⟩

/-- An invocation of a callback with nothing bound, or with its lists used up, makes no call (log 18). -/
theorem invokeCallback_none {s : State} {f : Nat} (h : ∀ c ∈ s.cbCode, c.id ≠ f) : invokeCallback f s = s := by
  unfold invokeCallback
  rw [List.find?_eq_none.2 (by simpa using h)]

/-- The entry of a handle that no entry before it has. -/
theorem cbCode_find {pre post : List CbCode} {c : CbCode} (h : ∀ e ∈ pre, e.id ≠ c.id) :
    (pre ++ c :: post).find? (fun e => e.id == c.id) = some c := by
  rw [List.find?_append, List.find?_eq_none.2 (by simpa using h)]
  simp

theorem invokeCallback_usedUp {s : State} {f : Nat} {pre post : List CbCode}
    (h : s.cbCode = pre ++ { id := f, runs := [] } :: post) (hp : ∀ c ∈ pre, c.id ≠ f) : invokeCallback f s = s := by
  unfold invokeCallback
  rw [h, cbCode_find (c := { id := f, runs := [] }) hp]

/-- An invocation takes the handle's next list of calls and runs it (R231, log 18). -/
theorem invokeCallback_run {s : State} {f : Nat} {run : List SessionCall} {runs : List (List SessionCall)}
    {pre post : List CbCode} (h : s.cbCode = pre ++ { id := f, runs := run :: runs } :: post)
    (hp : ∀ c ∈ pre ++ post, c.id ≠ f) :
    invokeCallback f s = runCalls run { s with cbCode := pre ++ { id := f, runs := runs } :: post } := by
  have keep : ∀ l : List CbCode, (∀ c ∈ l, c.id ≠ f) →
      (l.map fun e => if e.id == f then { e with runs := e.runs.tail } else e) = l := by
    intro l hl
    conv_rhs => rw [← List.map_id l]
    apply List.map_congr_left
    intro c hc
    rw [if_neg (by simpa using hl c hc)]
    rfl
  unfold invokeCallback
  rw [h, cbCode_find (c := { id := f, runs := run :: runs }) fun c hc => hp c (by simp [hc])]
  simp only [List.map_append, List.map_cons, beq_self_eq_true, if_true, List.tail_cons]
  rw [keep pre fun c hc => hp c (by simp [hc]), keep post fun c hc => hp c (by simp [hc])]

theorem clockHfclkstart_follows (d : Ident) (s : State) : Follows s (clockHfclkstart d s) := by
  unfold clockHfclkstart
  split
  · exact setByName_follows _ _ _ _
  · exact Follows.refl s

theorem gpioPins_follows (kind : PinKind) (d : Ident) (v : Word) (s : State) : Follows s (gpioPins kind d v s) := by
  unfold gpioPins
  split
  · exact emit_follows _ _
  · exact Follows.refl s

theorem radioTxen_follows (d : Ident) (s : State) : Follows s (radioTxen d s) := by
  unfold radioTxen
  split
  · exact Follows.refl s
  · split
    · dsimp only
      split
      · exact emit_follows _ _
      · split
        · exact raiseFatal_follows _ _
        · split
          · exact raiseFatal_follows _ _
          · split
            · exact Follows.refl s
            · exact (emit_follows _ _).trans (invokeCallback_follows _ _)
    · exact Follows.refl s

theorem radioRxen_follows (d : Ident) (s : State) : Follows s (radioRxen d s) := by
  unfold radioRxen
  split
  · exact Follows.refl s
  · split
    · exact (emit_follows _ _).trans (invokeCallback_follows _ _)
    · exact Follows.refl s

theorem sideEffect_follows (kind : DevKind) (d name : Ident) (v : Word) (s : State) :
    Follows s (sideEffect kind d name v s) := by
  unfold sideEffect
  cases kind <;> dsimp only
  · split
    · exact clockHfclkstart_follows _ _
    · exact Follows.refl s
  · split
    · exact gpioPins_follows _ _ _ _
    · split
      · exact gpioPins_follows _ _ _ _
      · exact Follows.refl s
  · exact Follows.refl s
  · split
    · exact radioTxen_follows _ _
    · split
      · exact radioRxen_follows _ _
      · exact Follows.refl s
  · split
    · exact timerCapture_follows _ _ _
    · exact Follows.refl s

theorem deviceWrite_follows (d : Ident) (a v : Word) (s : State) : Follows s (deviceWrite d a v s) := by
  unfold deviceWrite
  split
  · exact Follows.refl s
  · split
    · exact setByAddress_follows _ _ _ _
    · exact (setByAddress_follows _ _ _ _).trans (sideEffect_follows _ _ _ _ _)

theorem overwriteBacking_wf (mapped : List Region) (a v : Word) (m : Memory) (h : m.wf = true) :
    (overwriteBacking mapped a v m).wf = true := by
  unfold overwriteBacking
  have key : ∀ (l : List Nat) (m : Memory), m.wf = true →
      (l.foldl (fun acc i =>
        if isMapped mapped (a + BitVec.ofNat 32 i) then acc.memWrite (a + BitVec.ofNat 32 i) 1 (v >>> (8 * i))
        else acc) m).wf = true := by
    intro l
    induction l with
    | nil => intro m h; exact h
    | cons i l ih =>
      intro m h
      apply ih
      dsimp only
      split
      · exact Memory.wf_memWrite _ _ _ _ h
      · exact h
  exact key _ m h

theorem backingAfterRead_wf (a : Word) (s : State) (h : s.mem.wf = true) : (backingAfterRead a s).wf = true := by
  unfold backingAfterRead
  split
  · exact h
  · split
    · exact h
    · exact overwriteBacking_wf _ _ _ _ h

theorem busRead_follows (a : Word) (n : Nat) (s : State) : Follows s (busRead a n s) := by
  unfold busRead
  split
  · exact raiseFatal_follows _ _
  · split
    · exact raiseFatal_follows _ _
    · exact (setMem_follows _ s (backingAfterRead_wf a s)).trans (answer_follows _ _)

theorem ownerWrite_follows (a v : Word) (s : State) : Follows s (ownerWrite a v s) := by
  unfold ownerWrite
  split
  · exact Follows.refl s
  · exact deviceWrite_follows _ _ _ _

theorem landBytes_follows (a : Word) (n : Nat) (v : Word) (s : State) : Follows s (landBytes a n v s) := by
  unfold landBytes
  split
  · exact Follows.refl s
  · exact setMem_follows _ s fun h => Memory.wf_memWrite _ _ _ _ h

theorem busWrite_follows (a : Word) (n : Nat) (v : Word) (s : State) : Follows s (busWrite a n v s) := by
  unfold busWrite
  split
  · exact raiseFatal_follows _ _
  · split
    · exact raiseFatal_follows _ _
    · exact (ownerWrite_follows _ _ _).trans (landBytes_follows _ _ _ _)

theorem stopTimers_follows (orphans ids : List Ident) : ∀ s, Follows s (stopTimers orphans ids s) := by
  induction ids with
  | nil => exact Follows.refl
  | cons d rest ih => intro s; exact (timerStop_follows _ _ _).trans (ih _)

theorem endRun_follows (orphans : List Ident) (s : State) : Follows { s with thread := .halted } (endRun orphans s) :=
  stopTimers_follows _ _ _

/-! ### Session start -/

/-- The device that R280 step 3 builds from an instance of DEVICES. -/
def builtDevice (d : DevSpec) : Device := { id := d.id, body := freshBody d.kind, regs := freshRegs d.regs }

/-- Everything R280 step 3 can do: every device built, or those before the first with a repeated register and its error. -/
theorem constructAll_cases (ds : List DevSpec) : ∀ s : State,
    ((∀ d ∈ ds, duplicateIn d.regs = none) ∧
      constructAll ds s = { s with devices := s.devices ++ ds.map builtDevice }) ∨
    (∃ pre d post w, ds = pre ++ d :: post ∧ (∀ e ∈ pre, duplicateIn e.regs = none) ∧ duplicateIn d.regs = some w ∧
      constructAll ds s =
        raiseFatal (.duplicateRegister d.id w) { s with devices := s.devices ++ pre.map builtDevice }) := by
  induction ds with
  | nil => intro s; exact .inl ⟨by simp, by simp [constructAll]⟩
  | cons d ds ih =>
    intro s
    cases hd : duplicateIn d.regs with
    | some w => exact .inr ⟨[], d, ds, w, rfl, by simp, hd, by simp [constructAll, buildDevice, hd]⟩
    | none =>
      have he : constructAll (d :: ds) s = constructAll ds { s with devices := s.devices ++ [builtDevice d] } := by
        simp [constructAll, buildDevice, hd, builtDevice]
      rw [he]
      rcases ih { s with devices := s.devices ++ [builtDevice d] } with ⟨h, e⟩ | ⟨pre, x, post, w, rfl, h, hw, e⟩
      · exact .inl ⟨by simpa [hd] using h, by rw [e]; simp⟩
      · exact .inr ⟨d :: pre, x, post, w, rfl, by simpa [hd] using h, hw, by rw [e]; simp⟩

/-- What `parse` does to an image that is long enough (R147). -/
theorem parseImage_of_long {image : List Byte} (s : State) (h : 72 ≤ image.length) :
    parseImage image s = { s with vt := VectorTable.ofWords (imageWord image) } := by
  unfold parseImage Config.imageHeaderBytes
  rw [if_neg (by omega)]

/-- Everything `session_start` can do where no fatal error is present (R280): a short image, a repeated identifier, a device
with a repeated register, or the state of R286. -/
theorem sessionStart_cases (image : List Byte) (devs : List DevSpec) (plat : Platform) (s : State)
    (hf : s.fatal = none) :
    (image.length < 72 ∧
      sessionStart image devs plat s = { s with fatal := some (.imageTooShort image.length) }) ∨
    (∃ id, 72 ≤ image.length ∧ firstRepeat (devs.map (·.id)) = some id ∧
      sessionStart image devs plat s = { s with
        vt := VectorTable.ofWords (imageWord image), fatal := some (.duplicateRegister id .identify) }) ∨
    (∃ pre d post w, 72 ≤ image.length ∧ firstRepeat (devs.map (·.id)) = none ∧ devs = pre ++ d :: post ∧
      (∀ e ∈ pre, duplicateIn e.regs = none) ∧ duplicateIn d.regs = some w ∧
      sessionStart image devs plat s = { s with
        vt := VectorTable.ofWords (imageWord image), devices := pre.map builtDevice, named := []
        params := { s.params with hwDb := plat.hwDb }, fatal := some (.duplicateRegister d.id w) }) ∨
    (72 ≤ image.length ∧ firstRepeat (devs.map (·.id)) = none ∧ (∀ d ∈ devs, duplicateIn d.regs = none) ∧
      sessionStart image devs plat s = { s with
        vt := VectorTable.ofWords (imageWord image), devices := devs.map builtDevice, named := [], pend := [], afs := []
        fatal := none, log := [], cpu := launchCpu plat.launch (VectorTable.ofWords (imageWord image))
        mem := launchMem plat.launch
        params := { s.params with hwDb := plat.hwDb, mapped := plat.launch.mapped, irqMap := plat.irqMap }, thread := .ready, cbCode := [] }) := by
  by_cases h72 : image.length < 72
  · exact .inl ⟨h72, by simp [sessionStart, Config.imageHeaderBytes, h72, raiseFatal_of_none hf]⟩
  · have h72' : 72 ≤ image.length := by omega
    right
    unfold sessionStart
    rw [Config.imageHeaderBytes, if_neg h72, parseImage_of_long s h72']
    cases hid : firstRepeat (devs.map (·.id)) with
    | some id => exact .inl ⟨id, h72', rfl, raiseFatal_of_none hf⟩
    | none =>
      right
      rcases constructAll_cases devs { s with
          vt := VectorTable.ofWords (imageWord image), devices := [], named := [], params := { s.params with hwDb := plat.hwDb } } with
        ⟨h, e⟩ | ⟨pre, d, post, w, hs, h, hw, e⟩
      · refine .inr ⟨h72', rfl, h, (congrArg (fun s2 : State => if s2.fatal.isSome then s2 else { s2 with
          pend := [], afs := [], fatal := none, log := [], cpu := launchCpu plat.launch s2.vt, mem := launchMem plat.launch
          params := { s2.params with mapped := plat.launch.mapped, irqMap := plat.irqMap }, thread := .ready, cbCode := [] }) e).trans ?_⟩
        simp [hf]
      · refine .inl ⟨pre, d, post, w, h72', rfl, hs, h, hw, (congrArg (fun s2 : State => if s2.fatal.isSome then s2 else { s2 with
          pend := [], afs := [], fatal := none, log := [], cpu := launchCpu plat.launch s2.vt, mem := launchMem plat.launch
          params := { s2.params with mapped := plat.launch.mapped, irqMap := plat.irqMap }, thread := .ready, cbCode := [] }) e).trans ?_⟩
        rw [raiseFatal_of_none (by exact hf)]
        simp

end Sys2Proof.Machine
end

