-- ==== Sys2Proof/Laws/PerInstr.lean ====
section
/-! SUPPORT. Lemmas made per operation. `StartsWithRow`: the packet of an operation starts with the number of its row,
and the decoder has a reader of operands for that number. -/

namespace Sys2Proof.Laws.StartsWithRow

/-- The packet of `i` is a row's number and operands, and the table has a reader for that number. -/
def Statement (i : Instr) : Prop := ∃ t body rd, encode i = t :: body ∧ rdOperands t.toNat = some rd

theorem icRaise (n : Nat) : Statement (.icRaise n) := ⟨_, _, _, rfl, rfl⟩

theorem icBoundary : Statement .icBoundary := ⟨_, _, _, rfl, rfl⟩

theorem icEnter (n : Nat) : Statement (.icEnter n) := ⟨_, _, _, rfl, rfl⟩

theorem vtLookup (n : Nat) : Statement (.vtLookup n) := ⟨_, _, _, rfl, rfl⟩

theorem vtParse (image : List Byte) : Statement (.vtParse image) := ⟨_, _, _, rfl, rfl⟩

theorem icBlockEntry (a : Word) : Statement (.icBlockEntry a) := ⟨_, _, _, rfl, rfl⟩

theorem icReturn : Statement .icReturn := ⟨_, _, _, rfl, rfl⟩

theorem icNonmatch (a : Word) : Statement (.icNonmatch a) := ⟨_, _, _, rfl, rfl⟩

theorem icEncode (spsel fpca : Bool) : Statement (.icEncode spsel fpca) := ⟨_, _, _, rfl, rfl⟩

theorem icDecode (v : Word) : Statement (.icDecode v) := ⟨_, _, _, rfl, rfl⟩

theorem mmioLookup (a : Word) : Statement (.mmioLookup a) := ⟨_, _, _, rfl, rfl⟩

theorem mmioRead (a : Word) (n : Nat) : Statement (.mmioRead a n) := ⟨_, _, _, rfl, rfl⟩

theorem mmioWrite (a : Word) (n : Nat) (v : Word) : Statement (.mmioWrite a n v) := ⟨_, _, _, rfl, rfl⟩

theorem rfConstruct (dev : Ident) (regs : List (Ident × Word)) : Statement (.rfConstruct dev regs) := ⟨_, _, _, rfl, rfl⟩

theorem rfByName (dev name : Ident) : Statement (.rfByName dev name) := ⟨_, _, _, rfl, rfl⟩

theorem rfByAddr (dev : Ident) (a : Word) : Statement (.rfByAddr dev a) := ⟨_, _, _, rfl, rfl⟩

theorem rfSetByAddr (dev : Ident) (a : Word) (v : Nat) : Statement (.rfSetByAddr dev a v) := ⟨_, _, _, rfl, rfl⟩

theorem rfSetByName (dev name : Ident) (v : Nat) : Statement (.rfSetByName dev name v) := ⟨_, _, _, rfl, rfl⟩

theorem rfBit (dev name : Ident) (n : Nat) : Statement (.rfBit dev name n) := ⟨_, _, _, rfl, rfl⟩

theorem rfBitRange (dev name : Ident) (first last : Nat) : Statement (.rfBitRange dev name first last) := ⟨_, _, _, rfl, rfl⟩

theorem devIdentify (d : Ident) : Statement (.devIdentify d) := ⟨_, _, _, rfl, rfl⟩

theorem devRead (d : Ident) (a : Word) : Statement (.devRead d a) := ⟨_, _, _, rfl, rfl⟩

theorem devWrite (d : Ident) (a : Word) (v : Word) : Statement (.devWrite d a v) := ⟨_, _, _, rfl, rfl⟩

theorem clockHfclkstart (d : Ident) (v : Word) : Statement (.clockHfclkstart d v) := ⟨_, _, _, rfl, rfl⟩

theorem gpioOutset (d : Ident) (v : Word) : Statement (.gpioOutset d v) := ⟨_, _, _, rfl, rfl⟩

theorem gpioOutclr (d : Ident) (v : Word) : Statement (.gpioOutclr d v) := ⟨_, _, _, rfl, rfl⟩

theorem radioTxen (d : Ident) (v : Word) : Statement (.radioTxen d v) := ⟨_, _, _, rfl, rfl⟩

theorem radioRxen (d : Ident) (v : Word) : Statement (.radioRxen d v) := ⟨_, _, _, rfl, rfl⟩

theorem radioInject (d : Ident) (bytes : List Byte) : Statement (.radioInject d bytes) := ⟨_, _, _, rfl, rfl⟩

theorem radioSetState (d : Ident) (st : RadioState) : Statement (.radioSetState d st) := ⟨_, _, _, rfl, rfl⟩

theorem radioRegCb (d : Ident) (kind : CbKind) (f : Nat) : Statement (.radioRegCb d kind f) := ⟨_, _, _, rfl, rfl⟩

theorem timerStart (d : Ident) : Statement (.timerStart d) := ⟨_, _, _, rfl, rfl⟩

theorem timerStop (d : Ident) (joins : Bool) : Statement (.timerStop d joins) := ⟨_, _, _, rfl, rfl⟩

theorem timerTick (d : Ident) : Statement (.timerTick d) := ⟨_, _, _, rfl, rfl⟩

theorem timerCapture (d : Ident) (k : Nat) : Statement (.timerCapture d k) := ⟨_, _, _, rfl, rfl⟩

theorem sessionStart (image : List Byte) (devs : List DevSpec) (plat : Platform) : Statement (.sessionStart image devs plat) := ⟨_, _, _, rfl, rfl⟩

theorem sessionDeadline (orphans : List Ident) : Statement (.sessionDeadline orphans) := ⟨_, _, _, rfl, rfl⟩

end Sys2Proof.Laws.StartsWithRow
end

