-- ==== Sys2Proof/Tests/Slice0.lean ====
section
/-! SUPPORT. The model's own tests. Expected values are those of spec/95_test_vectors.md (V<n>, or the section's number),
of the rules' examples, or worked out by hand from the rule named. Then one witness per statement with hypotheses: a
concrete state and operands that meet them. -/

-- One theorem at a time: each waits for its evaluation on a thread of its own otherwise.
set_option Elab.async false

namespace Sys2Proof.Tests

open Sys2Proof.Machine

/-- A launch draw: R0 = 1, FPSCR = 2, one byte of memory, one mapped page. -/
def launchVec : Launch :=
  { r0 := 1, r1 := 0, r2 := 0, r3 := 0, r12 := 0, lr := 0, psp := 0, xpsr := 0x010001FF
    fp := List.replicate 16 0 ++ [2], mem := [(0x300, [0xFE])], mapped := [{ base := 0, size := 0x1000 }] }

/-! ### WellFormed: each check refuses an ill-formed term -/

theorem test_natFits_refuses : Instr.wellFormed (.icRaise (2 ^ 64)) = false := by decide
theorem test_natFits_enter_refuses : Instr.wellFormed (.icEnter (2 ^ 64)) = false := by decide
theorem test_natFits_lookup_refuses : Instr.wellFormed (.vtLookup (2 ^ 64)) = false := by decide
theorem test_natFits_read_refuses : Instr.wellFormed (.mmioRead 0 (2 ^ 64)) = false := by decide
theorem test_valueFits_byte_refuses : Instr.wellFormed (.mmioWrite 0 1 0x100#32) = false := by decide
theorem test_valueFits_half_refuses : Instr.wellFormed (.mmioWrite 0 2 0x10000#32) = false := by decide
theorem test_valueFits_size_refuses : Instr.wellFormed (.mmioWrite 0 (2 ^ 64) 0#32) = false := by decide
theorem test_natFits_setByAddr_refuses : Instr.wellFormed (.rfSetByAddr [] 0 (2 ^ 64)) = false := by decide
theorem test_natFits_setByName_refuses : Instr.wellFormed (.rfSetByName [] [] (2 ^ 64)) = false := by decide
theorem test_natFits_bit_refuses : Instr.wellFormed (.rfBit [] [] (2 ^ 64)) = false := by decide
theorem test_natFits_first_refuses : Instr.wellFormed (.rfBitRange [] [] (2 ^ 64) 0) = false := by decide
theorem test_natFits_last_refuses : Instr.wellFormed (.rfBitRange [] [] 0 (2 ^ 64)) = false := by decide
theorem test_natFits_callback_refuses : Instr.wellFormed (.radioRegCb [] .tx (2 ^ 64)) = false := by decide
theorem test_slot_refuses : Instr.wellFormed (.timerCapture [] 6) = false := by decide

/-- A list that is too long for a packet, and each check of a length on one. -/
theorem test_tooLong_exists : ∃ l : List Byte, l.length = 2 ^ 32 := ⟨List.replicate (2 ^ 32) 0, List.length_replicate⟩

theorem test_lenFits_refuses (l : List Byte) (h : l.length = 2 ^ 32) : lenFits l = false := by simp [lenFits, h]

theorem test_image_refuses (l : List Byte) (h : lenFits l = false) : Instr.wellFormed (.vtParse l) = false := h

theorem test_id_refuses (l : Ident) (h : lenFits l = false) : Instr.wellFormed (.devIdentify l) = false := h

theorem test_name_refuses (l : Ident) (h : lenFits l = false) : Instr.wellFormed (.rfByName [] l) = false := by
  simp [Instr.wellFormed, h]

theorem test_regsFit_refuses (l : Ident) (h : lenFits l = false) : Instr.wellFormed (.rfConstruct [] [(l, 0)]) = false := by
  simp [Instr.wellFormed, regsFit, h]

theorem test_specFits_refuses (l : Ident) (h : lenFits l = false) :
    Instr.wellFormed (.sessionStart [] [{ id := l, kind := .rtc, regs := [] }] { hwDb := [], irqMap := [], launch := launchVec }) = false := by
  simp [Instr.wellFormed, DevSpec.fits, h]

/-- R39, R111: a Timer without its registers. -/
theorem test_required_refuses :
    Instr.wellFormed (.sessionStart [] [{ id := [], kind := .timer, regs := [] }] { hwDb := [], irqMap := [], launch := launchVec }) = false := by decide +kernel

theorem test_launch_fp_refuses : Instr.wellFormed (.sessionStart [] [] { hwDb := [], irqMap := [], launch := { launchVec with fp := [] } }) = false := by decide +kernel

theorem test_launch_region_refuses :
    Instr.wellFormed (.sessionStart [] [] { hwDb := [], irqMap := [], launch := { launchVec with mapped := [{ base := 0, size := 2 ^ 64 }] } }) = false := by
  decide +kernel

theorem test_launch_block_refuses (l : List Byte) (h : lenFits l = false) :
    Instr.wellFormed (.sessionStart [] [] { hwDb := [], irqMap := [], launch := { launchVec with mem := [(0, l)] } }) = false := by
  simp [Instr.wellFormed, Platform.fits, Launch.fits, h]

theorem test_entryFits_refuses (l : Ident) (h : lenFits l = false) :
    Instr.wellFormed (.sessionStart [] [] { hwDb := [{ addr := 0, name := l, devId := [] }], irqMap := [], launch := launchVec }) = false := by
  simp [Instr.wellFormed, Platform.fits, HwEntry.fits, h]

theorem test_irqMap_refuses :
    Instr.wellFormed (.sessionStart [] [] { hwDb := [], irqMap := [(0, 2 ^ 64)], launch := launchVec }) = false := by
  decide +kernel

theorem test_idsFit_refuses (l : Ident) (h : lenFits l = false) : Instr.wellFormed (.sessionDeadline [l]) = false := by
  simp [Instr.wellFormed, idsFit, h]

/-! ### Decode: a packet written out for every operation (log 2: the row's number, then the operands, little-endian) -/

theorem test_decode_icRaise : decode [1, 17, 0, 0, 0, 0, 0, 0, 0] = .ok (.icRaise 17) := by decide
theorem test_decode_icBoundary : decode [2] = .ok .icBoundary := by decide
theorem test_decode_icEnter : decode [3, 0, 1, 0, 0, 0, 0, 0, 0] = .ok (.icEnter 256) := by decide
theorem test_decode_vtLookup : decode [4, 7, 0, 0, 0, 0, 0, 0, 0] = .ok (.vtLookup 7) := by decide
theorem test_decode_vtParse : decode [5, 3, 0, 0, 0, 0x10, 0x20, 0x30] = .ok (.vtParse [0x10, 0x20, 0x30]) := by decide
theorem test_decode_icBlockEntry : decode [6, 0xF8, 0xFF, 0xFF, 0xFF] = .ok (.icBlockEntry 0xFFFFFFF8#32) := by decide
theorem test_decode_icReturn : decode [7] = .ok .icReturn := by decide
theorem test_decode_icNonmatch : decode [8, 0x02, 0x03, 0, 0] = .ok (.icNonmatch 0x302#32) := by decide
theorem test_decode_icEncode : decode [9, 1, 0] = .ok (.icEncode true false) := by decide
theorem test_decode_icDecode : decode [10, 0xE9, 0xFF, 0xFF, 0xFF] = .ok (.icDecode 0xFFFFFFE9#32) := by decide
theorem test_decode_mmioLookup : decode [11, 0, 1, 0, 0x40] = .ok (.mmioLookup 0x40000100#32) := by decide
theorem test_decode_mmioRead : decode [12, 0, 1, 0, 0x40, 4, 0, 0, 0, 0, 0, 0, 0] = .ok (.mmioRead 0x40000100#32 4) := by decide
theorem test_decode_mmioWrite :
    decode [13, 8, 5, 0, 0x50, 2, 0, 0, 0, 0, 0, 0, 0, 0x34, 0x12, 0, 0] = .ok (.mmioWrite 0x50000508#32 2 0x1234#32) := by decide
theorem test_decode_rfConstruct :
    decode [14, 1, 0, 0, 0, 0x43, 1, 0, 0, 0, 1, 0, 0, 0, 0x58, 4, 1, 0, 0] = .ok (.rfConstruct [0x43] [([0x58], 0x104#32)]) := by
  decide
theorem test_decode_rfByName : decode [15, 1, 0, 0, 0, 0x43, 1, 0, 0, 0, 0x41] = .ok (.rfByName [0x43] [0x41]) := by decide
theorem test_decode_rfByAddr : decode [16, 1, 0, 0, 0, 0x43, 1, 1, 0, 0] = .ok (.rfByAddr [0x43] 0x101#32) := by decide
theorem test_decode_rfSetByAddr :
    decode [17, 1, 0, 0, 0, 0x43, 0, 1, 0, 0, 5, 0, 0, 0, 1, 0, 0, 0] = .ok (.rfSetByAddr [0x43] 0x100#32 0x100000005) := by decide
theorem test_decode_rfSetByName :
    decode [18, 1, 0, 0, 0, 0x43, 1, 0, 0, 0, 0x42, 7, 0, 0, 0, 0, 0, 0, 0] = .ok (.rfSetByName [0x43] [0x42] 7) := by decide
theorem test_decode_rfBit :
    decode [19, 1, 0, 0, 0, 0x43, 1, 0, 0, 0, 0x41, 31, 0, 0, 0, 0, 0, 0, 0] = .ok (.rfBit [0x43] [0x41] 31) := by decide
theorem test_decode_rfBitRange :
    decode [20, 1, 0, 0, 0, 0x43, 1, 0, 0, 0, 0x41, 8, 0, 0, 0, 0, 0, 0, 0, 15, 0, 0, 0, 0, 0, 0, 0] =
      .ok (.rfBitRange [0x43] [0x41] 8 15) := by decide
theorem test_decode_devIdentify : decode [21, 2, 0, 0, 0, 0x43, 0x44] = .ok (.devIdentify [0x43, 0x44]) := by decide
theorem test_decode_devRead : decode [22, 1, 0, 0, 0, 0x43, 0, 1, 0, 0x40] = .ok (.devRead [0x43] 0x40000100#32) := by decide
theorem test_decode_devWrite :
    decode [23, 1, 0, 0, 0, 0x43, 0, 0, 0, 0x40, 1, 0, 0, 0x80] = .ok (.devWrite [0x43] 0x40000000#32 0x80000001#32) := by decide
theorem test_decode_clockHfclkstart : decode [24, 1, 0, 0, 0, 0x43, 1, 0, 0, 0] = .ok (.clockHfclkstart [0x43] 1#32) := by decide
theorem test_decode_gpioOutset : decode [25, 1, 0, 0, 0, 0x47, 5, 0, 0, 0] = .ok (.gpioOutset [0x47] 5#32) := by decide
theorem test_decode_gpioOutclr : decode [26, 1, 0, 0, 0, 0x47, 1, 0, 0, 0x80] = .ok (.gpioOutclr [0x47] 0x80000001#32) := by decide
theorem test_decode_radioTxen : decode [27, 1, 0, 0, 0, 0x52, 1, 0, 0, 0] = .ok (.radioTxen [0x52] 1#32) := by decide
theorem test_decode_radioRxen : decode [28, 1, 0, 0, 0, 0x52, 2, 0, 0, 0] = .ok (.radioRxen [0x52] 2#32) := by decide
theorem test_decode_radioInject :
    decode [29, 1, 0, 0, 0, 0x52, 2, 0, 0, 0, 0x10, 0x20] = .ok (.radioInject [0x52] [0x10, 0x20]) := by decide
theorem test_decode_radioSetState : decode [30, 1, 0, 0, 0, 0x52, 6] = .ok (.radioSetState [0x52] .txIdle) := by decide
theorem test_decode_radioRegCb :
    decode [31, 1, 0, 0, 0, 0x52, 1, 9, 0, 0, 0, 0, 0, 0, 0] = .ok (.radioRegCb [0x52] .rx 9) := by decide
theorem test_decode_timerStart : decode [32, 1, 0, 0, 0, 0x54] = .ok (.timerStart [0x54]) := by decide
theorem test_decode_timerStop : decode [33, 1, 0, 0, 0, 0x54, 1] = .ok (.timerStop [0x54] true) := by decide
theorem test_decode_timerTick : decode [34, 1, 0, 0, 0, 0x54] = .ok (.timerTick [0x54]) := by decide
theorem test_decode_timerCapture : decode [35, 1, 0, 0, 0, 0x54, 5, 0, 0, 0, 0, 0, 0, 0] = .ok (.timerCapture [0x54] 5) := by decide
theorem test_decode_sessionStart :
    decode ([36, 1, 0, 0, 0, 0xAA, 1, 0, 0, 0, 1, 0, 0, 0, 0x43, 2, 1, 0, 0, 0, 1, 0, 0, 0, 0x58, 4, 1, 0, 0,
      1, 0, 0, 0, 0, 1, 0, 0x40, 1, 0, 0, 0, 0x58, 1, 0, 0, 0, 0x43] ++
      [1, 0, 0, 0, 2, 0, 0, 0, 0, 0, 0, 0, 17, 0, 0, 0, 0, 0, 0, 0] ++
      ([1, 0, 0, 0] ++ List.replicate 24 0 ++ [0xFF, 1, 0, 1] ++ List.replicate 64 0 ++ [2, 0, 0, 0]) ++
      [1, 0, 0, 0, 0, 3, 0, 0, 1, 0, 0, 0, 0xFE] ++ [1, 0, 0, 0, 0, 0, 0, 0, 0, 0, 0, 0, 0, 0x10, 0, 0, 0, 0, 0, 0]) =
    .ok (.sessionStart [0xAA] [{ id := [0x43], kind := .rtc, regs := [([0x58], 0x104#32)] }]
      { hwDb := [{ addr := 0x40000100#32, name := [0x58], devId := [0x43] }], irqMap := [(2, 17)], launch := launchVec }) := by decide +kernel
theorem test_decode_sessionDeadline : decode [37, 1, 0, 0, 0, 1, 0, 0, 0, 0x54] = .ok (.sessionDeadline [[0x54]]) := by decide

/-- Each reason a packet is refused for. -/
theorem test_decode_empty : decode [] = .bad .emptyPacket := by decide
theorem test_decode_unknown : decode [0] = .bad (.unknownOperation 0) := by decide
theorem test_decode_past_table : decode [38] = .bad (.unknownOperation 38) := by decide
theorem test_decode_short : decode [1, 17] = .bad (.malformedOperands 1) := by decide
theorem test_decode_bool : decode [9, 2, 0] = .bad (.malformedOperands 9) := by decide
theorem test_decode_trailing : decode [7, 0] = .bad (.trailingBytes 7) := by decide
theorem test_decode_slot_six : decode [35, 0, 0, 0, 0, 6, 0, 0, 0, 0, 0, 0, 0] = .bad (.illFormed 35) := by decide

theorem test_event_hwIrq : decodeArrival [0x80, 2, 0, 0, 0, 0, 0, 0, 0] = .ok (.hwIrq 2) := by decide
theorem test_event_regWrite : decodeArrival [0x81, 5, 1, 2, 0, 0] = .ok (.regWrite .lr 0x201#32) := by decide
theorem test_event_rawRead : decodeArrival [0x82, 0, 3, 0, 0, 2, 0, 0, 0] = .ok (.rawRead 0x300#32 2) := by decide
theorem test_event_rawWrite : decodeArrival [0x83, 0, 3, 0, 0, 1, 0, 0, 0, 0xFE] = .ok (.rawWrite 0x300#32 [0xFE]) := by decide
theorem test_event_halt : decodeArrival [0x84, 1, 0, 0, 0, 0] = .ok (.halt .termination []) := by decide
theorem test_event_bind :
    decodeArrival [0x85, 9, 0, 0, 0, 0, 0, 0, 0, 1, 0, 0, 0, 2, 0, 0, 0, 1, 17, 0, 0, 0, 0, 0, 0, 0, 10] =
      .ok (.bindCallback 9 [[.raise 17, .hang]]) := by decide
/-- The callback calls that are a raw read, a reading of state and a tick. -/
theorem test_event_bind_reads :
    decodeArrival [0x85, 1, 0, 0, 0, 0, 0, 0, 0, 1, 0, 0, 0, 3, 0, 0, 0, 11, 0, 3, 0, 0, 2, 0, 0, 0, 12, 1, 5,
      13, 1, 0, 0, 0, 0x54] =
      .ok (.bindCallback 1 [[.rawRead 0x300#32 2, .read (.reg .lr), .tick [0x54]]]) := by decide
theorem test_event_run : decodeArrival [0x86, 9, 0, 0, 0, 0, 0, 0, 0] = .ok (.run 9) := by decide
theorem test_event_nameDevices :
    decodeArrival [0x87, 1, 0, 0, 0, 1, 0, 0, 0, 0x54, 4, 1, 0, 0, 0, 0, 1, 0, 0x40, 1, 0, 0, 0, 0x58, 1, 0, 0, 0, 0x54] =
      .ok (.nameDevices [([0x54], .timer)] [{ addr := 0x40000100#32, name := [0x58], devId := [0x54] }]) := by decide
theorem test_event_teardown : decodeArrival [0x88, 1, 0, 0, 0, 1, 0, 0, 0, 0x54] = .ok (.teardown [[0x54]]) := by decide
theorem test_event_read_mem : decodeArrival [0x89, 2, 0, 3, 0, 0, 4, 0, 0, 0] = .ok (.read (.mem 0x300#32 4)) := by decide
theorem test_event_read_register :
    decodeArrival [0x89, 3, 1, 0, 0, 0, 0x43, 1, 0, 0, 0, 0x41] = .ok (.read (.devReg [0x43] [0x41])) := by decide
theorem test_event_read_log : decodeArrival [0x89, 4] = .ok (.read .log) := by decide
theorem test_arrival_op : decodeArrival [7] = .ok (.op .icReturn) := by decide

/-- The table's own words (log 3). -/
theorem test_table_return : decodeTableWord 32 0xFFFFFF00 = some .icReturn := by decide
theorem test_table_decode : decodeTableWord 32 0xFFFFFFED = some (.icDecode 0xFFFFFFED#32) := by decide
theorem test_table_nonmatch : decodeTableWord 32 0x302 = some (.icNonmatch 0x302#32) := by decide
theorem test_table_capture : decodeTableWord 8 5 = some (.timerCapture tableTimer 5) := by decide
theorem test_table_slot_six : decodeTableWord 8 6 = none := by decide

/-! ### States of spec/95_test_vectors.md section 0 -/

/-- The state an operation leads to. -/
def run (i : Instr) (s : State) : State :=
  match exec i s with
  | .next t => t
  | _ => s

/-- E0's vector table. -/
def e0Table : VectorTable :=
  { VectorTable.ofWords (fun n => if n = 17 then 0x401 else if n = 16 then 0x501 else if n = 7 then 0 else 0x601) with
    initialSp := 0x20001000, reset := 0x300 }

def e0Mapped : List Region := [{ base := 0, size := 0x1000 }, { base := 0x20000000, size := 0x2000 }]

/-- E0, with the FP values. -/
def e0Cpu : Cpu :=
  { r0 := 0x11, r1 := 0x22, r2 := 0x33, r3 := 0x44, r12 := 0xCC, lr := 0x201, pc := 0x300, xpsr := 0x01000000,
    msp := 0x20001000, psp := 0x20000800, control := 0,
    fp := FpRegs.ofWords fun k => if k = 16 then 0x03C00000 else BitVec.ofNat 32 (0x40000000 + k) }

def e0 : State :=
  { State.reset with
    cpu := e0Cpu, vt := e0Table, params := { Params.launch with mapped := e0Mapped }, thread := .running }

/-- E0 with a CONTROL. -/
def e0c (c : Word) : State := { e0 with cpu := { e0Cpu with control := c } }

/-- E0 with an MSP. -/
def e0m (m : Word) : State := { e0 with cpu := { e0Cpu with msp := m } }

/-- V2.3a with an LR and an MSP of the handler's. -/
def handler (s : State) (lr msp : Word) : State := { s with cpu := { s.cpu with lr := lr, msp := msp } }

/-- E0 after enter(17): V2.3a. -/
def e0in : State := run (.icEnter 17) e0

def idClock : Ident := [0x43]
def idGpio : Ident := [0x47]
def idRadio : Ident := [0x52]
def idTimer : Ident := tableTimer
def idRtc : Ident := [0x50]
def nmA : Ident := [0x41]
def nmB : Ident := [0x42]

def regsOf (l : List (Ident × Word)) : List Reg := freshRegs l

def clockDev : Device :=
  { id := idClock, body := .clock, regs := regsOf [(nmTasksHfclkstart, 0x40000000), (nmEventsHfclkstarted, 0x40000100)] }

def gpioDev : Device := { id := idGpio, body := .gpio, regs := regsOf [(nmOutset, 0x50000508), (nmOutclr, 0x5000050C)] }

/-- The Radio of E3 with a PACKETPTR and callbacks. -/
def radioDev (p : Word) (tx rx : Option Nat) : Device :=
  { id := idRadio, body := .radio .disabled tx rx
    regs := [⟨nmTasksTxen, 0x40001000, 0⟩, ⟨nmTasksRxen, 0x40001004, 0⟩, ⟨nmPacketptr, 0x40001504, p⟩, ⟨nmState, 0x40001550, 0⟩] }

/-- The registers of Timer0 of E3: TASKS_CAPTURE[2] at 0x40008048, CC[0] at 0x40008540. -/
def timerRegs : List (Ident × Word) :=
  [(nmTasksStart, 0x40008000), (nmTasksStop, 0x40008004)] ++
    (List.range 6).map (fun k => (nmTasksCapture k, 0x40008040 + BitVec.ofNat 32 (4 * k))) ++
    (List.range 6).map (fun k => (nmCc k, 0x40008540 + BitVec.ofNat 32 (4 * k)))

/-- Timer0 of E3 with a counter. -/
def timerDev (c : Nat) (r : Bool) : Device := { id := idTimer, body := .timer c r, regs := regsOf timerRegs }

/-- E2, as the RTC's RegisterFile: A@0x100 = 0xABCD1234, B@0x104 = 0. -/
def rtcDev : Device := { id := idRtc, body := .rtc, regs := [⟨nmA, 0x100, 0xABCD1234⟩, ⟨nmB, 0x104, 0⟩] }

def entriesOf (d : Device) : List HwEntry := d.regs.map fun r => { addr := r.addr, name := r.name, devId := d.id }

/-- E3 (and E2) with a Radio and a Timer of choice. -/
def e3 (radio timer : Device) : State :=
  { e0 with
    devices := [clockDev, gpioDev, radio, timer, rtcDev]
    params := { e0.params with
      mapped := e0Mapped ++ [{ base := 0x40000000, size := 0x9000 }, { base := 0x50000000, size := 0x1000 }]
      hwDb := { addr := 0x40003000, name := [0x53], devId := [0x55] } ::
        (entriesOf clockDev ++ entriesOf gpioDev ++ entriesOf radio ++ entriesOf timer) } }

/-- E3 as it starts. -/
def e3s : State := e3 (radioDev 0 none none) (timerDev 0 false)

/-- The value of a register by name. -/
def valueOf (s : State) (d nm : Ident) : Option Word := (s.register d nm).map (·.value)

/-! ### Interrupt Controller -/

theorem test_raise_queues : (run (.icRaise 16) { e0 with pend := [17] }).pend = [17, 16] := by decide
/-- D7: with ENTRY_TIMING = immediate the entry is at once. -/
theorem test_raise_immediate : (run (.icRaise 17) { e0 with params := { e0.params with timing := .immediate } }).cpu.pc = 0x401 := by
  decide +kernel

/-- Section 2.4. -/
theorem test_boundary_order :
    (fun t : State => (t.pend, t.cpu.pc, t.cpu.lr, t.cpu.msp, t.cpu.xpsr, t.mem.memRead 0x20000FD8 4, t.afs.map (·.irq)))
        (run .icBoundary { e0 with pend := [17, 16] }) =
      ([], 0x501, 0xFFFFFFF9, 0x20000FC0, 0x01000010, 0x401, [16, 17]) := by decide +kernel
/-- D10: the number is dequeued, and its fatal error ends the drain. -/
theorem test_boundary_fatal :
    (fun t : State => (t.pend, t.fatal)) (run .icBoundary { e0 with pend := [7, 16] }) = ([16], some (.zeroVector 7)) := by
  decide +kernel

/-- V2.3a, frame and record. -/
theorem test_enter_frame :
    (e0in.mem.readBytes 0x20000FF4 12, e0in.afs) =
      ([0x01, 0x02, 0, 0, 0, 0x03, 0, 0, 0, 0, 0, 0x01],
        [{ irq := 17, excReturn := 0xFFFFFFF9, spsel := false, fpca := false, frameBase := 0x20000FE0 }]) := by decide +kernel
/-- V2.3c. -/
theorem test_enter_extended :
    (fun t : State => (t.cpu.psp, t.cpu.msp, t.cpu.lr, t.mem.memRead 0x200007BC 4, t.mem.memRead 0x200007F8 4,
        t.mem.memRead 0x200007FC 4)) (run (.icEnter 16) (e0c 6)) =
      (0x2000079C, 0x20001000, 0xFFFFFFED, 0x40000000, 0x4000000F, 0x03C00000) := by decide +kernel

/-- R79: the block reaches no byte of the return range, whatever is mapped. -/
theorem test_return_range_unmapped :
    (fun mp : List Region => isMapped mp 0xFFFFFEFF = true ∧ isMapped mp 0xFFFFFF00 = false ∧ isMapped mp 0xFFFFFFFF = false)
      [{ base := 0, size := 2 ^ 32 }] := by decide +kernel

theorem test_lookup_17 : (run (.vtLookup 17) e0).ret = .word 0x401 := by decide
theorem test_lookup_18 : (run (.vtLookup 18) e0).fatal = some (.absentVector 18) := by decide

/-- Section 2.10's image. -/
def imageVec : List Byte := [0x00, 0x10, 0x00, 0x20, 0x01, 0x02, 0x00, 0x00] ++ List.replicate 60 0 ++ [0x01, 0x04, 0x00, 0x00]

theorem test_parse : (fun t : State => (t.vt.entry 0, t.vt.entry 1, t.vt.entry 16, t.vt.entry 17)) (run (.vtParse imageVec) e0) =
    (0x20001000, 0x201, 0, 0x401) := by decide +kernel
theorem test_parse_71 : (run (.vtParse (List.replicate 71 0)) e0).fatal = some (.imageTooShort 71) := by decide +kernel

/-- Program P1, steps 2 and 3. -/
theorem test_block_entry_returns :
    (fun t : State => (t.cpu = e0Cpu, t.afs)) (run (.icBlockEntry 0xFFFFFFF8) e0in) = (True, []) := by
  simp only [Prod.mk.injEq, eq_iff_iff, iff_true]; decide +kernel
theorem test_block_entry_elsewhere : run (.icBlockEntry 0xFFFFFEFF) e0in = e0in := by decide +kernel

/-- V2.5a: the handler names the other stack. -/
theorem test_return_other_stack :
    (fun t : State => (t.cpu.r0, t.cpu.pc, t.cpu.psp, t.cpu.msp, t.cpu.control, t.afs))
        (run .icReturn { e0in with cpu := { e0in.cpu with lr := 0xFFFFFFFD } }) =
      (0, 0, 0x20000820, 0x20000FE0, 2, []) := by decide +kernel
/-- V2.5b: the frame is read where the stack pointer is. -/
theorem test_return_moved_stack :
    (fun t : State => (t.cpu.r2, t.cpu.r3, t.cpu.r12, t.cpu.lr, t.cpu.pc, t.cpu.xpsr, t.cpu.msp))
        (run .icReturn { e0in with cpu := { e0in.cpu with msp := 0x20000FD8 } }) =
      (0x11, 0x22, 0x33, 0x44, 0xCC, 0x201, 0x20000FF8) := by decide +kernel

theorem test_nonmatch : run (.icNonmatch 0xEFFFFFF9) e0in = e0in := by decide +kernel
/-- V1.2. -/
theorem test_encode : (run (.icEncode true false) e0).ret = .word 0xFFFFFFFD := by decide
/-- Section 2.1. -/
theorem test_decode_illegal : (run (.icDecode 0xFFFFFFE1) e0).ret = .mode false true := by decide
/-- Section 2.2. -/
theorem test_withMode : withMode 0xFFFFFFFF false false = 0xFFFFFFF9 := by decide
theorem test_withIpsr : withIpsr 0x210003FF 16 = 0x21000210 := by decide

/-! ### MMIO Dispatcher -/

theorem test_lookup_owner : (run (.mmioLookup 0x40000100) e3s).ret = .device idClock := by decide +kernel
theorem test_lookup_no_instance : (run (.mmioLookup 0x40003000) e3s).ret = .absent := by decide +kernel

/-- E3 with CC[0] = 0x12345678. -/
def e3cc : State := run (.rfSetByName idTimer (nmCc 0) 0x12345678) e3s

/-- Section 2.8. -/
theorem test_read_overwrites :
    (fun t : State => (t.ret, t.mem.readBytes 0x40008540 4)) (run (.mmioRead 0x40008540 2) e3cc) =
      (.word 0x5678, [0x78, 0x56, 0x34, 0x12]) := by decide +kernel
theorem test_read_open_bus : (run (.mmioRead 0x40008541 1) (run (.mmioRead 0x40008540 2) e3cc)).ret = .word 0x56 := by decide +kernel

/-- Section 2.8: a byte write is zero-extended, and its raw byte lands. -/
theorem test_write_byte :
    (fun t : State => (valueOf t idGpio nmOutset, t.log, t.mem)) (run (.mmioWrite 0x50000508 1 0x85) e3s) =
      (some 0x85, [.gpioPins .set [0, 2, 7]], [(0x50000508, 0x85)]) := by decide +kernel
/-- Section 2.9: the side effect's fatal error comes before the raw bytes land. -/
theorem test_write_fatal :
    (fun t : State => (t.fatal, valueOf t idRadio nmTasksTxen, t.mem))
        (run (.mmioWrite 0x40001000 4 1)
          { e3 (radioDev 0x20001FFE none none) (timerDev 0 false) with mem := [(0x20001FFE, 5)] }) =
      (some (.substrateAccessFault 0x20002000), some 1, [(0x20001FFE, 5)]) := by decide +kernel

/-! ### RegisterFile, section 2.7 -/

/-- E0 with an RTC and a Timer that have no RegisterFile yet. -/
def e0named : State := { e0 with named := [(idRtc, .rtc), (idTimer, .timer)] }

theorem test_construct_name_first :
    (run (.rfConstruct idRtc [(nmA, 0), (nmA, 0)]) e0named).fatal = some (.duplicateRegister idRtc (.name nmA)) := by decide +kernel
/-- An empty list gives an empty RegisterFile (R191), to a Timer as well; R190: a RegisterFile that is built stays as it
is. -/
theorem test_construct_once :
    (run (.rfConstruct idTimer []) e0named).devices = [{ id := idTimer, body := .timer 0 false, regs := [] }] ∧
      run (.rfConstruct idRtc [(nmA, 0)]) e3s = e3s := by decide +kernel
theorem test_byName_absent : (run (.rfByName idRtc [0x43]) e3s).ret = .absent := by decide +kernel
theorem test_byAddr : (run (.rfByAddr idRtc 0x100) e3s).ret = .reg ⟨nmA, 0x100, 0xABCD1234⟩ := by decide +kernel
theorem test_setByAddr_truncates : valueOf (run (.rfSetByAddr idRtc 0x100 0x100000005) e3s) idRtc nmA = some 5 := by decide +kernel
theorem test_setByName : (run (.rfByAddr idRtc 0x104) (run (.rfSetByName idRtc nmB 7) e3s)).ret = .reg ⟨nmB, 0x104, 7⟩ := by
  decide +kernel
theorem test_bit_31 : (run (.rfBit idRtc nmA 31) e3s).ret = .bool true := by decide +kernel
theorem test_bit_32 : (run (.rfBit idRtc nmA 32) e3s).ret = .bool false := by decide +kernel
theorem test_range_8_15 : (run (.rfBitRange idRtc nmA 8 15) e3s).ret = .word 0x12 := by decide +kernel
theorem test_range_30_40 : (run (.rfBitRange idRtc nmA 30 40) e3s).ret = .word 2 := by decide +kernel

/-! ### Devices, section 2.9 -/

theorem test_identify : (run (.devIdentify idClock) e3s).ret = .device idClock := by decide +kernel
/-- R212's example. -/
theorem test_devRead : (run (.devRead idClock 0x40000100) (run (.clockHfclkstart idClock 0) e3s)).ret = .word 1 := by decide +kernel
/-- V1.9a through the device. -/
theorem test_devWrite :
    (fun t : State => (valueOf t idClock nmTasksHfclkstart, valueOf t idClock nmEventsHfclkstarted))
      (run (.devWrite idClock 0x40000000 0) e3s) = (some 0, some 1) := by decide +kernel
theorem test_hfclkstart_keeps_task : valueOf (run (.clockHfclkstart idClock 7) e3s) idClock nmTasksHfclkstart = some 0 := by
  decide +kernel
theorem test_outset_zero : (run (.gpioOutset idGpio 0) e3s).log = [.gpioPins .set []] := by decide +kernel
theorem test_outclr : (run (.gpioOutclr idGpio 0x80000001) e3s).log = [.gpioPins .clear [0, 31]] := by decide +kernel

/-- V1.7's packet at 0x20000100. -/
def packetMem : Memory := [(0x20000100, 5), (0x20000102, 0x44), (0x20000104, 1), (0x20000105, 2)]

/-- E3 with the packet, callbacks 1 and 2, and the code of one invocation for each. -/
def e3tx : State :=
  { e3 (radioDev 0x20000100 (some 1) (some 2)) (timerDev 0 false) with
    mem := packetMem
    cbCode := [{ id := 1, runs := [[.raise 17]] }, { id := 2, runs := [[.injectPacket idRadio [1, 0xAA]]] }] }

/-- V1.7. -/
theorem test_txen :
    (fun t : State => (t.log, t.pend)) (run (.radioTxen idRadio 1) e3tx) =
      ([.radioTx [0x05, 0x00, 0x44, 0x00, 0x01, 0x02]], [17]) := by decide +kernel
/-- V1.9d. -/
theorem test_txen_null : (run (.radioTxen idRadio 1) e3s).log = [.nullPacketPtr .tasksTxen] := by decide +kernel
/-- R220's example. -/
theorem test_rxen :
    (fun t : State => (t.log, t.mem.readBytes 0x20000100 3)) (run (.radioRxen idRadio 1) e3tx) = ([.radioRx], [1, 0xAA, 0x44]) := by
  decide +kernel
theorem test_inject : (run (.radioInject idRadio [2, 0x10, 0x20]) e3tx).mem.readBytes 0x20000100 4 = [2, 0x10, 0x20, 0] := by
  decide +kernel
theorem test_inject_null : (run (.radioInject idRadio [1]) e3s).log = [.nullPacketPtr .injectPacket] := by decide +kernel
/-- R72, R227: a tick between two calls of one callback. -/
theorem test_tick_in_callback :
    ((run (.radioRxen idRadio 1) { e3tx with
        cbCode := [{ id := 2, runs := [[.start idTimer, .tick idTimer, .stop idTimer true, .tick idTimer]] }] }).device
      idTimer).map (·.body) = some (.timer 1 false) := by decide +kernel
theorem test_setState : valueOf (run (.radioSetState idRadio .txDisabled) e3s) idRadio nmState = some 12 := by decide +kernel
theorem test_regCb : ((run (.radioRegCb idRadio .rx 9) e3tx).device idRadio).map (·.body) = some (.radio .disabled (some 1) (some 9)) := by
  decide +kernel

/-- V1.8, step by step. -/
theorem test_start_keeps_counter :
    ((run (.timerStart idTimer) (e3 (radioDev 0 none none) (timerDev 7 false))).device idTimer).map (·.body) = some (.timer 7 true) := by
  decide +kernel
theorem test_tick :
    ((run (.timerTick idTimer) (e3 (radioDev 0 none none) (timerDev 2 true))).device idTimer).map (·.body) = some (.timer 3 true) := by
  decide +kernel
theorem test_tick_stopped : run (.timerTick idTimer) e3s = e3s := by decide +kernel
theorem test_capture :
    valueOf (run (.mmioWrite 0x40008048 4 1) (e3 (radioDev 0 none none) (timerDev 3 true))) idTimer (nmCc 2) = some 3000000 := by
  decide +kernel
theorem test_capture_wraps :
    valueOf (run (.timerCapture idTimer 1) (e3 (radioDev 0 none none) (timerDev 4295 false))) idTimer (nmCc 1) = some 32704 := by
  decide +kernel
theorem test_stop :
    ((run (.timerStop idTimer true) (e3 (radioDev 0 none none) (timerDev 7 true))).device idTimer).map (·.body) = some (.timer 7 false) := by
  decide +kernel
theorem test_stop_orphan :
    (run (.timerStop idTimer false) (e3 (radioDev 0 none none) (timerDev 7 true))).fatal = some (.tickJoinFailure idTimer) := by
  decide +kernel

/-! ### Session -/

def specTimer : DevSpec := { id := idTimer, kind := .timer, regs := timerRegs }

/-- Section 2.10, from a used state (R285): nothing of it is left, the launch draw stands in its place. -/
theorem test_session_start :
    (fun t : State => t.cpu.msp = 0x20001000 ∧ t.cpu.pc = 0x201 ∧ t.cpu.control = 0 ∧ t.cpu.xpsr = 0x01000000 ∧ t.cpu.r0 = 1 ∧
        t.cpu.fp.fpscr = 2 ∧ t.mem = [(0x300, 0xFE)] ∧ t.afs = [] ∧ t.devices = [timerDev 0 false] ∧ t.thread = .ready ∧
        (hwIrqHook 2 t).pend = [17])
      (run (.sessionStart imageVec [specTimer] { hwDb := [], irqMap := [(2, 17)], launch := launchVec }) { e0in with cpu := { e0in.cpu with control := 6 } }) := by
  decide +kernel
/-- D41. -/
theorem test_session_identify :
    (run (.sessionStart imageVec [specTimer, specTimer] { hwDb := [], irqMap := [], launch := launchVec }) e0).fatal = some (.duplicateRegister idTimer .identify) := by decide +kernel
/-- R289, R288. -/
theorem test_deadline :
    (fun t : State => (t.thread, (t.device idTimer).map (·.body), t.fatal))
        (run (.sessionDeadline []) (e3 (radioDev 0 none none) (timerDev 7 true))) =
      (.halted, some (.timer 7 false), none) := by decide +kernel

/-! ### Steps -/

/-- The hook of R263: substrate number 2 is exception 17. -/
theorem test_step_hwIrq :
    step { e0 with params := { e0.params with irqMap := [(2, 17)] }, arrivals := [[0x80, 2, 0, 0, 0, 0, 0, 0, 0]] } =
      .next { e0 with params := { e0.params with irqMap := [(2, 17)] }, pend := [17] } := by rfl
/-- R262: the substrate writes LR. -/
theorem test_step_regWrite :
    step { e0 with arrivals := [[0x81, 5, 0xF1, 0xFF, 0xFF, 0xFF]] } = .next { e0 with cpu := { e0Cpu with lr := 0xFFFFFFF1 } } := by rfl
/-- R251. -/
theorem test_step_after_fatal :
    step { e0 with fatal := some (.zeroVector 7), arrivals := [[2]] } = .fault (.sessionAborted (.zeroVector 7)) := by rfl
/-- R290: nothing runs after the end of a run. -/
theorem test_step_halted : step { e0 with thread := .halted, arrivals := [[2]] } = .fault .threadHalted := by rfl
/-- R231: after a callback that does not return only tick agents step. -/
theorem test_step_hung : step { e0 with thread := .hung, arrivals := [[2]] } = .fault .callbackHung := by rfl
/-- R271, R288: a session under way is not built up again. -/
theorem test_step_underWay : step { e0 with arrivals := [[5, 0, 0, 0, 0]] } = .fault .sessionUnderWay := by rfl
/-- R280 steps 6 and 7: no hook before the run call, which lets the substrate run. -/
theorem test_step_notRunning : step { e0 with thread := .ready, arrivals := [[2]] } = .fault .notRunning := by rfl
theorem test_step_run : step { e0 with thread := .ready, arrivals := [[0x86, 9, 0, 0, 0, 0, 0, 0, 0]] } = .next e0 := by rfl
/-- R270: the host reads LR, after the end of a run too. -/
theorem test_step_read :
    step { e0 with thread := .halted, arrivals := [[0x89, 1, 5]] } =
      .next { e0 with thread := .halted, ret := .word 0x201 } := by rfl
/-- R290 d: teardown after a fatal error stops the Timer, and the error stays. -/
theorem test_step_teardown :
    step { e3 (radioDev 0 none none) (timerDev 7 true) with fatal := some (.zeroVector 7), arrivals := [[0x88, 0, 0, 0, 0]] } =
      .next { e3 (radioDev 0 none none) (timerDev 7 false) with fatal := some (.zeroVector 7), thread := .halted } := by rfl
/-- The instances of DEVICES are named, and none is built. -/
theorem test_step_nameDevices :
    step { e0 with thread := .halted, arrivals := [[0x87, 1, 0, 0, 0, 1, 0, 0, 0, 0x54, 4, 0, 0, 0, 0]] } =
      .next { e0 with thread := .halted, named := [([0x54], .timer)] } := by rfl
/-- The table's word placed first runs. From reset no exception is active (R138). -/
theorem test_fetch_return :
    (match step (State.reset.withFetchWord 32 0xFFFFFF00) with | .next t => t.fatal | _ => none) =
      some (.returnOutsideHandler 0xFFFFFFFF) := by rfl

/-! ### Witnesses

A concrete state and operands that meet the hypotheses of each statement of Certificates/Slice0/Obligations.lean, and of
each of its clauses at a boundary value. -/

/-- E0 with a queue. -/
def e0q (pend : List Nat) : State := { e0 with pend := pend }

theorem witness_RaiseQueuesAtTailOrEnters :
    e0.params.timing = .boundary ∧ { e0.params with timing := .immediate }.timing = EntryTiming.immediate := ⟨rfl, rfl⟩

theorem witness_BoundaryEntersInFifoOrder :
    e0.pend = [] ∧ { e0 with fatal := some (.zeroVector 7) }.fatal ≠ none ∧
      (e0q [17, 1]).pend = 17 :: [1] ∧ (e0q [17, 1]).fatal = none := by decide +kernel

/-- Two entries, and none. -/
theorem witness_BoundaryEntersEveryPending :
    (fun s : State => s.fatal = none ∧
        mappedFrom s.params.mapped
          (s.cpu.sp (spselOf s.cpu.control) - BitVec.ofNat 32 (s.pend.length * frameSize (fpcaOf s.cpu.control)))
          (s.pend.length * frameSize (fpcaOf s.cpu.control)) ∧
        (∀ n ∈ s.pend, 1 ≤ n ∧ n ≤ 17 ∧ s.vt.entry n ≠ 0)) (e0q [17, 1]) ∧
      mappedFrom (e0q []).params.mapped (0x20001000 - BitVec.ofNat 32 (0 * 32)) (0 * 32) := by
  unfold mappedFrom; decide +kernel

theorem witness_LookupAnswersOrFaults :
    e0.vt.entry 1 ≠ 0 ∧ e0.vt.entry 17 ≠ 0 ∧ e0.fatal = none ∧ (0 < 1 ∨ 17 < 0) ∧ (18 < 1 ∨ 17 < 18) ∧ e0.vt.entry 7 = 0 := by
  decide +kernel

theorem witness_EnterSavesContextAndJumps :
    (e0.vt.entry 17 ≠ 0 ∧ mappedFrom e0.params.mapped (entryBase e0.cpu) (frameSize (fpcaOf e0.cpu.control))) ∧
    ((e0c 6).vt.entry 1 ≠ 0 ∧
      mappedFrom (e0c 6).params.mapped (entryBase (e0c 6).cpu) (frameSize (fpcaOf (e0c 6).cpu.control))) := by
  unfold mappedFrom; decide +kernel

/-- Section 2.6's unmapped frame, at its first byte, and one at its last. -/
theorem witness_EnterChecksInOrder :
    e0.fatal = none ∧ e0.vt.entry 7 = 0 ∧ (e0m 0x20000010).vt.entry 17 ≠ 0 ∧
      firstUnmappedAt (e0m 0x20000010).params.mapped (entryBase (e0m 0x20000010).cpu) (frameSize false) 0 ∧
      firstUnmappedAt (e0m 0x20002001).params.mapped (entryBase (e0m 0x20002001).cpu) (frameSize false) 31 := by
  unfold firstUnmappedAt; decide +kernel

theorem witness_ReturnRestoresFromFrame :
    e0in.afs = { irq := 17, excReturn := 0xFFFFFFF9, spsel := false, fpca := false, frameBase := 0x20000FE0 } :: [] ∧
      (e0in.params.strict = true → legalExcReturn e0in.cpu.lr = true) ∧
      mappedFrom e0in.params.mapped (e0in.cpu.sp (e0in.cpu.lr.getLsbD 2)) (if e0in.cpu.lr.getLsbD 4 then 32 else 100) ∧
      inReturnRange 0xFFFFFF00 = true ∧ inReturnRange 0xFFFFFFFF = true := by
  unfold mappedFrom; decide +kernel

/-- Section 2.6: outside a handler, an illegal LR, and a frame whose byte 16 is the first that is not mapped. -/
theorem witness_ReturnChecksInOrder :
    (e0.fatal = none ∧ e0.afs = []) ∧
      (fun s : State => s.fatal = none ∧ s.afs ≠ [] ∧ s.params.strict = true ∧ legalExcReturn s.cpu.lr = false)
        (handler e0in 0xFFFFFFF1 0x20000FE0) ∧
      (fun s : State => s.fatal = none ∧ s.afs ≠ [] ∧ (s.params.strict = true → legalExcReturn s.cpu.lr = true) ∧
          firstUnmappedAt s.params.mapped (s.cpu.sp (decodeSpsel s.cpu.lr)) (frameSize (decodeFpca s.cpu.lr)) 16)
        (handler e0in 0xFFFFFFF9 0x20001FF0) := by
  unfold firstUnmappedAt; decide +kernel

theorem witness_EnterThenReturnRestoresEverything : exec (.icEnter 17) e0 = .next e0in ∧ e0in.fatal = none := ⟨rfl, by decide +kernel⟩

/-- The state a handler leaves: R0, a byte outside the frame and the queue changed. -/
def e0handled : State :=
  { e0in with cpu := { e0in.cpu with r0 := 9, control := 1 }, mem := e0in.mem.write 0x20000FDF 0xEE, pend := [16] }

theorem witness_ReturnAfterHandlerRestoresContext :
    exec (.icEnter 17) e0 = .next e0in ∧ e0in.fatal = none ∧ e0.fatal = none ∧ e0handled.cpu.lr = e0in.cpu.lr ∧
      e0handled.cpu.sp (spselOf e0.cpu.control) = e0in.cpu.sp (spselOf e0.cpu.control) ∧
      (∀ i, i < frameSize (fpcaOf e0.cpu.control) →
        e0handled.mem.read (entryBase e0.cpu + BitVec.ofNat 32 i).toNat =
          e0in.mem.read (entryBase e0.cpu + BitVec.ofNat 32 i).toNat) ∧
      e0handled.afs = e0in.afs ∧ e0handled.params = e0.params :=
  ⟨rfl, by decide +kernel, by decide +kernel, by decide +kernel, by decide +kernel, by decide +kernel, rfl, by decide +kernel⟩

/-- V1.3, steps 2 and 3. -/
def e0in2 : State := run (.icEnter 16) { e0in with cpu := { e0in.cpu with control := 2 } }

theorem witness_NestedEntriesUnwindInLifoOrder :
    e0.fatal = none ∧ exec (.icEnter 17) e0 = .next e0in ∧ e0in.fatal = none ∧
      exec (.icEnter 16) { e0in with cpu := { e0in.cpu with control := 2 } } = .next e0in2 ∧ e0in2.fatal = none ∧
      (∀ i, i < frameSize (fpcaOf e0.cpu.control) →
        outside (entryBase { e0in.cpu with control := 2 }) (frameSize (fpcaOf 2)) (entryBase e0.cpu + BitVec.ofNat 32 i).toNat) :=
  ⟨rfl, rfl, by decide +kernel, rfl, by decide +kernel, by unfold outside; decide +kernel⟩

theorem witness_BlockEntrySelectsByRange : 0xFFFFFF00 ≤ (0xFFFFFF00#32).toNat ∧ (0xFFFFFEFF#32).toNat < 0xFFFFFF00 := by decide

theorem witness_DecodeReadsBitsAndInvertsEncode :
    exec (.icEncode true true) e0 = .next (run (.icEncode true true) e0) ∧ (run (.icEncode true true) e0).ret = .word 0xFFFFFFED :=
  ⟨rfl, by decide⟩

theorem witness_ParseReadsTheImageHeader :
    72 ≤ imageVec.length ∧ (List.replicate 71 (0 : Byte)).length < 72 ∧ e0.fatal = none := by decide +kernel

theorem witness_VectorTableAndParametersFixed :
    exec (.icRaise 17) e0 = .next (run (.icRaise 17) e0) ∧ (∀ im, Instr.icRaise 17 ≠ .vtParse im) ∧
      (∀ im ds pl, Instr.icRaise 17 ≠ .sessionStart im ds pl) :=
  ⟨rfl, fun _ h => Instr.noConfusion h, fun _ _ _ h => Instr.noConfusion h⟩

theorem witness_ControlBitsOtherThanModeKept :
    exec .icReturn e0in = .next (run .icReturn e0in) ∧ (∀ im ds pl, Instr.icReturn ≠ .sessionStart im ds pl) ∧ (31 ≠ 1 ∧ 31 ≠ 2) :=
  ⟨rfl, fun _ _ _ h => Instr.noConfusion h, by decide⟩

theorem witness_LookupResolvesExactAddress :
    (∀ e ∈ e3s.params.hwDb, e.addr ≠ 0x40000104) ∧
      (e3s.params.hwDb = [] ++ { addr := 0x40003000, name := [0x53], devId := [0x55] } :: e3s.params.hwDb.tail ∧
        ∀ d ∈ e3s.devices, d.id ≠ [0x55]) ∧
      (e3s.params.hwDb = e3s.params.hwDb.take 1 ++ { addr := 0x40000000, name := nmTasksHfclkstart, devId := idClock } ::
          e3s.params.hwDb.drop 2 ∧
        (∀ x ∈ e3s.params.hwDb.take 1, x.addr ≠ 0x40000000) ∧ ∃ d ∈ e3s.devices, d.id = idClock) := by decide +kernel

theorem witness_ReadOfRegisterOverwritesBacking :
    mappedFrom e3s.params.mapped 0x40008540 2 ∧ e3s.resolve 0x40008540 = some (timerDev 0 false) ∧
      byAddress (timerDev 0 false).regs 0x40008540 = some ⟨nmCc 0, 0x40008540, 0⟩ := by
  unfold mappedFrom; decide +kernel

/-- E3 in which HW_DB also gives the Clock an address at which it has no register. -/
def e3gap : State :=
  { e3s with params := { e3s.params with hwDb := { addr := 0x40000200, name := nmA, devId := idClock } :: e3s.params.hwDb } }

theorem witness_OpenBusReadReturnsBacking :
    (mappedFrom e3s.params.mapped 0x40000104 4 ∧ e3s.resolve 0x40000104 = none) ∧
      (mappedFrom e3gap.params.mapped 0x40000200 1 ∧ e3gap.resolve 0x40000200 = some clockDev ∧
        byAddress clockDev.regs 0x40000200 = none) := by
  unfold mappedFrom; decide +kernel

/-- Size 3 and size 0, and an access whose last byte alone is not mapped. -/
theorem witness_DispatchedAccessChecksFirst :
    e3s.fatal = none ∧ (3 ≠ 1 ∧ 3 ≠ 2 ∧ 3 ≠ 4) ∧ (0 ≠ 1 ∧ 0 ≠ 2 ∧ 0 ≠ 4) ∧ ¬ mappedFrom e3s.params.mapped 0x20001FFD 4 := by
  refine ⟨rfl, by decide, by decide, fun h => ?_⟩
  exact absurd (h 3 (by decide)) (by decide +kernel)

theorem witness_DispatchedReadIsIdempotent :
    e3cc.mem.wf = true ∧ exec (.mmioRead 0x40008540 2) e3cc = .next (run (.mmioRead 0x40008540 2) e3cc) := ⟨by decide +kernel, rfl⟩

/-- A write whose device part goes through, section 2.9's that ends in a fatal error, and one whose callback hangs. -/
theorem witness_WriteRunsDeviceThenLands :
    (mappedFrom e3s.params.mapped 0x50000508 1 ∧ e3s.resolve 0x50000508 = some gpioDev ∧
        (run (.devWrite idGpio 0x50000508 0x85) e3s).fatal = none ∧ (run (.devWrite idGpio 0x50000508 0x85) e3s).thread ≠ .hung) ∧
      (fun s : State => mappedFrom s.params.mapped 0x40001000 4 ∧ s.resolve 0x40001000 = some (radioDev 0x20001FFE none none) ∧
          (run (.devWrite idRadio 0x40001000 1) s).fatal ≠ none)
        { e3 (radioDev 0x20001FFE none none) (timerDev 0 false) with mem := [(0x20001FFE, 5)] } ∧
      (fun s : State => mappedFrom s.params.mapped 0x40001000 4 ∧
          s.resolve 0x40001000 = some (radioDev 0x20000100 (some 1) (some 2)) ∧
          (run (.devWrite idRadio 0x40001000 1) s).thread = .hung)
        { e3tx with cbCode := [{ id := 1, runs := [[.hang]] }] } := by
  unfold mappedFrom; decide +kernel

theorem witness_OpenBusWriteLandsInMemory :
    e3s.live ∧ (mappedFrom e3s.params.mapped 0x5000050A 2 ∧ e3s.resolve 0x5000050A = none) ∧ (e3s.devices.map (·.id)).Nodup ∧
      (e3gap.resolve 0x40000200 = some clockDev ∧ byAddress clockDev.regs 0x40000200 = none) := by
  unfold mappedFrom State.live; decide +kernel

theorem witness_MmioIsolation :
    exec (.mmioRead 0x40000100 4) e3tx = .next (run (.mmioRead 0x40000100 4) e3tx) ∧
      (e3tx.resolve 0x40000104 = none ∧ exec (.mmioWrite 0x40000104 4 1) e3tx = .next (run (.mmioWrite 0x40000104 4 1) e3tx)) ∧
      (e3tx.resolve 0x40001000 = some (radioDev 0x20000100 (some 1) (some 2)) ∧ callbacksStayOn idRadio e3tx ∧
        exec (.mmioWrite 0x40001000 4 1) e3tx = .next (run (.mmioWrite 0x40001000 4 1) e3tx)) :=
  ⟨rfl, ⟨by decide +kernel, rfl⟩, by decide +kernel, by unfold callbacksStayOn; decide +kernel, rfl⟩

/-- Lists that are built, the empty one among them, and one for each error; an instance that is built already, and an
identifier that no instance has. -/
theorem witness_ConstructBuildsOrRejects :
    (e0named.device idRtc = none ∧ e0named.namedKind idRtc = some .rtc ∧ e0named.fatal = none) ∧
      (e0named.device idTimer = none ∧ e0named.namedKind idTimer = some .timer ∧ (timerRegs.map (·.1)).Nodup ∧
        (timerRegs.map (·.2)).Nodup ∧ (([] : List (Ident × Word)).map (·.1)).Nodup ∧
        (([] : List (Ident × Word)).map (·.2)).Nodup) ∧
      ((([(nmA, 0), (nmB, 4)] : List (Ident × Word)).map (·.1)).Nodup ∧ (([(nmA, 0), (nmB, 4)] : List (Ident × Word)).map (·.2)).Nodup) ∧
      ¬ (([(nmA, 0), (nmA, 0)] : List (Ident × Word)).map (·.1)).Nodup ∧
      ¬ (([(nmA, 0), (nmB, 0)] : List (Ident × Word)).map (·.2)).Nodup ∧
      e3s.device idRtc = some rtcDev ∧ (e0named.device nmA = none ∧ e0named.namedKind nmA = none) := by decide +kernel

theorem witness_LookupsAnswerTheRegister :
    e3s.device idRtc = some rtcDev ∧ regsUnique rtcDev.regs = true ∧ ⟨nmA, 0x100, 0xABCD1234⟩ ∈ rtcDev.regs ∧
      (∀ r ∈ rtcDev.regs, r.name ≠ [0x43]) ∧ (∀ r ∈ rtcDev.regs, r.addr ≠ 0x101) := by decide +kernel

theorem witness_StoresVisibleThroughTheOtherLookup :
    e3s.device idRtc = some rtcDev ∧ regsUnique rtcDev.regs = true ∧ ⟨nmB, 0x104, 0⟩ ∈ rtcDev.regs ∧
      (⟨nmA, 0x100, 0xABCD1234⟩ ∈ rtcDev.regs ∧ (⟨nmA, 0x100, 0xABCD1234⟩ : Reg) ≠ ⟨nmB, 0x104, 0⟩) ∧
      (∀ r ∈ rtcDev.regs, r.addr ≠ 0x108) ∧ (∀ r ∈ rtcDev.regs, r.name ≠ [0x43]) := by decide +kernel

theorem witness_BitTestReadsOneBit : e3s.register idRtc nmA = some ⟨nmA, 0x100, 0xABCD1234⟩ := by decide +kernel

theorem witness_BitRangeExtractsInclusive : e3s.register idRtc nmB = some ⟨nmB, 0x104, 0⟩ := by decide +kernel

theorem witness_RegisterFileOperationsAreTotal :
    Instr.rfBit idRtc nmA 32 ∈ [Instr.rfByName idRtc nmA, .rfByAddr idRtc 0, .rfSetByAddr idRtc 0 0, .rfSetByName idRtc nmA 0,
        .rfBit idRtc nmA 32, .rfBitRange idRtc nmA 32 0] ∧
      e3s.device idRtc = some rtcDev ∧ e3s.register idRtc nmA = some ⟨nmA, 0x100, 0xABCD1234⟩ := by decide +kernel

theorem witness_IdentifyAndReadAnswer :
    e3s.device idRtc = some rtcDev ∧ byAddress rtcDev.regs 0x100 = some ⟨nmA, 0x100, 0xABCD1234⟩ ∧ byAddress rtcDev.regs 0x101 = none := by
  decide +kernel

/-- Each register with a side effect (a Timer's at slot 2), one of pure storage, and an address with no register. -/
theorem witness_DeviceWriteStoresThenRunsSideEffect :
    (e3s.devices.map (·.id)).Nodup ∧
      (e3s.device idClock = some clockDev ∧ byAddress clockDev.regs 0x40000200 = none) ∧
      (clockDev.body.kind = .clock ∧ byAddress clockDev.regs 0x40000000 = some ⟨nmTasksHfclkstart, 0x40000000, 0⟩) ∧
      (e3s.device idGpio = some gpioDev ∧ gpioDev.body.kind = .gpio ∧
        byAddress gpioDev.regs 0x50000508 = some ⟨nmOutset, 0x50000508, 0⟩ ∧
        byAddress gpioDev.regs 0x5000050C = some ⟨nmOutclr, 0x5000050C, 0⟩) ∧
      (e3s.device idRadio = some (radioDev 0 none none) ∧ (radioDev 0 none none).body.kind = .radio ∧
        byAddress (radioDev 0 none none).regs 0x40001000 = some ⟨nmTasksTxen, 0x40001000, 0⟩ ∧
        byAddress (radioDev 0 none none).regs 0x40001004 = some ⟨nmTasksRxen, 0x40001004, 0⟩) ∧
      (e3s.device idTimer = some (timerDev 0 false) ∧ (timerDev 0 false).body.kind = .timer ∧
        byAddress (timerDev 0 false).regs 0x40008048 = some ⟨nmTasksCapture 2, 0x40008048, 0⟩) ∧
      (e3s.device idRtc = some rtcDev ∧ rtcDev.body.kind = .rtc ∧ byAddress rtcDev.regs 0x104 = some ⟨nmB, 0x104, 0⟩) := by
  decide +kernel

theorem witness_HfclkstartSetsTheEvent :
    e3s.device idClock = some clockDev ∧ clockDev.body = .clock ∧
      byName clockDev.regs nmEventsHfclkstarted = some ⟨nmEventsHfclkstarted, 0x40000100, 0⟩ := by decide +kernel

theorem witness_GpioReportsSetBits : e3s.device idGpio = some gpioDev ∧ gpioDev.body = .gpio := by decide +kernel

/-- E3 with a PACKETPTR, V1.7's packet, and a length byte 5 at 0x20001FFE. -/
def e3p (p : Word) : State := { e3 (radioDev p none none) (timerDev 0 false) with mem := packetMem ++ [(0x20001FFE, 5)] }

/-- In `e3p p` the Radio stands, with PACKETPTR = p and no callback, and no fatal error is present. -/
def radioAt (p : Word) : Prop :=
  (e3p p).device idRadio = some (radioDev p none none) ∧ (radioDev p none none).body = .radio .disabled none none ∧
    byName (radioDev p none none).regs nmPacketptr = some ⟨nmPacketptr, 0x40001504, p⟩ ∧ (e3p p).fatal = none

/-- A null pointer; an unmapped length byte; the packet of section 2.9 whose byte 2 is the first unmapped one; no callback. -/
theorem witness_TxenWithoutTransmission :
    (radioAt 0 ∧ radioAt 0x20002000 ∧ radioAt 0x20001FFE ∧ radioAt 0x20000100) ∧
      isMapped (e3p 0x20002000).params.mapped 0x20002000 = false ∧
      (isMapped (e3p 0x20001FFE).params.mapped 0x20001FFE = true ∧
        firstUnmappedAt (e3p 0x20001FFE).params.mapped (0x20001FFE + 1) ((e3p 0x20001FFE).mem.read 0x20001FFE).toNat 1) ∧
      mappedFrom (e3p 0x20000100).params.mapped 0x20000100 (((e3p 0x20000100).mem.read 0x20000100).toNat + 1) := by
  unfold mappedFrom firstUnmappedAt radioAt; decide +kernel

/-- Nothing bound; a handle used up behind another; a handle with a list left. -/
theorem witness_TxenPassesPacketToCallback :
    e3tx.device idRadio = some (radioDev 0x20000100 (some 1) (some 2)) ∧
      byName (radioDev 0x20000100 (some 1) (some 2)).regs nmPacketptr = some ⟨nmPacketptr, 0x40001504, 0x20000100⟩ ∧
      (0x20000100 : Word) ≠ 0 ∧
      mappedFrom e3tx.params.mapped 0x20000100 ((e3tx.mem.read (0x20000100 : Word).toNat).toNat + 1) ∧
      (∀ c ∈ ({ e3tx with cbCode := [] } : State).cbCode, c.id ≠ 1) ∧
      (({ e3tx with cbCode := [{ id := 2, runs := [] }, { id := 1, runs := [] }] } : State).cbCode =
          [{ id := 2, runs := [] }] ++ { id := 1, runs := [] } :: [] ∧ ∀ c ∈ [({ id := 2, runs := [] } : CbCode)], c.id ≠ 1) ∧
      (e3tx.cbCode = [] ++ { id := 1, runs := [.raise 17] :: [] } :: e3tx.cbCode.tail ∧ ∀ c ∈ [] ++ e3tx.cbCode.tail, c.id ≠ 1) := by
  unfold mappedFrom; decide +kernel

/-- No callback; nothing bound; a handle used up; and, with both callbacks bound, the second handle's list. -/
theorem witness_RxenInvokesReceiveCallback :
    (e3s.device idRadio = some (radioDev 0 none none) ∧ (radioDev 0 none none).body = .radio .disabled none none) ∧
      (e3tx.device idRadio = some (radioDev 0x20000100 (some 1) (some 2)) ∧
        (radioDev 0x20000100 (some 1) (some 2)).body = .radio .disabled (some 1) (some 2)) ∧
      (∀ c ∈ ({ e3tx with cbCode := [] } : State).cbCode, c.id ≠ 2) ∧
      (({ e3tx with cbCode := [{ id := 2, runs := [] }] } : State).cbCode = [] ++ { id := 2, runs := [] } :: []) ∧
      (e3tx.cbCode = e3tx.cbCode.take 1 ++ { id := 2, runs := [.injectPacket idRadio [1, 0xAA]] :: [] } :: [] ∧
        ∀ c ∈ e3tx.cbCode.take 1 ++ [], c.id ≠ 2) := by decide +kernel

/-- Raw accesses of two bytes: both mapped, and the second alone not. -/
theorem witness_CallbackCallsFollowTheirRules :
    (e0.fatal = none ∧ e0.thread ≠ .hung) ∧ ({ e0 with thread := .hung } : State).thread = .hung ∧
      ({ e0 with fatal := some (.zeroVector 7) } : State).fatal ≠ none ∧
      mappedFrom e0.params.mapped 0xFFE ([1, 2] : List Byte).length ∧
      firstUnmappedAt e0.params.mapped 0xFFF ([1, 2] : List Byte).length 1 ∧
      e3s.register idRtc nmB = some ⟨nmB, 0x104, 0⟩ := by
  unfold mappedFrom firstUnmappedAt; decide +kernel

/-- A null pointer; a packet whose byte 2 is the first unmapped one; the empty packet, and one that is mapped. -/
theorem witness_InjectWritesPacket :
    (radioAt 0 ∧ radioAt 0x20001FFE ∧ radioAt 0x20000100) ∧
      firstUnmappedAt (e3p 0x20001FFE).params.mapped 0x20001FFE ([1, 2, 3] : List Byte).length 2 ∧
      mappedFrom (e3p 0x20000100).params.mapped 0x20000100 ([] : List Byte).length ∧
      mappedFrom (e3p 0x20000100).params.mapped 0x20000100 ([1, 2, 3] : List Byte).length := by
  unfold mappedFrom firstUnmappedAt radioAt; decide +kernel

theorem witness_SetStateMirrorsCode :
    e3s.device idRadio = some (radioDev 0 none none) ∧ (radioDev 0 none none).body = .radio .disabled none none ∧
      byName (radioDev 0 none none).regs nmState = some ⟨nmState, 0x40001550, 0⟩ := by decide +kernel

theorem witness_RegistrationReplacesOneCallback :
    e3tx.device idRadio = some (radioDev 0x20000100 (some 1) (some 2)) ∧
      (radioDev 0x20000100 (some 1) (some 2)).body = .radio .disabled (some 1) (some 2) := by decide +kernel

theorem witness_TimerStartAndStop :
    (e3s.device idTimer = some (timerDev 0 false) ∧ (timerDev 0 false).body = .timer 0 false) ∧ e3s.fatal = none ∧
      ((e3 (radioDev 0 none none) (timerDev 7 true)).device idTimer = some (timerDev 7 true) ∧ (timerDev 7 true).body = .timer 7 true) := by
  decide +kernel

theorem witness_TickIncrementsRunningCounter :
    (e3s.device idTimer = some (timerDev 0 false) ∧ (timerDev 0 false).body = .timer 0 false) ∧
      ((e3 (radioDev 0 none none) (timerDev 7 true)).device idTimer = some (timerDev 7 true) ∧ (timerDev 7 true).body = .timer 7 true) := by
  decide +kernel

/-- Slots 0 and 5. -/
theorem witness_CaptureStoresScaledCounter :
    e3s.device idTimer = some (timerDev 0 false) ∧ (timerDev 0 false).body = .timer 0 false ∧
      byName (timerDev 0 false).regs (nmCc 0) = some ⟨nmCc 0, 0x40008540, 0⟩ ∧
      byName (timerDev 0 false).regs (nmCc 5) = some ⟨nmCc 5, 0x40008554, 0⟩ := by decide +kernel

theorem witness_ArrivalMatchingNoRowHasNoEffect :
    e3s.device nmA = none ∧ e3s.isKind idGpio .clock = false ∧ e3s.isKind nmA .gpio = false ∧ e3s.isKind idClock .radio = false ∧
      e3s.isKind idRadio .timer = false ∧ e3s.register idRtc [0x43] = none ∧ 6 ≤ 6 ∧
      (({ e3s with arrivals := [[38]] } : State).fatal = none ∧ ({ e3s with arrivals := [[38]] } : State).arrivals = [38] :: [] ∧
        decodeArrival [38] = .bad (.unknownOperation 38)) := by decide +kernel

/-- A launch draw whose second block of bytes overlaps the first: byte 1 of the first is the first's, byte 1 of the second
the second's, and 0x303 is in neither. -/
theorem witness_SessionStartSetsResetTable :
    e0in.fatal = none ∧ 72 ≤ imageVec.length ∧ ([specTimer].map (·.id)).Nodup ∧
      (∀ d ∈ [specTimer], (d.regs.map (·.1)).Nodup ∧ (d.regs.map (·.2)).Nodup) ∧
      (fun l : Launch =>
        (l.mem = [] ++ (0x300, [1, 2]) :: [(0x301, [3, 4])] ∧ outside 0x301 2 ((0x300#32) + BitVec.ofNat 32 0).toNat) ∧
        (l.mem = [(0x300, [1, 2])] ++ (0x301, [3, 4]) :: []) ∧ outside 0x300 2 0x303 ∧ outside 0x301 2 0x303)
        { launchVec with mem := [(0x300, [1, 2]), (0x301, [3, 4])] } := by
  unfold outside; decide +kernel

/-- A short image, a repeated identifier, and a device behind a proper one with a repeated name or a repeated address. -/
theorem witness_SessionStartRejectsBadConfiguration :
    e0.fatal = none ∧ (List.replicate 71 (0 : Byte)).length < 72 ∧ 72 ≤ imageVec.length ∧
      ¬ ([specTimer, specTimer].map (·.id)).Nodup ∧
      (∀ e ∈ [specTimer], (e.regs.map (·.1)).Nodup ∧ (e.regs.map (·.2)).Nodup) ∧
      (fun d : DevSpec => ([specTimer, d].map (·.id)).Nodup ∧ [specTimer, d] = [specTimer] ++ d :: [] ∧
          ¬ (d.regs.map (·.1)).Nodup) { id := idRtc, kind := .rtc, regs := [(nmA, 0), (nmB, 4), (nmA, 8)] } ∧
      (fun d : DevSpec => ([specTimer, d].map (·.id)).Nodup ∧ (d.regs.map (·.1)).Nodup ∧ ¬ (d.regs.map (·.2)).Nodup)
        { id := idRtc, kind := .rtc, regs := [(nmA, 0), (nmB, 0)] } := by decide +kernel

/-- A running Timer that joins, and the same one as an orphan. -/
theorem witness_DeadlineHaltsAndStopsEveryTimer :
    (fun s : State => s.fatal = none ∧ (s.devices.map (·.id)).Nodup ∧
        (∀ x ∈ s.devices, x.body.isRunning = true → x.id ∉ ([] : List Ident)) ∧
        (s.devices = s.devices.take 3 ++ timerDev 7 true :: s.devices.drop 4 ∧ (timerDev 7 true).body.isRunning = true ∧
          idTimer ∈ [idTimer] ∧ ∀ y ∈ s.devices.take 3, y.body.isRunning = true → y.id ∉ [idTimer]))
      (e3 (radioDev 0 none none) (timerDev 7 true)) := by decide +kernel

/-- An operation that can come in each state of the thread, one that cannot for each reason, and the run call. -/
theorem witness_StepRunsTheDecodedInstruction :
    ({ e0 with arrivals := [[7]] } : State).arrivals = [7] :: [] ∧ decode [7] = .ok .icReturn ∧ decode [2] = .ok .icBoundary ∧
      decode [5, 0, 0, 0, 0] = .ok (.vtParse []) ∧ decode [34, 0, 0, 0, 0] = .ok (.timerTick []) ∧
      e0.admits .icReturn ∧ State.admits { e0 with thread := .halted } (.vtParse []) ∧
      State.admits { e0 with thread := .ready } (.timerTick []) ∧ State.admits { e0 with thread := .hung } (.timerTick []) ∧
      State.admits { e0 with fatal := some (.zeroVector 7) } (.timerStop [] true) ∧
      ¬ State.admits { e0 with fatal := some (.zeroVector 7) } .icReturn ∧ ¬ State.admits { e0 with thread := .halted } .icReturn ∧
      (¬ e0.admits (.vtParse []) ∧ isBuilding (.vtParse [])) ∧
      (¬ State.admits { e0 with thread := .ready } .icBoundary ∧ isHook .icBoundary) ∧
      ¬ State.admits { e0 with thread := .hung } .icReturn ∧
      decodeArrival [0x86, 0, 0, 0, 0, 0, 0, 0, 0] = .ok (.run 0) ∧ e0.fatal = none ∧
      ({ e0 with thread := .ready } : State).thread = .ready := by
  simp [State.admits, isBuilding, isHook, e0, State.reset]
  decide +kernel

/-- No arrival, and a packet of each sort. -/
theorem witness_NoStepAfterFatalErrorButTeardown :
    ({ e0 with fatal := some (.zeroVector 7) } : State).fatal = some (.zeroVector 7) ∧ e0.arrivals = [] ∧
      ({ e0 with arrivals := [[33, 0, 0, 0, 0, 1]] } : State).arrivals = [33, 0, 0, 0, 0, 1] :: [] ∧
      decodeArrival [33, 0, 0, 0, 0, 1] = .ok (.op (.timerStop [] true)) ∧
      (decodeArrival [0x88, 0, 0, 0, 0] = .ok (.teardown []) ∧ (e3s.devices.map (·.id)).Nodup) ∧
      decodeArrival [0x89, 4] = .ok (.read .log) ∧
      ((∀ d j, decodeArrival [2] ≠ .ok (.op (.timerStop d j))) ∧ (∀ o, decodeArrival [2] ≠ .ok (.teardown o)) ∧
        ∀ sel, decodeArrival [2] ≠ .ok (.read sel)) := by
  have h : decodeArrival [2] = .ok (.op .icBoundary) := by decide
  rw [h]
  refine ⟨rfl, rfl, rfl, by decide, ⟨by decide, by decide +kernel⟩, by decide, ?_, ?_, ?_⟩ <;> intros <;> simp

theorem witness_FatalErrorStaysAndLogOnlyGrows :
    exec (.gpioOutset idGpio 5) { e3s with fatal := some (.zeroVector 7) } =
        .next (run (.gpioOutset idGpio 5) { e3s with fatal := some (.zeroVector 7) }) ∧
      ({ e3s with fatal := some (.zeroVector 7) } : State).fatal = some (.zeroVector 7) ∧
      (∀ im ds pl, Instr.gpioOutset idGpio 5 ≠ .sessionStart im ds pl) :=
  ⟨rfl, rfl, fun _ _ _ h => Instr.noConfusion h⟩

/-- Substrate number 2 is mapped, 3 is not. -/
theorem witness_HardwareInterruptHookRaises :
    (fun s : State => s.live ∧ s.arrivals = [0x80, 2, 0, 0, 0, 0, 0, 0, 0] :: [] ∧
        decodeArrival [0x80, 2, 0, 0, 0, 0, 0, 0, 0] = .ok (.hwIrq 2) ∧ (∀ e ∈ s.params.irqMap, e.1 ≠ 3) ∧
        s.params.irqMap = [(1, 16)] ++ (2, 17) :: [] ∧ ∀ e ∈ [(1, 16)], e.1 ≠ 2)
      { e0 with params := { e0.params with irqMap := [(1, 16), (2, 17)] }, arrivals := [[0x80, 2, 0, 0, 0, 0, 0, 0, 0]] } := by
  unfold State.live; decide +kernel

theorem witness_DecodeInvertsEncodeForEveryOperation : Instr.wellFormed (.mmioWrite 0x50000508 2 0xFFFF) = true := by decide

/-- A state in a handler, and one with a device of every variant. -/
theorem witness_EveryStepKeepsTheInvariant :
    e3s.inv = true ∧ ({ e0in with arrivals := [[7]] } : State).inv = true ∧
      step { e0in with arrivals := [[7]] } = .next { run .icReturn e0in with arrivals := [] } := ⟨by decide +kernel, by decide +kernel, rfl⟩

end Sys2Proof.Tests
end

section
/-! PROOFS. The state family (10_state.md): what every operation of the table does to the vector table, the parameters,
CONTROL, the fatal error and the log (O17, O18, O53), and IPSR as a field of xPSR (O55). Most of it is one inversion lemma,
`exec_cases`: an operation answers a state that `Follows` the one before, but for the load of an image, the start of a
session and its deadline. -/

namespace Sys2Proof.Machine

/-! ### IPSR (R25) -/

theorem Cpu.write_ipsr (c : Cpu) (v : Word) : c.write .ipsr v = { c with xpsr := withIpsr c.xpsr v.toNat } := rfl

theorem getLsbD_read_ipsr (c : Cpu) (i : Nat) : (c.read .ipsr).getLsbD i = (decide (i < 9) && c.xpsr.getLsbD i) := by
  have h : c.read .ipsr = (ipsrOf c.xpsr).setWidth 32 := rfl
  rw [h, ipsrOf, BitVec.getLsbD_setWidth, BitVec.getLsbD_extractLsb', Nat.zero_add]
  by_cases hi : i < 9
  · simp [hi, show i < 32 by omega]
  · simp [hi]

/-- Settles O55: the write is with_ipsr on xPSR alone, which replaces bits [8:0]. -/
theorem ipsrIsAFieldOfXpsr : Obligations.IpsrIsAFieldOfXpsr := by
  intro c v
  refine ⟨rfl, fun i => ?_, getLsbD_read_ipsr c⟩
  rw [Cpu.write_ipsr, getLsbD_withIpsr]
  by_cases hi : i < 9
  · simp [hi]
  · rw [if_neg hi, if_neg hi]

/-! ### The load of an image (R147) -/

@[simp] theorem parseImage_cpu (image : List Byte) (s : State) : (parseImage image s).cpu = s.cpu := by
  unfold parseImage; split <;> simp

@[simp] theorem parseImage_params (image : List Byte) (s : State) : (parseImage image s).params = s.params := by
  unfold parseImage; split <;> simp

@[simp] theorem parseImage_log (image : List Byte) (s : State) : (parseImage image s).log = s.log := by
  unfold parseImage; split <;> simp

theorem parseImage_keeps_fatal (image : List Byte) {s : State} {f : Fatal} (h : s.fatal = some f) :
    (parseImage image s).fatal = some f := by
  unfold parseImage; split <;> simp [h]

/-! ### The start of a session (R280) -/

@[simp] theorem constructAll_params (ds : List DevSpec) (s : State) : (constructAll ds s).params = s.params := by
  rcases constructAll_cases ds s with ⟨-, h⟩ | ⟨_, _, _, _, -, -, -, h⟩ <;> simp [h]

theorem constructAll_keeps_fatal (ds : List DevSpec) {s : State} {f : Fatal} (h : s.fatal = some f) :
    (constructAll ds s).fatal = some f := by
  rcases constructAll_cases ds s with ⟨-, e⟩ | ⟨_, _, _, _, -, -, -, e⟩ <;> simp [e, h]

/-- The state after R280 steps 1 to 3, where the image is long enough and no identifier is repeated. -/
def sessionBuilding (image : List Byte) (devs : List DevSpec) (plat : Platform) (s : State) : State :=
  constructAll devs
    { parseImage image s with devices := [], named := [], params := { s.params with hwDb := plat.hwDb } }

@[simp] theorem sessionBuilding_params (image : List Byte) (devs : List DevSpec) (plat : Platform) (s : State) :
    (sessionBuilding image devs plat s).params = { s.params with hwDb := plat.hwDb } := by simp [sessionBuilding]

theorem sessionBuilding_keeps_fatal (image : List Byte) (devs : List DevSpec) (plat : Platform) {s : State} {f : Fatal}
    (h : s.fatal = some f) : (sessionBuilding image devs plat s).fatal = some f :=
  constructAll_keeps_fatal devs (parseImage_keeps_fatal image h)

/-- Everything `session_start` can do in any state, a fatal error present or not (`sessionStart_cases` is for none): a short
image, a repeated identifier, a fatal error once the devices are built, or the state of R286. -/
theorem sessionStart_stages (image : List Byte) (devs : List DevSpec) (plat : Platform) (s : State) :
    (sessionStart image devs plat s = raiseFatal (.imageTooShort image.length) s) ∨
    (∃ id, sessionStart image devs plat s = raiseFatal (.duplicateRegister id .identify) (parseImage image s)) ∨
    (sessionStart image devs plat s = sessionBuilding image devs plat s) ∨
    ((sessionBuilding image devs plat s).fatal = none ∧
      sessionStart image devs plat s =
        { sessionBuilding image devs plat s with
          pend := [], afs := [], fatal := none, log := []
          cpu := launchCpu plat.launch (sessionBuilding image devs plat s).vt, mem := launchMem plat.launch
          params := { s.params with hwDb := plat.hwDb, mapped := plat.launch.mapped, irqMap := plat.irqMap }
          thread := .ready, cbCode := [] }) := by
  have hb : constructAll devs
      { parseImage image s with
        devices := [], named := [], params := { (parseImage image s).params with hwDb := plat.hwDb } } =
      sessionBuilding image devs plat s := by rw [parseImage_params, sessionBuilding]
  unfold sessionStart
  split
  · exact .inl rfl
  · dsimp only
    split
    · next id _ => exact .inr (.inl ⟨id, rfl⟩)
    · rw [hb]
      split
      · exact .inr (.inr (.inl rfl))
      · next hn => exact .inr (.inr (.inr ⟨by simpa using hn, by rw [sessionBuilding_params]⟩))

/-- The start of a session brings three parameters and keeps the others (R9, R45, log 26). -/
theorem sessionStart_params (image : List Byte) (devs : List DevSpec) (plat : Platform) (s : State) :
    ∃ db mapped irqs, (sessionStart image devs plat s).params =
      { s.params with hwDb := db, mapped := mapped, irqMap := irqs } := by
  rcases sessionStart_stages image devs plat s with h | ⟨_, h⟩ | h | ⟨-, h⟩ <;> rw [h]
  · exact ⟨_, _, _, raiseFatal_params _ _⟩
  · exact ⟨_, _, _, (raiseFatal_params _ _).trans (parseImage_params _ _)⟩
  · exact ⟨_, _, _, sessionBuilding_params _ _ _ _⟩
  · exact ⟨_, _, _, rfl⟩

/-- A fatal error that is present ends a session start before R286's values are set (R37). -/
theorem sessionStart_keeps_fatal (image : List Byte) (devs : List DevSpec) (plat : Platform) {s : State} {f : Fatal}
    (hf : s.fatal = some f) : (sessionStart image devs plat s).fatal = some f := by
  have hb := sessionBuilding_keeps_fatal image devs plat hf
  rcases sessionStart_stages image devs plat s with h | ⟨_, h⟩ | h | ⟨hn, -⟩
  · simp [h, hf]
  · simp [h, parseImage_keeps_fatal image hf]
  · rw [h, hb]
  · rw [hb] at hn; cases hn

/-! ### Operations that hand back a value -/

/-- Every next state of this outcome follows `s`. -/
def OutcomeFollows (s : State) (o : Host.Outcome State Fault Refusal) : Prop := ∀ t, o = .next t → Follows s t

theorem outcomeFollows_next {s t : State} (h : Follows s t) : OutcomeFollows s (.next t) := by
  rintro _ ⟨⟩; exact h

theorem outcomeFollows_answer (v : Value) (s : State) : OutcomeFollows s (.next (answer v s)) :=
  outcomeFollows_next (answer_follows v s)

theorem outcomeFollows_self (s : State) : OutcomeFollows s (.next s) := outcomeFollows_next (Follows.refl s)

theorem answerReg_follows (r : Option Reg) (s : State) : Follows s (answerReg r s) := by
  cases r <;> exact answer_follows _ s

theorem execVtLookup_follows (n : Nat) (s : State) : OutcomeFollows s (execVtLookup n s) := by
  unfold execVtLookup
  split
  · exact outcomeFollows_answer _ s
  · exact outcomeFollows_next (raiseFatal_follows _ s)

theorem execMmioLookup_follows (a : Word) (s : State) : OutcomeFollows s (execMmioLookup a s) := by
  unfold execMmioLookup; split <;> exact outcomeFollows_answer _ s

theorem execRfByName_follows (d nm : Ident) (s : State) : OutcomeFollows s (execRfByName d nm s) := by
  unfold execRfByName
  split
  · exact outcomeFollows_next (answerReg_follows _ s)
  · exact outcomeFollows_self s

theorem execRfByAddr_follows (d : Ident) (a : Word) (s : State) : OutcomeFollows s (execRfByAddr d a s) := by
  unfold execRfByAddr
  split
  · exact outcomeFollows_next (answerReg_follows _ s)
  · exact outcomeFollows_self s

theorem execRfBit_follows (d nm : Ident) (n : Nat) (s : State) : OutcomeFollows s (execRfBit d nm n s) := by
  unfold execRfBit
  split
  · exact outcomeFollows_answer _ s
  · exact outcomeFollows_self s

theorem execRfBitRange_follows (d nm : Ident) (first last : Nat) (s : State) :
    OutcomeFollows s (execRfBitRange d nm first last s) := by
  unfold execRfBitRange
  split
  · exact outcomeFollows_answer _ s
  · exact outcomeFollows_self s

theorem execDevIdentify_follows (d : Ident) (s : State) : OutcomeFollows s (execDevIdentify d s) := by
  unfold execDevIdentify
  split
  · exact outcomeFollows_answer _ s
  · exact outcomeFollows_self s

theorem execDevRead_follows (d : Ident) (a : Word) (s : State) : OutcomeFollows s (execDevRead d a s) := by
  unfold execDevRead
  split
  · split <;> exact outcomeFollows_answer _ s
  · exact outcomeFollows_self s

/-! ### Every operation of the table -/

/-- The operations that a session goes on after: all but the load of an image, the start and the deadline. -/
def staysInSession : Instr → Bool
  | .vtParse _ => false
  | .sessionStart _ _ _ => false
  | .sessionDeadline _ => false
  | _ => true

theorem exec_follows (i : Instr) (s : State) (hi : staysInSession i = true) : OutcomeFollows s (exec i s) := by
  cases i with
  | icRaise n => exact outcomeFollows_next (raiseException_follows n s)
  | icBoundary => exact outcomeFollows_next (drainPending_follows s.pend s)
  | icEnter n => exact outcomeFollows_next (enter_follows n s)
  | vtLookup n => exact execVtLookup_follows n s
  | icBlockEntry a => exact outcomeFollows_next (blockEntry_follows a s)
  | icReturn => exact outcomeFollows_next (excReturn_follows s)
  | icNonmatch a => exact outcomeFollows_next (nonmatch_eq a s ▸ Follows.refl s)
  | icEncode spsel fpca => exact outcomeFollows_answer _ s
  | icDecode v => exact outcomeFollows_answer _ s
  | mmioLookup a => exact execMmioLookup_follows a s
  | mmioRead a n => exact outcomeFollows_next (busRead_follows a n s)
  | mmioWrite a n v => exact outcomeFollows_next (busWrite_follows a n v s)
  | rfConstruct d regs => exact outcomeFollows_next (construct_follows d regs s)
  | rfByName d nm => exact execRfByName_follows d nm s
  | rfByAddr d a => exact execRfByAddr_follows d a s
  | rfSetByAddr d a v => exact outcomeFollows_next (setByAddress_follows d a v s)
  | rfSetByName d nm v => exact outcomeFollows_next (setByName_follows d nm v s)
  | rfBit d nm n => exact execRfBit_follows d nm n s
  | rfBitRange d nm first last => exact execRfBitRange_follows d nm first last s
  | devIdentify d => exact execDevIdentify_follows d s
  | devRead d a => exact execDevRead_follows d a s
  | devWrite d a v => exact outcomeFollows_next (deviceWrite_follows d a v s)
  | clockHfclkstart d v => exact outcomeFollows_next (clockHfclkstart_follows d s)
  | gpioOutset d v => exact outcomeFollows_next (gpioPins_follows .set d v s)
  | gpioOutclr d v => exact outcomeFollows_next (gpioPins_follows .clear d v s)
  | radioTxen d v => exact outcomeFollows_next (radioTxen_follows d s)
  | radioRxen d v => exact outcomeFollows_next (radioRxen_follows d s)
  | radioInject d bytes => exact outcomeFollows_next (injectPacket_follows d bytes s)
  | radioSetState d st => exact outcomeFollows_next (setRadioState_follows d st s)
  | radioRegCb d kind f => exact outcomeFollows_next (registerCb_follows d kind f s)
  | timerStart d => exact outcomeFollows_next (timerStart_follows d s)
  | timerStop d joins => exact outcomeFollows_next (timerStop_follows d joins s)
  | timerTick d => exact outcomeFollows_next (timerTick_follows d s)
  | timerCapture d k => exact outcomeFollows_next (timerCapture_follows d k s)
  | vtParse image => cases hi
  | sessionStart image devs plat => cases hi
  | sessionDeadline orphans => cases hi

/-- Everything an operation can do: the load of an image, the start of a session, or a state that follows the one before,
whose execution thread the deadline has halted first (R289). -/
theorem exec_cases {i : Instr} {s t : State} (h : exec i s = .next t) :
    (∃ image, i = .vtParse image ∧ t = parseImage image s) ∨
    (∃ image devs plat, i = .sessionStart image devs plat ∧ t = sessionStart image devs plat s) ∨
    (∃ th, (th = s.thread ∨ th = .halted) ∧ Follows { s with thread := th } t) := by
  by_cases hi : staysInSession i = true
  · exact .inr (.inr ⟨s.thread, .inl rfl, exec_follows i s hi t h⟩)
  · cases i with
    | vtParse image => cases h; exact .inl ⟨image, rfl, rfl⟩
    | sessionStart image devs plat => cases h; exact .inr (.inl ⟨image, devs, plat, rfl, rfl⟩)
    | sessionDeadline orphans => cases h; exact .inr (.inr ⟨.halted, .inr rfl, endRun_follows orphans s⟩)
    | _ => exact absurd rfl hi

/-- Settles O17, by `exec_cases`: a state that follows keeps both, a load keeps the parameters, a start all but three. -/
theorem vectorTableAndParametersFixed : Obligations.VectorTableAndParametersFixed := by
  intro i s t h
  rcases exec_cases h with ⟨image, rfl, rfl⟩ | ⟨image, devs, plat, rfl, rfl⟩ | ⟨th, -, hf⟩
  · exact ⟨fun hp => absurd rfl (hp image), fun _ => parseImage_params image s, by rw [parseImage_params]⟩
  · refine ⟨fun _ hs => absurd rfl (hs image devs plat), fun hs => absurd rfl (hs image devs plat), ?_⟩
    obtain ⟨db, mapped, irqs, e⟩ := sessionStart_params image devs plat s
    rw [e]
  · have hp : t.params = s.params := hf.params
    exact ⟨fun _ _ => ⟨hf.vt, hp⟩, fun _ => hp, by rw [hp]⟩

/-- Settles O18, by `exec_cases`: a load of an image leaves the CPU alone, and a state that follows keeps these bits. -/
theorem controlBitsOtherThanModeKept : Obligations.ControlBitsOtherThanModeKept := by
  intro i s t h hs
  rcases exec_cases h with ⟨image, rfl, rfl⟩ | ⟨image, devs, plat, rfl, rfl⟩ | ⟨th, -, hf⟩
  · intro k _ _
    rw [parseImage_cpu]
  · exact absurd rfl (hs image devs plat)
  · exact hf.control

/-- Settles O53, by `exec_cases`: each of the three kinds of operation keeps a fatal error, and only a session start can
shorten the log. -/
theorem fatalErrorStaysAndLogOnlyGrows : Obligations.FatalErrorStaysAndLogOnlyGrows := by
  intro i s t h
  rcases exec_cases h with ⟨image, rfl, rfl⟩ | ⟨image, devs, plat, rfl, rfl⟩ | ⟨th, -, hf⟩
  · exact ⟨fun _ => parseImage_keeps_fatal image, fun _ => by rw [parseImage_log]⟩
  · exact ⟨fun _ => sessionStart_keeps_fatal image devs plat, fun hs => absurd rfl (hs image devs plat)⟩
  · exact ⟨hf.fatal, fun _ => hf.log⟩

end Sys2Proof.Machine
end

section
/-! PROOFS. The memory family (20_memory.md): the checks that stand before every dispatched access (O22) and what repeating
a dispatched read does (O23). The idea of O23: the overwrite of R172 fixes what every byte reads, so doing it again changes
none, and equal reads of canonical memories make them equal. -/

namespace Sys2Proof.Machine

/-! ### The checks of a dispatched access (R67, R71) -/

/-- The fatal error that the checks of a dispatched access raise, if they raise one: the size before the bytes. -/
def accessError (mapped : List Region) (a : Word) (n : Nat) : Option Fatal :=
  if sizeOk n then (firstUnmapped mapped a n).map fun _ => .substrateAccessFault a
  else some (.unsupportedAccessSize a n)

theorem sizeOk_iff (n : Nat) : sizeOk n = true ↔ n = 1 ∨ n = 2 ∨ n = 4 := by simp [sizeOk, or_assoc]

theorem accessError_of_size {n : Nat} (mapped : List Region) (a : Word) (h : n ≠ 1 ∧ n ≠ 2 ∧ n ≠ 4) :
    accessError mapped a n = some (.unsupportedAccessSize a n) := by
  have hs : ¬ sizeOk n = true := by rw [sizeOk_iff]; omega
  rw [accessError, if_neg hs]

theorem accessError_of_unmapped {mapped : List Region} {a : Word} {n : Nat} (hn : n = 1 ∨ n = 2 ∨ n = 4)
    (h : ¬ mappedFrom mapped a n) : accessError mapped a n = some (.substrateAccessFault a) := by
  have hu : firstUnmapped mapped a n ≠ none := fun e => h ((firstUnmapped_none mapped n a).1 e)
  obtain ⟨x, hx⟩ := Option.ne_none_iff_exists'.1 hu
  rw [accessError, if_pos ((sizeOk_iff n).2 hn), hx, Option.map_some]

theorem accessError_of_mapped {mapped : List Region} {a : Word} {n : Nat} (hn : n = 1 ∨ n = 2 ∨ n = 4)
    (h : mappedFrom mapped a n) : accessError mapped a n = none := by
  rw [accessError, if_pos ((sizeOk_iff n).2 hn), (firstUnmapped_none mapped n a).2 h, Option.map_none]

/-- BusRead raises the error of the checks, or goes on (R172). -/
theorem busRead_eq (a : Word) (n : Nat) (s : State) :
    busRead a n s = (accessError s.params.mapped a n).elim
      (answer (.word ((backingAfterRead a s).memRead a n)) { s with mem := backingAfterRead a s }) (raiseFatal · s) := by
  unfold busRead accessError
  cases sizeOk n
  · rfl
  · cases firstUnmapped s.params.mapped a n <;> rfl

/-- BusWrite raises the error of the checks, or goes on (R173). -/
theorem busWrite_eq (a : Word) (n : Nat) (v : Word) (s : State) :
    busWrite a n v s = (accessError s.params.mapped a n).elim
      (landBytes a n v (ownerWrite a (zextValue n v) s)) (raiseFatal · s) := by
  unfold busWrite accessError
  cases sizeOk n
  · rfl
  · cases firstUnmapped s.params.mapped a n <;> rfl

theorem exec_mmioRead (a : Word) (n : Nat) (s : State) : exec (.mmioRead a n) s = .next (busRead a n s) := rfl

theorem exec_mmioWrite (a : Word) (n : Nat) (v : Word) (s : State) :
    exec (.mmioWrite a n v) s = .next (busWrite a n v s) := rfl

/-- Where no fatal error is present, an error of the checks is all that a dispatched access leaves behind. -/
theorem exec_dispatched_of_accessError {a : Word} {n : Nat} {s : State} {f : Fatal} (v : Word) (hs : s.fatal = none)
    (h : accessError s.params.mapped a n = some f) :
    exec (.mmioRead a n) s = .next { s with fatal := some f } ∧
      exec (.mmioWrite a n v) s = .next { s with fatal := some f } := by
  simp only [exec_mmioRead, exec_mmioWrite, busRead_eq, busWrite_eq, h, Option.elim_some, raiseFatal_of_none hs, and_self]

/-- Settles O22: the checks raise the size's error first, and the unmapped byte's where the size is allowed. -/
theorem dispatchedAccessChecksFirst : Obligations.DispatchedAccessChecksFirst := by
  intro a n v s hs
  exact ⟨fun hn => exec_dispatched_of_accessError v hs (accessError_of_size _ a hn),
    fun hn hm => exec_dispatched_of_accessError v hs (accessError_of_unmapped hn hm)⟩

/-! ### The backing overwrite (R172) -/

theorem Memory.memWrite_one (m : Memory) (a v : Word) : m.memWrite a 1 v = m.write a.toNat (BitVec.ofNat 8 v.toNat) := rfl

theorem byteOf_eq_shift (v : Word) (i : Nat) : byteOf v i = BitVec.ofNat 8 (v >>> (8 * i)).toNat := by
  apply BitVec.eq_of_toNat_eq
  simp [byteOf]

/-- The overwrite of R172 for the first `n` bytes. -/
def overwriteFirst (mapped : List Region) (a v : Word) (m : Memory) : Nat → Memory
  | 0 => m
  | n + 1 =>
    if isMapped mapped (a + BitVec.ofNat 32 n) then
      (overwriteFirst mapped a v m n).memWrite (a + BitVec.ofNat 32 n) 1 (v >>> (8 * n))
    else overwriteFirst mapped a v m n

theorem overwriteBacking_eq (mapped : List Region) (a v : Word) (m : Memory) :
    overwriteBacking mapped a v m = overwriteFirst mapped a v m 4 := rfl

theorem read_overwriteFirst_succ (mapped : List Region) (a v : Word) (m : Memory) (n x : Nat) :
    (overwriteFirst mapped a v m (n + 1)).read x =
      if x = (a + BitVec.ofNat 32 n).toNat ∧ isMapped mapped (a + BitVec.ofNat 32 n) = true then byteOf v n
      else (overwriteFirst mapped a v m n).read x := by
  rw [overwriteFirst]
  split
  · next h => rw [Memory.memWrite_one, Memory.read_write, ← byteOf_eq_shift]; simp only [h, and_true]
  · next h => rw [if_neg fun hx => h hx.2]

theorem read_overwriteFirst_outside (mapped : List Region) (a v : Word) (m : Memory) (n x : Nat) (h : outside a n x) :
    (overwriteFirst mapped a v m n).read x = m.read x := by
  induction n with
  | zero => rfl
  | succ n ih =>
    rw [read_overwriteFirst_succ, if_neg fun hx => h n (Nat.lt_succ_self n) hx.1,
      ih fun i hi => h i (Nat.lt_succ_of_lt hi)]

theorem read_overwriteFirst_at (mapped : List Region) (a v : Word) (m : Memory) (n i : Nat) (hi : i < n) (hn : n ≤ 2 ^ 32) :
    (overwriteFirst mapped a v m n).read (a + BitVec.ofNat 32 i).toNat =
      if isMapped mapped (a + BitVec.ofNat 32 i) then byteOf v i else m.read (a + BitVec.ofNat 32 i).toNat := by
  induction n with
  | zero => exact absurd hi (Nat.not_lt_zero i)
  | succ n ih =>
    rw [read_overwriteFirst_succ]
    by_cases hin : i = n
    · subst hin
      have ho : outside a i (a + BitVec.ofNat 32 i).toNat := fun j hj => Word.offset_ne a (by omega) (by omega) (by omega)
      rw [read_overwriteFirst_outside mapped a v m i _ ho]
      simp only [true_and]
    · have hne := Word.offset_ne a (i := i) (j := n) (by omega) (by omega) hin
      rw [if_neg fun hx => hne hx.1, ih (by omega) (by omega)]

theorem read_overwriteBacking_outside (mapped : List Region) (a v : Word) (m : Memory) (x : Nat) (h : outside a 4 x) :
    (overwriteBacking mapped a v m).read x = m.read x :=
  read_overwriteFirst_outside mapped a v m 4 x h

/-- Each of the four bytes reads as the value's where it is mapped, and as before where it is not. -/
theorem read_overwriteBacking_at (mapped : List Region) (a v : Word) (m : Memory) (i : Nat) (hi : i < 4) :
    (overwriteBacking mapped a v m).read (a + BitVec.ofNat 32 i).toNat =
      if isMapped mapped (a + BitVec.ofNat 32 i) then byteOf v i else m.read (a + BitVec.ofNat 32 i).toNat :=
  read_overwriteFirst_at mapped a v m 4 i hi (by omega)

theorem read_overwriteBacking_twice (mapped : List Region) (a v : Word) (m : Memory) (x : Nat) :
    (overwriteBacking mapped a v (overwriteBacking mapped a v m)).read x = (overwriteBacking mapped a v m).read x := by
  by_cases h : outside a 4 x
  · exact read_overwriteBacking_outside mapped a v _ x h
  · obtain ⟨i, hi, rfl⟩ : ∃ i, i < 4 ∧ x = (a + BitVec.ofNat 32 i).toNat := by simpa [outside] using h
    rw [read_overwriteBacking_at mapped a v _ i hi, read_overwriteBacking_at mapped a v m i hi]
    split <;> rfl

theorem overwriteBacking_twice (mapped : List Region) (a v : Word) (m : Memory) (h : m.wf = true) :
    overwriteBacking mapped a v (overwriteBacking mapped a v m) = overwriteBacking mapped a v m := by
  have hw := overwriteBacking_wf mapped a v m h
  exact Memory.eq_of_read _ _ 0 0 (overwriteBacking_wf mapped a v _ hw) hw (read_overwriteBacking_twice mapped a v m)

/-! ### A dispatched read, repeated (R69) -/

/-- The lookup and the device's answer, in which the state's memory has no part, decide whether there is an overwrite. -/
theorem backingAfterRead_eq (a : Word) (s : State) :
    backingAfterRead a s =
      ((s.resolve a).bind fun x => deviceRead x a).elim s.mem fun v => overwriteBacking s.params.mapped a v s.mem := by
  unfold backingAfterRead
  cases s.resolve a with
  | none => rfl
  | some x => simp only [Option.bind_some]; cases deviceRead x a <;> rfl

theorem backingAfterRead_twice (a : Word) (v : Value) (s : State) (h : s.mem.wf = true) :
    backingAfterRead a (answer v { s with mem := backingAfterRead a s }) = backingAfterRead a s := by
  have hr : (answer v { s with mem := backingAfterRead a s }).resolve a = s.resolve a := rfl
  rw [backingAfterRead_eq a (answer v _), hr, answer_mem, answer_params, backingAfterRead_eq a s]
  cases (s.resolve a).bind fun x => deviceRead x a with
  | none => rfl
  | some w => exact overwriteBacking_twice s.params.mapped a w s.mem h

theorem busRead_twice (a : Word) (n : Nat) (s : State) (h : s.mem.wf = true) :
    busRead a n (busRead a n s) = busRead a n s := by
  have hp : (busRead a n s).params = s.params := (busRead_follows a n s).params
  rw [busRead_eq a n (busRead a n s), hp, busRead_eq a n s]
  cases accessError s.params.mapped a n with
  | none => simp only [Option.elim_none, backingAfterRead_twice a _ s h]; rfl
  | some f => exact raiseFatal_of_some (raiseFatal_fatal f s)

/-- Settles O23, by `busRead_twice`: an error that the first read raised stays, and the overwrite repeated changes no byte. -/
theorem dispatchedReadIsIdempotent : Obligations.DispatchedReadIsIdempotent := by
  rintro a n s _ h ⟨⟩
  rw [exec_mmioRead, busRead_twice a n s h]

end Sys2Proof.Machine
end

section
/-! PROOFS. The packets (30_encoding.md R107; log 2): the decoder takes back every operation that the encoder put down (O56),
packets and table words written out (O57). The idea of O56: each row's operands are read back by the readers of
Laws/Decode.lean, put together as the encoder puts the writers together. -/

namespace Sys2Proof

/-! ### Rows of the table and events (log 25) -/

theorem rdOperands_lt {n : Nat} {rd : Reader Instr} (h : rdOperands n = some rd) : n < 38 := by
  unfold rdOperands at h
  split at h
  case h_38 => cases h
  all_goals omega

theorem rdEvent_none {n : Nat} (h : n < 0x80) : rdEvent n = none := by
  unfold rdEvent
  split
  case h_11 => rfl
  all_goals omega

theorem rdMap_inv {α β : Type} {f : α → β} {ra : Reader α} {bs rest : List Byte} {b : β}
    (h : rdMap f ra bs = some (b, rest)) : ∃ a, f a = b := by
  unfold rdMap at h
  split at h
  · cases h; exact ⟨_, rfl⟩
  · cases h

/-- What an event's packet reads to is no operation of the table. -/
theorem rdEvent_ne_op {n : Nat} {rd : Reader Arrival} {bs rest : List Byte} {a : Arrival} (h : rdEvent n = some rd)
    (hr : rd bs = some (a, rest)) (i : Instr) : a ≠ .op i := by
  unfold rdEvent at h
  split at h
  case h_11 => cases h
  all_goals
    cases h
    obtain ⟨x, rfl⟩ := rdMap_inv hr
    exact Arrival.noConfusion

/-! ### What the two decoders answer -/

/-- A packet that decodes to an operation: its row's number, its operands read to their end, and admitted. -/
theorem decode_ok {p : List Byte} {i : Instr} (h : decode p = .ok i) :
    ∃ t body rd, p = t :: body ∧ rdOperands t.toNat = some rd ∧ rd body = some (i, []) ∧ i.wellFormed = true := by
  unfold decode at h
  split at h
  · cases h
  · next t body =>
    split at h
    · cases h
    · next rd hrd =>
      split at h
      · cases h
      · cases h
      · next hr =>
        split at h
        · next hw => cases h; exact ⟨t, body, rd, rfl, hrd, hr, hw⟩
        · cases h

theorem wellFormed_of_decode {p : List Byte} {i : Instr} (h : decode p = .ok i) : i.wellFormed = true := by
  obtain ⟨-, -, -, -, -, -, hw⟩ := decode_ok h
  exact hw

theorem decodeArrival_of_decode {p : List Byte} {i : Instr} (h : decode p = .ok i) : decodeArrival p = .ok (.op i) := by
  obtain ⟨t, body, rd, rfl, hrd, -, -⟩ := decode_ok h
  have hlt := rdOperands_lt hrd
  have he : rdEvent t.toNat = none := rdEvent_none (by omega)
  simp only [decodeArrival, he, h]

theorem decode_of_decodeArrival {p : List Byte} {i : Instr} (h : decodeArrival p = .ok (.op i)) : decode p = .ok i := by
  unfold decodeArrival at h
  split at h
  · cases h
  · split at h
    · next hrd =>
      split at h
      · cases h
      · cases h
      · next hr => cases h; exact absurd rfl (rdEvent_ne_op hrd hr i)
    · split at h
      · next hd => cases h; exact hd
      · cases h

/-! ### Encoding, then decoding -/

/-- A row whose operands read back decodes to the operation that its constructor `f` makes of them. -/
theorem decode_row {α : Type} {t : Byte} {f : α → Instr} {ra : Reader α} {wa : α → List Byte} {a : α} {i : Instr}
    (hw : i.wellFormed = true) (ha : ReadsBack ra wa a) (he : encode i = t :: wa a)
    (ht : rdOperands t.toNat = some (rdMap f ra)) (hi : f a = i) : decode (encode i) = .ok i := by
  have hr := rdMap_readsBack f ha []
  rw [List.append_nil, hi] at hr
  rw [he]
  exact decode_of_operands ht hr hw

theorem decode_encode (i : Instr) (hw : i.wellFormed = true) : decode (encode i) = .ok i := by
  have w := hw
  cases i <;> simp only [Instr.wellFormed, Bool.and_eq_true] at w
  case icRaise n => exact decode_row hw (readsBack_nat n w) rfl rfl rfl
  case icBoundary => exact decode_of_operands rfl rfl hw
  case icEnter n => exact decode_row hw (readsBack_nat n w) rfl rfl rfl
  case vtLookup n => exact decode_row hw (readsBack_nat n w) rfl rfl rfl
  case vtParse image => exact decode_row hw (readsBack_bytes image w) rfl rfl rfl
  case icBlockEntry a => exact decode_row hw (readsBack_word a) rfl rfl rfl
  case icReturn => exact decode_of_operands rfl rfl hw
  case icNonmatch a => exact decode_row hw (readsBack_word a) rfl rfl rfl
  case icEncode s f => exact decode_row hw (readsBack_pair (readsBack_bool s) (readsBack_bool f)) rfl rfl rfl
  case icDecode v => exact decode_row hw (readsBack_word v) rfl rfl rfl
  case mmioLookup a => exact decode_row hw (readsBack_word a) rfl rfl rfl
  case mmioRead a n => exact decode_row hw (readsBack_pair (readsBack_word a) (readsBack_nat n w)) rfl rfl rfl
  case mmioWrite a n v =>
    obtain ⟨hn, -⟩ := w
    exact decode_row hw (readsBack_pair (readsBack_word a) (readsBack_pair (readsBack_nat n hn) (readsBack_word v)))
      rfl rfl rfl
  case rfConstruct dev regs =>
    obtain ⟨hd, hr⟩ := w
    exact decode_row hw (readsBack_pair (readsBack_bytes dev hd) (readsBack_regs regs hr)) rfl rfl rfl
  case rfByName dev name =>
    obtain ⟨hd, hn⟩ := w
    exact decode_row hw (readsBack_pair (readsBack_bytes dev hd) (readsBack_bytes name hn)) rfl rfl rfl
  case rfByAddr dev a => exact decode_row hw (readsBack_pair (readsBack_bytes dev w) (readsBack_word a)) rfl rfl rfl
  case rfSetByAddr dev a v =>
    obtain ⟨hd, hv⟩ := w
    exact decode_row hw (readsBack_pair (readsBack_bytes dev hd) (readsBack_pair (readsBack_word a) (readsBack_nat v hv)))
      rfl rfl rfl
  case rfSetByName dev name v =>
    obtain ⟨⟨hd, hn⟩, hv⟩ := w
    exact decode_row hw
      (readsBack_pair (readsBack_bytes dev hd) (readsBack_pair (readsBack_bytes name hn) (readsBack_nat v hv))) rfl rfl rfl
  case rfBit dev name n =>
    obtain ⟨⟨hd, hm⟩, hn⟩ := w
    exact decode_row hw
      (readsBack_pair (readsBack_bytes dev hd) (readsBack_pair (readsBack_bytes name hm) (readsBack_nat n hn))) rfl rfl rfl
  case rfBitRange dev name first last =>
    obtain ⟨⟨⟨hd, hn⟩, hf⟩, hl⟩ := w
    exact decode_row hw
      (readsBack_pair (readsBack_bytes dev hd)
        (readsBack_pair (readsBack_bytes name hn) (readsBack_pair (readsBack_nat first hf) (readsBack_nat last hl))))
      rfl rfl rfl
  case devIdentify d => exact decode_row hw (readsBack_bytes d w) rfl rfl rfl
  case devRead d a => exact decode_row hw (readsBack_pair (readsBack_bytes d w) (readsBack_word a)) rfl rfl rfl
  case devWrite d a v =>
    exact decode_row hw (readsBack_pair (readsBack_bytes d w) (readsBack_pair (readsBack_word a) (readsBack_word v)))
      rfl rfl rfl
  case clockHfclkstart d v => exact decode_row hw (readsBack_pair (readsBack_bytes d w) (readsBack_word v)) rfl rfl rfl
  case gpioOutset d v => exact decode_row hw (readsBack_pair (readsBack_bytes d w) (readsBack_word v)) rfl rfl rfl
  case gpioOutclr d v => exact decode_row hw (readsBack_pair (readsBack_bytes d w) (readsBack_word v)) rfl rfl rfl
  case radioTxen d v => exact decode_row hw (readsBack_pair (readsBack_bytes d w) (readsBack_word v)) rfl rfl rfl
  case radioRxen d v => exact decode_row hw (readsBack_pair (readsBack_bytes d w) (readsBack_word v)) rfl rfl rfl
  case radioInject d bytes =>
    obtain ⟨hd, hb⟩ := w
    exact decode_row hw (readsBack_pair (readsBack_bytes d hd) (readsBack_bytes bytes hb)) rfl rfl rfl
  case radioSetState d st => exact decode_row hw (readsBack_pair (readsBack_bytes d w) (readsBack_radioState st)) rfl rfl rfl
  case radioRegCb d kind f =>
    obtain ⟨hd, hf⟩ := w
    exact decode_row hw
      (readsBack_pair (readsBack_bytes d hd) (readsBack_pair (readsBack_cbKind kind) (readsBack_nat f hf))) rfl rfl rfl
  case timerStart d => exact decode_row hw (readsBack_bytes d w) rfl rfl rfl
  case timerStop d joins => exact decode_row hw (readsBack_pair (readsBack_bytes d w) (readsBack_bool joins)) rfl rfl rfl
  case timerTick d => exact decode_row hw (readsBack_bytes d w) rfl rfl rfl
  case timerCapture d k =>
    obtain ⟨hd, hk⟩ := w
    have hk6 : k < 6 := of_decide_eq_true hk
    have hkf : natFits k = true := decide_eq_true (by omega)
    exact decode_row hw (readsBack_pair (readsBack_bytes d hd) (readsBack_nat k hkf)) rfl rfl rfl
  case sessionStart image devs plat =>
    obtain ⟨⟨hi, hl, hd⟩, hp⟩ := w
    exact decode_row hw
      (readsBack_pair (readsBack_bytes image hi)
        (readsBack_pair (readsBack_devSpecs devs hl hd) (readsBack_platform plat hp)))
      rfl rfl rfl
  case sessionDeadline orphans => exact decode_row hw (readsBack_idents orphans w) rfl rfl rfl

/-- Settles O56, by `decode_encode`: both decoders read an operation's packet alike. -/
theorem decodeInvertsEncodeForEveryOperation : Obligations.DecodeInvertsEncodeForEveryOperation := by
  intro i hw
  have h := decode_encode i hw
  exact ⟨h, decodeArrival_of_decode h⟩

/-- Settles O57, by evaluation of the decoder on each packet. -/
theorem writtenOutPacketsDecode : Obligations.WrittenOutPacketsDecode :=
  ⟨by decide, by decide, by decide, by decide, by decide, by decide⟩

end Sys2Proof
end

section
/-! PROOFS. Taking an arrival: which arrivals `step` lets come, what it answers to the others (O51), and the invariant that
every step keeps (O58, O59). The idea of O58: an operation of a session answers a state that `Follows` the one before, so
only what comes outside a session, and the end of a run, have anything of their own to show. -/

namespace Sys2Proof.Machine

/-! ### Which arrivals come (log 12, 14, 19) -/

theorem notAdmitted_fatal {s : State} {f : Fatal} (a : Arrival) (hf : s.fatal = some f) :
    notAdmitted a s = if isTimerStop a || isTeardown a || isReadState a then none else some (.sessionAborted f) := by
  simp only [notAdmitted, hf]

theorem notAdmitted_halted {s : State} (a : Arrival) (hf : s.fatal = none) (ht : s.thread = .halted) :
    notAdmitted a s =
      if buildsSession a || isTimerStop a || isTeardown a || isReadState a then none else some .threadHalted := by
  simp only [notAdmitted, hf, ht]

theorem notAdmitted_ready {s : State} (a : Arrival) (hf : s.fatal = none) (ht : s.thread = .ready) :
    notAdmitted a s =
      if buildsSession a || isTeardown a then some .sessionUnderWay
      else if fromSubstrate a then some .notRunning else none := by
  simp only [notAdmitted, hf, ht]

theorem notAdmitted_running {s : State} (a : Arrival) (hf : s.fatal = none) (ht : s.thread = .running) :
    notAdmitted a s = if buildsSession a || isTeardown a || isRun a then some .sessionUnderWay else none := by
  simp only [notAdmitted, hf, ht]

theorem notAdmitted_hung {s : State} (a : Arrival) (hf : s.fatal = none) (ht : s.thread = .hung) :
    notAdmitted a s = if isTick a then none else some .callbackHung := by
  simp only [notAdmitted, hf, ht]

/-- What builds a session up is no `stop()`, teardown, reading of state or tick. -/
theorem buildsSession_excludes {a : Arrival} (h : buildsSession a = true) :
    isTimerStop a = false ∧ isTeardown a = false ∧ isReadState a = false ∧ isTick a = false := by
  unfold buildsSession at h
  split at h
  case h_5 => cases h
  all_goals exact ⟨rfl, rfl, rfl, rfl⟩

/-- What builds a session up comes only without a fatal error and while no session is under way (R271). -/
theorem beforeSession_of_admitted {a : Arrival} {s : State} (h : notAdmitted a s = none) (hb : buildsSession a = true) :
    s.fatal = none ∧ s.thread = .halted := by
  obtain ⟨hs, hd, hr, hk⟩ := buildsSession_excludes hb
  cases hf : s.fatal with
  | some f => simp [notAdmitted_fatal a hf, hs, hd, hr] at h
  | none =>
    cases ht : s.thread with
    | halted => exact ⟨rfl, rfl⟩
    | ready => simp [notAdmitted_ready a hf ht, hb] at h
    | running => simp [notAdmitted_running a hf ht, hb] at h
    | hung => simp [notAdmitted_hung a hf ht, hk] at h

/-- The arrivals that can come while no session is under way. -/
def comesOutside (a : Arrival) : Bool := buildsSession a || isTimerStop a || isTeardown a || isReadState a

/-- Every other arrival comes only while a session is under way (R271, R289). -/
theorem inSession_of_admitted {a : Arrival} {s : State} (h : notAdmitted a s = none) (ho : comesOutside a = false) :
    s.thread ≠ .halted := by
  intro ht
  cases hf : s.fatal with
  | some f =>
    simp only [comesOutside, Bool.or_eq_false_iff] at ho
    obtain ⟨⟨⟨-, hs⟩, hd⟩, hr⟩ := ho
    simp [notAdmitted_fatal a hf, hs, hd, hr] at h
  | none =>
    rw [notAdmitted_halted a hf ht, ← comesOutside, ho] at h
    cases h

/-! ### One step -/

theorem step_of_admitted {s : State} {p : List Byte} {rest : List (List Byte)} {a : Arrival} (hs : s.arrivals = p :: rest)
    (hd : decodeArrival p = .ok a) (hn : notAdmitted a s = none) : step s = runArrival a (s.consume rest) := by
  simp only [step, hs, takeArrival, hd, hn]

theorem step_of_notAdmitted {s : State} {p : List Byte} {rest : List (List Byte)} {a : Arrival} {f : Fault}
    (hs : s.arrivals = p :: rest) (hd : decodeArrival p = .ok a) (hn : notAdmitted a s = some f) : step s = .fault f := by
  simp only [step, hs, takeArrival, hd, hn]

theorem step_of_bad {s : State} {p : List Byte} {rest : List (List Byte)} {e : DecodeError} (hs : s.arrivals = p :: rest)
    (hd : decodeArrival p = .bad e) (hf : s.fatal = none) : step s = .next (s.consume rest) := by
  simp only [step, hs, takeArrival, hd, hf]

/-- Everything a step that answers a next state can be: no arrival, a packet that is only taken, or an arrival's own rule. -/
theorem step_cases {s t : State} (h : step s = .next t) :
    t = s ∨ (∃ rest, t = s.consume rest) ∨
    (∃ p rest a, decodeArrival p = .ok a ∧ notAdmitted a s = none ∧ runArrival a (s.consume rest) = .next t) := by
  cases hs : s.arrivals with
  | nil =>
    simp only [step, hs, idle] at h
    split at h <;> cases h
    exact .inl rfl
  | cons p rest =>
    cases hd : decodeArrival p with
    | bad e =>
      cases hf : s.fatal with
      | some f => simp only [step, hs, takeArrival, hd, hf] at h; cases h
      | none => rw [step_of_bad hs hd hf] at h; cases h; exact .inr (.inl ⟨rest, rfl⟩)
    | ok a =>
      cases hn : notAdmitted a s with
      | some f => rw [step_of_notAdmitted hs hd hn] at h; cases h
      | none => rw [step_of_admitted hs hd hn] at h; exact .inr (.inr ⟨p, rest, a, hd, hn, h⟩)

/-! ### The operations that can come (O51) -/

theorem buildsSession_op (i : Instr) : buildsSession (.op i) = true ↔ isBuilding i := by
  cases i <;> simp [buildsSession, isBuilding]

theorem fromSubstrate_op (i : Instr) : fromSubstrate (.op i) = true ↔ isHook i := by
  cases i <;> simp [fromSubstrate, isHook]

theorem isTimerStop_op (i : Instr) : isTimerStop (.op i) = true ↔ ∃ d j, i = .timerStop d j := by
  cases i <;> simp [isTimerStop]

theorem isTick_op (i : Instr) : isTick (.op i) = true ↔ ∃ d, i = .timerTick d := by
  cases i <;> simp [isTick]

@[simp] theorem isTeardown_op (i : Instr) : isTeardown (.op i) = false := by simp only [isTeardown]

@[simp] theorem isReadState_op (i : Instr) : isReadState (.op i) = false := by simp only [isReadState]

@[simp] theorem isRun_op (i : Instr) : isRun (.op i) = false := by simp only [isRun]

theorem ite_none_iff {c : Bool} {f : Fault} : (if c then none else some f) = none ↔ c = true := by cases c <;> simp

theorem notAdmitted_op_iff (i : Instr) (s : State) : notAdmitted (.op i) s = none ↔ s.admits i := by
  unfold State.admits
  cases hf : s.fatal with
  | some f =>
    rw [notAdmitted_fatal _ hf, ite_none_iff, isTeardown_op, isReadState_op, Bool.or_false, Bool.or_false, isTimerStop_op]
    simp
  | none =>
    cases ht : s.thread with
    | halted =>
      rw [notAdmitted_halted _ hf ht, ite_none_iff, isTeardown_op, isReadState_op, Bool.or_false, Bool.or_false,
        Bool.or_eq_true, buildsSession_op, isTimerStop_op]
      simp
    | ready =>
      rw [notAdmitted_ready _ hf ht, isTeardown_op, Bool.or_false, ← buildsSession_op, ← fromSubstrate_op]
      cases buildsSession (.op i) <;> cases fromSubstrate (.op i) <;> simp
    | running => simp [notAdmitted_running _ hf ht, buildsSession_op]
    | hung => rw [notAdmitted_hung _ hf ht, ite_none_iff, isTick_op]; simp

theorem notAdmitted_building {i : Instr} {s : State} (hf : s.fatal = none) (ht : s.thread = .ready ∨ s.thread = .running)
    (hi : isBuilding i) : notAdmitted (.op i) s = some .sessionUnderWay := by
  rw [← buildsSession_op] at hi
  rcases ht with ht | ht
  · rw [notAdmitted_ready _ hf ht, hi]; rfl
  · rw [notAdmitted_running _ hf ht, hi]; rfl

theorem notAdmitted_hook {i : Instr} {s : State} (hf : s.fatal = none) (ht : s.thread = .ready) (hi : isHook i) :
    notAdmitted (.op i) s = some .notRunning := by
  rw [notAdmitted_ready _ hf ht]
  rcases hi with rfl | ⟨a, rfl⟩ | ⟨a, n, rfl⟩ | ⟨a, n, v, rfl⟩ <;> rfl

/-- An arrival that is stopped has the one stop that its state gives. -/
theorem stop_of_ne_none {c : Bool} {f : Fault} (h : (if c then none else some f) ≠ none) :
    (if c then none else some f) = some f := by
  cases c
  · rfl
  · exact absurd rfl h

/-- Settles O51: `notAdmitted` is none exactly for what `State.admits`, and elsewhere the stop that the state names. -/
theorem stepRunsTheDecodedInstruction : Obligations.StepRunsTheDecodedInstruction := by
  intro s p rest hs
  refine ⟨fun i hi => ?_, fun budget hd hf ht => ?_⟩
  · have hd := decodeArrival_of_decode hi
    refine ⟨wellFormed_of_decode hi, fun ha => step_of_admitted hs hd ((notAdmitted_op_iff i s).2 ha), fun ha => ?_⟩
    have hn : notAdmitted (.op i) s ≠ none := fun h => ha ((notAdmitted_op_iff i s).1 h)
    refine ⟨fun f hf => ?_, fun hf ht => ?_, fun hf ht hb => ?_, fun hf ht hh => ?_, fun hf ht => ?_⟩
    · rw [notAdmitted_fatal _ hf] at hn
      exact step_of_notAdmitted hs hd ((notAdmitted_fatal _ hf).trans (stop_of_ne_none hn))
    · rw [notAdmitted_halted _ hf ht] at hn
      exact step_of_notAdmitted hs hd ((notAdmitted_halted _ hf ht).trans (stop_of_ne_none hn))
    · exact step_of_notAdmitted hs hd (notAdmitted_building hf ht hb)
    · exact step_of_notAdmitted hs hd (notAdmitted_hook hf ht hh)
    · rw [notAdmitted_hung _ hf ht] at hn
      exact step_of_notAdmitted hs hd ((notAdmitted_hung _ hf ht).trans (stop_of_ne_none hn))
  · exact step_of_admitted hs hd (notAdmitted_ready _ hf ht)

/-! ### The invariant -/

/-- No tick agent exists (R44). -/
def State.noTicks (s : State) : Prop := ∀ x ∈ s.devices, x.body.isRunning = false

theorem inv_iff (s : State) : s.inv = true ↔
    s.dataInv = true ∧ (s.thread = .halted ∨ s.named = []) ∧ (s.thread = .halted → s.fatal = none → s.noTicks) := by
  by_cases ht : s.thread = .halted <;> by_cases hf : s.fatal = none <;>
    simp [State.inv, sessionBuilt, teardownDone, State.noTicks, ht, hf]

/-- A state that follows another keeps the invariant: always where a session is under way, and outside one if the thread
stays halted and no tick agent begins. -/
theorem inv_of_follows {s t : State} (hi : s.inv = true) (h : Follows s t)
    (hh : s.thread = .halted → t.thread = .halted ∧ (t.fatal = none → s.noTicks → t.noTicks)) : t.inv = true := by
  rw [inv_iff] at hi ⊢
  obtain ⟨hdata, hbuilt, hdone⟩ := hi
  refine ⟨h.inv hdata, ?_, fun htt htf => ?_⟩
  · rw [h.named]
    exact hbuilt.imp_left fun hs => (hh hs).1
  · have hst : s.thread = .halted := by
      rcases h.thread with e | e
      · rw [← e, htt]
      · rw [htt] at e; cases e
    have hsf : s.fatal = none := by
      cases hf : s.fatal with
      | none => rfl
      | some f => rw [h.fatal f hf] at htf; cases htf
    exact (hh hst).2 htf (hdone hst hsf)

theorem inv_of_follows_inSession {s t : State} (hi : s.inv = true) (h : Follows s t) (hs : s.thread ≠ .halted) :
    t.inv = true := inv_of_follows hi h fun ht => absurd ht hs

/-- An update that leaves the thread and the devices alone. -/
theorem inv_of_follows_sameDevices {s t : State} (hi : s.inv = true) (h : Follows s t) (ht : t.thread = s.thread)
    (hd : t.devices = s.devices) : t.inv = true :=
  inv_of_follows hi h fun hs => ⟨ht.trans hs, fun _ hn => by rw [State.noTicks, hd]; exact hn⟩

theorem raiseFatal_keeps_inv (f : Fatal) {s : State} (hi : s.inv = true) : (raiseFatal f s).inv = true :=
  inv_of_follows_sameDevices hi (raiseFatal_follows f s) (raiseFatal_thread f s) (raiseFatal_devices f s)

/-! ### What comes before a session -/

theorem parseImage_keeps_inv (image : List Byte) {s : State} (hi : s.inv = true) : (parseImage image s).inv = true := by
  unfold parseImage
  split
  · exact raiseFatal_keeps_inv _ hi
  · exact hi

@[simp] theorem freshBody_isRunning (k : DevKind) : (freshBody k).isRunning = false := by cases k <;> rfl

theorem construct_keeps_inv (d : Ident) (regs : List (Ident × Word)) {s : State} (hi : s.inv = true) :
    (construct d regs s).inv = true := by
  have hf := construct_follows d regs s
  rcases construct_cases d regs s with ⟨-, h⟩ | ⟨-, -, h⟩ | ⟨_, w, -, -, -, h⟩ | ⟨kind, -, -, -, h⟩
  · rw [h]; exact hi
  · rw [h]; exact hi
  · rw [h]; exact raiseFatal_keeps_inv _ hi
  · refine inv_of_follows hi hf fun hs => ⟨by rw [h]; exact hs, fun _ hn x hx => ?_⟩
    rw [h] at hx
    rcases List.mem_append.1 hx with hx | hx
    · exact hn x hx
    · rw [List.mem_singleton.1 hx]; exact freshBody_isRunning kind

theorem nameDevices_keeps_inv (devs : List (Ident × DevKind)) (db : List HwEntry) {s : State} (hi : s.inv = true)
    (hs : s.thread = .halted) : (nameDevices devs db s).inv = true := by
  rcases nameDevices_cases devs db s with ⟨id, -, h⟩ | ⟨-, h⟩ <;> rw [h]
  · exact raiseFatal_keeps_inv _ hi
  · rw [inv_iff, dataInv_iff] at hi ⊢
    obtain ⟨⟨hm, -, -, ha⟩, -, -⟩ := hi
    exact ⟨⟨hm, by simp, by simp, ha⟩, .inl hs, fun _ _ => by simp [State.noTicks]⟩

theorem Memory.wf_writeBlocks (bs : List (Word × List Byte)) : ∀ m : Memory, m.wf = true →
    (bs.foldl (fun m b => m.writeBytes b.1 b.2) m).wf = true := by
  induction bs with
  | nil => exact fun _ h => h
  | cons b bs ih => exact fun m h => ih _ (Memory.wf_writeBytes b.2 m b.1 h)

theorem launchMem_wf (l : Launch) : (launchMem l).wf = true := Memory.wf_writeBlocks l.mem [] rfl

theorem builtDevice_ids (ds : List DevSpec) : (ds.map builtDevice).map (·.id) = ds.map (·.id) := by
  rw [List.map_map]; rfl

/-- The devices that R280 step 3 builds from lists that a packet admits are proper ones of a session. -/
theorem builtDevices_ok {ds : List DevSpec} (hfit : ∀ d ∈ ds, d.fits = true)
    (hdup : ∀ d ∈ ds, duplicateIn d.regs = none) : ∀ x ∈ ds.map builtDevice, deviceOk [] x = true := by
  intro x hx
  obtain ⟨d, hd, rfl⟩ := List.mem_map.1 hx
  have hreq : hasRequired d.kind (d.regs.map (·.1)) = true := by
    have := hfit d hd
    rw [DevSpec.fits, Bool.and_eq_true] at this
    exact this.2
  exact deviceOk_fresh (hdup d hd) (.inr hreq)

theorem sessionStart_keeps_inv {image : List Byte} {devs : List DevSpec} {plat : Platform} {s : State} (hi : s.inv = true)
    (hw : (Instr.sessionStart image devs plat).wellFormed = true) (hf : s.fatal = none) (hs : s.thread = .halted) :
    (sessionStart image devs plat s).inv = true := by
  have hfit : ∀ d ∈ devs, d.fits = true := by
    simp only [Instr.wellFormed, Bool.and_eq_true, List.all_eq_true] at hw
    obtain ⟨⟨-, -, hall⟩, -⟩ := hw
    exact hall
  rw [inv_iff, dataInv_iff] at hi
  obtain ⟨⟨hm, hids, hdev, hafs⟩, -, -⟩ := hi
  rcases sessionStart_cases image devs plat s hf with
    ⟨-, h⟩ | ⟨id, -, -, h⟩ | ⟨pre, d, post, w, -, hn, hsplit, hdup, -, h⟩ | ⟨-, hn, hdup, h⟩ <;> rw [h, inv_iff, dataInv_iff]
  · exact ⟨⟨hm, hids, hdev, hafs⟩, .inl hs, fun _ e => by cases e⟩
  · exact ⟨⟨hm, hids, hdev, hafs⟩, .inl hs, fun _ e => by cases e⟩
  · subst hsplit
    rw [firstRepeat_none, List.map_append] at hn
    have hok := builtDevices_ok (fun e he => hfit e (List.mem_append_left _ he)) hdup
    refine ⟨⟨hm, ?_, hok, hafs⟩, .inl hs, fun _ e => by cases e⟩
    rw [builtDevice_ids]
    exact (List.nodup_append.1 hn).1
  · rw [firstRepeat_none] at hn
    have hok := builtDevices_ok hfit hdup
    refine ⟨⟨launchMem_wf _, ?_, hok, by simp⟩, .inr rfl, fun e => by cases e⟩
    rw [builtDevice_ids]
    exact hn

/-! ### The end of a run (R288, R290) -/

/-- Everything `stop()` can do (R226): nothing on a Timer that does not run, the end of its tick agent, or the error. -/
theorem timerStop_cases (d : Ident) (j : Bool) (s : State) :
    (s.timerRunning d = false ∧ timerStop d j s = s) ∨
    (s.timerRunning d = true ∧ j = true ∧
      timerStop d j s = s.updateDevice d fun x => { x with body := x.body.setRunning false }) ∨
    (s.timerRunning d = true ∧ j = false ∧ timerStop d j s = raiseFatal (.tickJoinFailure d) s) := by
  unfold timerStop
  cases s.timerRunning d with
  | false => exact .inl ⟨rfl, rfl⟩
  | true => cases j with
    | true => exact .inr (.inl ⟨rfl, rfl, rfl⟩)
    | false => exact .inr (.inr ⟨rfl, rfl, rfl⟩)

theorem timerStop_of_not_running {s : State} {d : Ident} (j : Bool) (h : s.timerRunning d = false) :
    timerStop d j s = s := by
  rw [timerStop, h, if_neg Bool.false_ne_true]

@[simp] theorem timerStop_thread (d : Ident) (j : Bool) (s : State) : (timerStop d j s).thread = s.thread := by
  rcases timerStop_cases d j s with ⟨-, h⟩ | ⟨-, -, h⟩ | ⟨-, -, h⟩ <;> simp [h]

@[simp] theorem setRunning_isRunning (b : DevBody) : (b.setRunning false).isRunning = false := by cases b <;> rfl

@[simp] theorem timerRunning_raiseFatal (f : Fatal) (s : State) (e : Ident) :
    (raiseFatal f s).timerRunning e = s.timerRunning e := by
  simp [State.timerRunning, State.device]

/-- Stopping one Timer's tick agent stops no other's. -/
theorem timerRunning_setRunning (d e : Ident) (s : State) :
    (s.updateDevice d fun x => { x with body := x.body.setRunning false }).timerRunning e =
      (s.timerRunning e && !decide (e = d)) := by
  unfold State.timerRunning
  rw [device_updateDevice s d e _ (by intro x; rfl)]
  by_cases he : e = d
  · cases hx : s.device d <;> simp [he, hx]
  · simp [he]

/-- No `stop()` begins a tick agent (R226). -/
theorem timerStop_keeps_stopped {e : Ident} {s : State} (d : Ident) (j : Bool) (he : s.timerRunning e = false) :
    (timerStop d j s).timerRunning e = false := by
  rcases timerStop_cases d j s with ⟨-, h⟩ | ⟨-, -, h⟩ | ⟨-, -, h⟩ <;> simp [h, he, timerRunning_setRunning]

/-- No `stop()` of a teardown begins a tick agent. -/
theorem stopTimers_keeps_stopped {orphans : List Ident} {e : Ident} (ids : List Ident) :
    ∀ s : State, s.timerRunning e = false → (stopTimers orphans ids s).timerRunning e = false := by
  induction ids with
  | nil => exact fun _ h => h
  | cons d rest ih => exact fun s h => ih _ (timerStop_keeps_stopped d _ h)

/-- A `stop()` that raises no error leaves its Timer stopped (R226). -/
theorem timerStop_stops {d : Ident} {j : Bool} {s : State} (hf : (timerStop d j s).fatal = none) :
    (timerStop d j s).timerRunning d = false := by
  rcases timerStop_cases d j s with ⟨hr, h⟩ | ⟨-, -, h⟩ | ⟨-, -, h⟩
  · rw [h, hr]
  · simp [h, timerRunning_setRunning]
  · rw [h, raiseFatal_fatal] at hf; cases hf

/-- A teardown that raises no error has stopped every Timer it went through (R288). -/
theorem stopTimers_stops {orphans : List Ident} {e : Ident} (ids : List Ident) :
    ∀ s : State, (stopTimers orphans ids s).fatal = none → e ∈ ids → (stopTimers orphans ids s).timerRunning e = false := by
  induction ids with
  | nil => exact fun _ _ he => absurd he List.not_mem_nil
  | cons d rest ih =>
    intro s hf he
    rcases List.mem_cons.1 he with rfl | he
    · have hs : (timerStop e (decide (e ∉ orphans)) s).fatal = none := by
        cases hd : (timerStop e (decide (e ∉ orphans)) s).fatal with
        | none => rfl
        | some f =>
          have := (stopTimers_follows orphans rest _).fatal f hd
          rw [stopTimers, this] at hf
          cases hf
      exact stopTimers_keeps_stopped rest _ (timerStop_stops hs)
    · exact ih _ hf he

theorem updateDevice_ids (s : State) (d : Ident) (f : Device → Device) (hf : ∀ x, (f x).id = x.id) :
    (s.updateDevice d f).devices.map (·.id) = s.devices.map (·.id) := by
  rw [updateDevice_devices, List.map_map]
  refine List.map_congr_left fun x _ => ?_
  simp only [Function.comp]
  split
  · exact hf x
  · rfl

theorem timerStop_ids (d : Ident) (j : Bool) (s : State) :
    (timerStop d j s).devices.map (·.id) = s.devices.map (·.id) := by
  rcases timerStop_cases d j s with ⟨-, h⟩ | ⟨-, -, h⟩ | ⟨-, -, h⟩ <;> rw [h]
  · exact updateDevice_ids s d _ fun _ => rfl
  · rw [raiseFatal_devices]

theorem stopTimers_thread_ids (orphans ids : List Ident) : ∀ s : State,
    (stopTimers orphans ids s).thread = s.thread ∧
      (stopTimers orphans ids s).devices.map (·.id) = s.devices.map (·.id) := by
  induction ids with
  | nil => exact fun _ => ⟨rfl, rfl⟩
  | cons d rest ih =>
    intro s
    obtain ⟨ht, hd⟩ := ih (timerStop d (decide (d ∉ orphans)) s)
    exact ⟨ht.trans (timerStop_thread _ _ s), hd.trans (timerStop_ids _ _ s)⟩

/-- With unique identifiers a lookup finds the device itself (R211). -/
theorem find_id_of_mem {ds : List Device} {x : Device} (hn : (ds.map (·.id)).Nodup) (hx : x ∈ ds) :
    ds.find? (fun y => y.id == x.id) = some x := by
  induction ds with
  | nil => cases hx
  | cons y ys ih =>
    rw [List.map_cons, List.nodup_cons] at hn
    obtain ⟨hy, hys⟩ := hn
    rcases List.mem_cons.1 hx with rfl | hx
    · simp
    · have hne : y.id ≠ x.id := fun e => hy (e ▸ List.mem_map_of_mem hx)
      rw [List.find?_cons_of_neg (by simpa using hne)]
      exact ih hys hx

theorem noTicks_of_stopped {s : State} (hn : (s.devices.map (·.id)).Nodup)
    (h : ∀ d ∈ s.devices.map (·.id), s.timerRunning d = false) : s.noTicks := by
  intro x hx
  have := h x.id (List.mem_map_of_mem hx)
  simpa only [State.timerRunning, State.device, find_id_of_mem hn hx] using this

theorem timerStop_keeps_inv (d : Ident) (j : Bool) {s : State} (hi : s.inv = true) : (timerStop d j s).inv = true := by
  have hf := timerStop_follows d j s
  refine inv_of_follows hi hf fun hs => ⟨(timerStop_thread d j s).trans hs, fun _ hn => ?_⟩
  have hr : s.timerRunning d = false := by
    unfold State.timerRunning
    split
    · next x hx => exact hn x (List.mem_of_find?_eq_some hx)
    · rfl
  rwa [timerStop_of_not_running j hr]

theorem endRun_keeps_inv (orphans : List Ident) {s : State} (hi : s.inv = true) : (endRun orphans s).inv = true := by
  have hf := endRun_follows orphans s
  obtain ⟨ht, hids⟩ := stopTimers_thread_ids orphans (s.devices.map (·.id)) { s with thread := .halted }
  rw [inv_iff] at hi ⊢
  have hdata := hf.inv hi.1
  obtain ⟨-, hn, -, -⟩ := (dataInv_iff _).1 hdata
  refine ⟨hdata, .inl ht, fun _ hfatal => noTicks_of_stopped hn fun d hd => ?_⟩
  exact stopTimers_stops _ _ hfatal (hids ▸ hd)

/-! ### Every arrival (O58) -/

/-- In a session every operation but the deadline answers a state that follows; the others are those that come outside one. -/
theorem exec_keeps_inv {i : Instr} {s t : State} (hi : s.inv = true) (hw : i.wellFormed = true)
    (hn : notAdmitted (.op i) s = none) (h : exec i s = .next t) : t.inv = true := by
  cases ho : comesOutside (.op i) with
  | false =>
    cases hstay : staysInSession i with
    | true => exact inv_of_follows_inSession hi (exec_follows i s hstay t h) (inSession_of_admitted hn ho)
    | false =>
      cases i with
      | sessionDeadline orphans => cases h; exact endRun_keeps_inv orphans hi
      | vtParse image => cases ho
      | sessionStart image devs plat => cases ho
      | _ => cases hstay
  | true =>
    cases i with
    | vtParse image => cases h; exact parseImage_keeps_inv image hi
    | rfConstruct d regs => cases h; exact construct_keeps_inv d regs hi
    | sessionStart image devs plat =>
      cases h
      obtain ⟨hf, hs⟩ := beforeSession_of_admitted hn rfl
      exact sessionStart_keeps_inv hi hw hf hs
    | timerStop d j => cases h; exact timerStop_keeps_inv d j hi
    | _ => cases ho

theorem runArrival_keeps_inv {a : Arrival} {s t : State} (hi : s.inv = true)
    (hw : ∀ i, a = .op i → i.wellFormed = true) (hn : notAdmitted a s = none) (h : runArrival a s = .next t) :
    t.inv = true := by
  have hses := inSession_of_admitted hn
  cases a with
  | op i => exact exec_keeps_inv hi (hw i rfl) hn h
  | hwIrq k =>
    cases h
    unfold hwIrqHook
    split
    · exact inv_of_follows_inSession hi (raiseException_follows _ s) (hses rfl)
    · exact hi
  | regWrite id v => cases h; exact hi
  | rawRead a n => cases h; exact inv_of_follows_inSession hi (rawRead_follows a n s) (hses rfl)
  | rawWrite a bytes => cases h; exact inv_of_follows_inSession hi (rawWrite_follows a bytes s) (hses rfl)
  | halt why orphans => cases h; exact endRun_keeps_inv orphans hi
  | bindCallback f runs => cases h; exact hi
  | run budget =>
    cases h
    rw [inv_iff] at hi ⊢
    obtain ⟨hdata, hbuilt, -⟩ := hi
    exact ⟨hdata, .inr (hbuilt.resolve_left (hses rfl)), fun e => by cases e⟩
  | nameDevices devs db => cases h; exact nameDevices_keeps_inv devs db hi (beforeSession_of_admitted hn rfl).2
  | teardown orphans => cases h; exact endRun_keeps_inv orphans hi
  | read sel =>
    cases h
    obtain ⟨v, hv⟩ := readState_eq sel s
    rw [hv]
    exact hi

/-- Settles O58, by `runArrival_keeps_inv`: taking the packet changes nothing that the invariant reads. -/
theorem everyStepKeepsTheInvariant : Obligations.EveryStepKeepsTheInvariant := by
  intro s t hi h
  rcases step_cases h with rfl | ⟨rest, rfl⟩ | ⟨p, rest, a, hd, hn, ha⟩
  · exact hi
  · exact hi
  · refine runArrival_keeps_inv (s := s.consume rest) hi (fun i e => ?_) hn ha
    subst e
    exact wellFormed_of_decode (decode_of_decodeArrival hd)

/-- Settles O59, by evaluation: at reset memory, the devices and the active-frame stack are empty. -/
theorem resetMeetsTheInvariant : Obligations.ResetMeetsTheInvariant := by
  unfold Obligations.ResetMeetsTheInvariant
  decide

end Sys2Proof.Machine
end

section
/-! PROOFS. The encodings of 30_encoding.md: the EXC_RETURN words (O14, O15), the return range (O12) and the pins of a
written value (O36). The idea of O15 and O12: each field of a word is a digit of its value, so that the checks on fields
are arithmetic. -/

namespace Sys2Proof.Machine

/-! ### EXC_RETURN (R91 to R94) -/

theorem getLsbD_eq_div (v : Word) (i : Nat) : v.getLsbD i = decide (v.toNat / 2 ^ i % 2 = 1) := by
  rw [BitVec.getLsbD, Nat.testBit_eq_decide_div_mod_eq]

/-- A legal EXC_RETURN by its value (R94): bits 31..5 set, bit 3 set, bit 1 clear, bit 0 set. -/
theorem legalExcReturn_iff (v : Word) : legalExcReturn v = true ↔
    v.toNat / 32 = 0x7FFFFFF ∧ v.toNat / 8 % 2 = 1 ∧ v.toNat / 2 % 2 = 0 ∧ v.toNat % 2 = 1 := by
  have hv := v.isLt
  have hhigh : v.extractLsb' 5 27 = 0x7FFFFFF#27 ↔ v.toNat / 32 = 0x7FFFFFF := by
    rw [← BitVec.toNat_inj, BitVec.extractLsb'_toNat, BitVec.toNat_ofNat, Nat.shiftRight_eq_div_pow]
    omega
  simp only [legalExcReturn, Bool.and_eq_true, beq_iff_eq, hhigh, getLsbD_eq_div, Bool.not_eq_true', decide_eq_true_eq,
    decide_eq_false_iff_not]
  omega

/-- Settles O15: the checks of R94 fix every digit of the word but bits 2 and 4. -/
theorem legalExcReturnsAreExactlyFour : Obligations.LegalExcReturnsAreExactlyFour := by
  intro v
  have hv := v.isLt
  rw [legalExcReturn_iff]
  simp only [← BitVec.toNat_inj, BitVec.toNat_ofNat]
  omega

theorem exec_icDecode (v : Word) (s : State) :
    exec (.icDecode v) s = .next (answer (.mode (decodeSpsel v) (decodeFpca v)) s) := rfl

theorem exec_icEncode (p f : Bool) (s : State) :
    exec (.icEncode p f) s = .next (answer (.word (encodeExcReturn p f)) s) := rfl

/-- Settles O14: the bits are those of decode's definition, and the codec's round trip is `decodeSpsel_encode` with
`decodeFpca_encode`. -/
theorem decodeReadsBitsAndInvertsEncode : Obligations.DecodeReadsBitsAndInvertsEncode := by
  refine ⟨fun v s => rfl, fun p f s t w h hw => ?_⟩
  rw [exec_icEncode] at h
  cases h
  cases hw
  rw [exec_icDecode, decodeSpsel_encode, decodeFpca_encode]
  rfl

/-! ### The return range (R95) -/

theorem inReturnRange_iff (a : Word) : inReturnRange a = true ↔ 0xFFFFFF00 ≤ a.toNat := by
  have ha := a.isLt
  rw [inReturnRange, beq_iff_eq, ← BitVec.toNat_inj, BitVec.extractLsb'_toNat, BitVec.toNat_ofNat,
    Nat.shiftRight_eq_div_pow]
  omega

/-- Settles O12: `blockEntry` goes by `inReturnRange`, and nonmatch is the identity. -/
theorem blockEntrySelectsByRange : Obligations.BlockEntrySelectsByRange := by
  intro a s
  refine ⟨fun h => ?_, fun h => ?_, congrArg _ (nonmatch_eq a s)⟩
  · have hr := (inReturnRange_iff a).2 h
    exact congrArg _ (if_pos hr)
  · have hr : ¬ inReturnRange a = true := by rw [inReturnRange_iff]; omega
    exact congrArg _ ((if_neg hr).trans (nonmatch_eq a s))

/-! ### Pins (R110) -/

theorem mem_pinsOf (v : Word) (i : Nat) : i ∈ pinsOf v ↔ i < 32 ∧ v.getLsbD i = true := by
  simp [pinsOf]

theorem pairwise_pinsOf (v : Word) : (pinsOf v).Pairwise (· < ·) := List.Pairwise.filter _ List.pairwise_lt_range

theorem isKind_of_device {s : State} {d : Ident} {x : Device} (h : s.device d = some x) (k : DevKind) :
    s.isKind d k = decide (x.body.kind = k) := by
  simp only [State.isKind, h]

theorem gpioPins_of_gpio {s : State} {d : Ident} (kind : PinKind) (v : Word) (h : s.isKind d .gpio = true) :
    gpioPins kind d v s = emit (.gpioPins kind (pinsOf v)) s := if_pos h

/-- Settles O36, with the list that `pinsOf` gives. -/
theorem gpioReportsSetBits : Obligations.GpioReportsSetBits := by
  intro d v s x hd hx
  have hk : s.isKind d .gpio = true := by rw [isKind_of_device hd, hx]; rfl
  exact ⟨pinsOf v, pairwise_pinsOf v, mem_pinsOf v, congrArg _ (gpioPins_of_gpio .set v hk),
    congrArg _ (gpioPins_of_gpio .clear v hk)⟩

end Sys2Proof.Machine
end

section
/-! PROOFS. Arrivals that match no row of the table (R107, log 4; O47): each operation on a device that does not exist or
is of another variant, on a register that does not exist, or on a capture slot past 5, leaves the state as it is. -/

namespace Sys2Proof.Machine

/-! ### A device that does not exist -/

theorem isKind_of_absent {s : State} {d : Ident} (h : s.device d = none) (k : DevKind) : s.isKind d k = false := by
  simp only [State.isKind, h]

theorem register_of_absent {s : State} {d : Ident} (h : s.device d = none) (nm : Ident) : s.register d nm = none := by
  simp only [State.register, h]

theorem updateDevice_of_absent {s : State} {d : Ident} (h : s.device d = none) (f : Device → Device) :
    s.updateDevice d f = s := by
  have hmap : (s.devices.map fun x => if x.id == d then f x else x) = s.devices := by
    conv_rhs => rw [← List.map_id s.devices]
    exact List.map_congr_left fun x hx => if_neg (List.find?_eq_none.1 h x hx)
  rw [State.updateDevice, hmap]

theorem deviceWrite_of_absent {s : State} {d : Ident} (h : s.device d = none) (a v : Word) : deviceWrite d a v s = s := by
  simp only [deviceWrite, h]

/-! ### A device of another variant -/

theorem clockHfclkstart_of_not_clock {s : State} {d : Ident} (h : s.isKind d .clock = false) : clockHfclkstart d s = s := by
  rw [clockHfclkstart, h, if_neg Bool.false_ne_true]

theorem gpioPins_of_not_gpio {s : State} {d : Ident} (kind : PinKind) (v : Word) (h : s.isKind d .gpio = false) :
    gpioPins kind d v s = s := by
  rw [gpioPins, h, if_neg Bool.false_ne_true]

theorem setRadioState_of_not_radio {s : State} {d : Ident} (st : RadioState) (h : s.isKind d .radio = false) :
    setRadioState d st s = s := by
  rw [setRadioState, h, if_neg Bool.false_ne_true]

theorem registerCb_of_not_radio {s : State} {d : Ident} (ck : CbKind) (f : Nat) (h : s.isKind d .radio = false) :
    registerCb d ck f s = s := by
  rw [registerCb, h, if_neg Bool.false_ne_true]

theorem kind_ne_of_isKind {s : State} {d : Ident} {x : Device} {k : DevKind} (hd : s.device d = some x)
    (h : s.isKind d k = false) : x.body.kind ≠ k := by
  rw [isKind_of_device hd] at h
  exact of_decide_eq_false h

theorem injectPacket_of_not_radio {s : State} {d : Ident} (bs : List Byte) (h : s.isKind d .radio = false) :
    injectPacket d bs s = s := by
  unfold injectPacket
  split
  · rfl
  · next x hd => rw [if_neg (kind_ne_of_isKind hd h)]

theorem radioTxen_of_not_radio {s : State} {d : Ident} (h : s.isKind d .radio = false) : radioTxen d s = s := by
  unfold radioTxen
  split
  · rfl
  · next x hd =>
    split
    · next hb => exact absurd (by rw [hb]; rfl) (kind_ne_of_isKind hd h)
    · rfl

theorem radioRxen_of_not_radio {s : State} {d : Ident} (h : s.isKind d .radio = false) : radioRxen d s = s := by
  unfold radioRxen
  split
  · rfl
  · next x hd =>
    split
    · next hb => exact absurd (by rw [hb]; rfl) (kind_ne_of_isKind hd h)
    · rfl

theorem timerStart_of_not_timer {s : State} {d : Ident} (h : s.isKind d .timer = false) : timerStart d s = s := by
  rw [timerStart, h, if_neg Bool.false_ne_true]

theorem timerRunning_of_not_timer {s : State} {d : Ident} (h : s.isKind d .timer = false) : s.timerRunning d = false := by
  unfold State.timerRunning
  split
  · next x hd =>
    have hk := kind_ne_of_isKind hd h
    cases hb : x.body with
    | timer c r => exact absurd (by rw [hb]; rfl) hk
    | _ => rfl
  · rfl

theorem timerTick_of_not_running {s : State} {d : Ident} (h : s.timerRunning d = false) : timerTick d s = s := by
  rw [timerTick, h, if_neg Bool.false_ne_true]

theorem timerCapture_of_not_timer {s : State} {d : Ident} (k : Nat) (h : s.isKind d .timer = false) :
    timerCapture d k s = s := by
  unfold timerCapture
  split
  · split
    · rfl
    · next x hd =>
      split
      · next hb => exact absurd (by rw [hb]; rfl) (kind_ne_of_isKind hd h)
      · rfl
  · rfl

theorem timerCapture_of_past_slot (d : Ident) {k : Nat} (s : State) (h : 6 ≤ k) : timerCapture d k s = s := by
  unfold timerCapture Config.numCc
  exact if_neg (by omega)

/-! ### The clauses of O47 -/

theorem exec_of_register_absent {s : State} {d nm : Ident} (n m : Nat) (h : s.register d nm = none) :
    exec (.rfBit d nm n) s = .next s ∧ exec (.rfBitRange d nm n m) s = .next s := by
  simp only [exec, execRfBit, execRfBitRange, h, and_self]

theorem exec_of_device_absent {s : State} {d : Ident} (nm : Ident) (a v : Word) (n m : Nat) (ck : CbKind)
    (h : s.device d = none) :
    exec (.rfByName d nm) s = .next s ∧ exec (.rfByAddr d a) s = .next s ∧ exec (.rfSetByAddr d a n) s = .next s ∧
      exec (.rfSetByName d nm n) s = .next s ∧ exec (.rfBit d nm n) s = .next s ∧ exec (.rfBitRange d nm n m) s = .next s ∧
      exec (.devIdentify d) s = .next s ∧ exec (.devRead d a) s = .next s ∧ exec (.devWrite d a v) s = .next s ∧
      exec (.radioRegCb d ck n) s = .next s ∧ exec (.timerStart d) s = .next s := by
  obtain ⟨hbit, hrange⟩ := exec_of_register_absent n m (register_of_absent h nm)
  refine ⟨?_, ?_, congrArg _ (updateDevice_of_absent h _), congrArg _ (updateDevice_of_absent h _), hbit, hrange, ?_, ?_,
    congrArg _ (deviceWrite_of_absent h a v), congrArg _ (registerCb_of_not_radio ck n (isKind_of_absent h .radio)),
    congrArg _ (timerStart_of_not_timer (isKind_of_absent h .timer))⟩
  · simp only [exec, execRfByName, h]
  · simp only [exec, execRfByAddr, h]
  · simp only [exec, execDevIdentify, h]
  · simp only [exec, execDevRead, h]

/-- Settles O47, clause by clause; a packet that decodes to no arrival is `step_of_bad`. -/
theorem arrivalMatchingNoRowHasNoEffect : Obligations.ArrivalMatchingNoRowHasNoEffect := by
  intro d nm a v n m k bs st ck j s
  refine ⟨exec_of_device_absent nm a v n m ck, fun h => ?_, fun h => ?_, fun h => ?_, fun h => ?_,
    exec_of_register_absent n m, fun h => ?_, fun p rest e hf hs hd => step_of_bad hs hd hf⟩
  · exact congrArg _ (clockHfclkstart_of_not_clock h)
  · exact ⟨congrArg _ (gpioPins_of_not_gpio .set v h), congrArg _ (gpioPins_of_not_gpio .clear v h)⟩
  · exact ⟨congrArg _ (radioTxen_of_not_radio h), congrArg _ (radioRxen_of_not_radio h),
      congrArg _ (injectPacket_of_not_radio bs h), congrArg _ (setRadioState_of_not_radio st h),
      congrArg _ (registerCb_of_not_radio ck n h)⟩
  · have hr := timerRunning_of_not_timer h
    exact ⟨congrArg _ (timerStart_of_not_timer h), congrArg _ (timerStop_of_not_running j hr),
      congrArg _ (timerTick_of_not_running hr), congrArg _ (timerCapture_of_not_timer k h)⟩
  · exact congrArg _ (timerCapture_of_past_slot d s h)

end Sys2Proof.Machine
end

section
/-! PROOFS. Taking an exception and returning from one (40_interrupt_controller.md R134, R138): what each check of an entry
and of a return leads to, the state that a successful entry leaves (`State.entered`), and what a return makes of a frame. The
idea is `excReturn_of_holdsFrame`: a return needs only the EXC_RETURN word in LR, the stack pointer of the entry and a memory
that holds the entry's frame, so whatever else happens between the two has no part in what is restored (R141). -/

namespace Sys2Proof.Machine

/-! ### The operations as functions of the state -/

theorem exec_icBoundary (s : State) : exec .icBoundary s = .next (drainPending s.pend s) := rfl

theorem exec_icEnter (n : Nat) (s : State) : exec (.icEnter n) s = .next (enter n s) := rfl

theorem exec_icReturn (s : State) : exec .icReturn s = .next (excReturn s) := rfl

theorem exec_icReturn_of {s t : State} (h : excReturn s = t) : exec .icReturn s = .next t := congrArg _ h

theorem exec_vtParse (image : List Byte) (s : State) : exec (.vtParse image) s = .next (parseImage image s) := rfl

/-! ### The checks (R133, R66, R257) -/

theorem lookupVector_absent {t : VectorTable} {n : Nat} (h : n < 1 ∨ 17 < n) :
    lookupVector t n = .error (.absentVector n) := if_pos h

theorem lookupVector_zero {t : VectorTable} {n : Nat} (h1 : 1 ≤ n) (h17 : n ≤ 17) (h0 : t.entry n = 0) :
    lookupVector t n = .error (.zeroVector n) := by
  unfold lookupVector
  rw [if_neg (by omega), if_pos h0]

/-- The check answers the first unmapped byte: no other one has only mapped bytes before it. -/
theorem firstUnmapped_of_firstUnmappedAt {mapped : List Region} {a : Word} {n i : Nat}
    (h : firstUnmappedAt mapped a n i) : firstUnmapped mapped a n = some (a + BitVec.ofNat 32 i) := by
  obtain ⟨hi, hui, hbelow⟩ := h
  cases hx : firstUnmapped mapped a n with
  | none => simp [(firstUnmapped_none mapped n a).1 hx i hi] at hui
  | some x =>
    obtain ⟨j, -, rfl, huj, hbelow'⟩ := firstUnmapped_some mapped n a x hx
    rcases Nat.lt_trichotomy i j with hij | rfl | hji
    · simp [hbelow' i hij] at hui
    · rfl
    · simp [hbelow j hji] at huj

/-! ### Entry (R134) -/

/-- The frame of an entry taken in this CPU state is mapped. -/
def frameMapped (mapped : List Region) (c : Cpu) : Prop :=
  mappedFrom mapped (entryBase c) (frameSize (fpcaOf c.control))

/-- The state after an entry of exception `n` that no check stops. -/
def State.entered (n : Nat) (s : State) : State :=
  { s with
    cpu := entryCpu s.cpu n (s.vt.entry n)
    mem := Memory.pushWords s.mem (entryBase s.cpu) (frameWords s.cpu (fpcaOf s.cpu.control))
    afs := entryRec s.cpu n :: s.afs }

theorem enter_of_error {n : Nat} {s : State} {f : Fatal} (h : lookupVector s.vt n = .error f) :
    enter n s = raiseFatal f s := by
  simp only [enter, h]

theorem enter_of_unmapped {n i : Nat} {s : State} (h1 : 1 ≤ n) (h17 : n ≤ 17) (h0 : s.vt.entry n ≠ 0)
    (hu : firstUnmappedAt s.params.mapped (entryBase s.cpu) (frameSize (fpcaOf s.cpu.control)) i) :
    enter n s = raiseFatal (.frameAccessUnmapped (entryBase s.cpu + BitVec.ofNat 32 i)) s := by
  simp only [enter, lookupVector_of h1 h17 h0, firstUnmapped_of_firstUnmappedAt hu]

theorem enter_of_mapped {n : Nat} {s : State} (h1 : 1 ≤ n) (h17 : n ≤ 17) (h0 : s.vt.entry n ≠ 0)
    (hm : frameMapped s.params.mapped s.cpu) : enter n s = s.entered n := by
  simp only [enter, lookupVector_of h1 h17 h0, (firstUnmapped_none _ _ _).2 hm, State.entered]

/-- An entry that leaves no fatal error behind went through, on a mapped frame. -/
theorem entered_of_enter {n : Nat} {s t : State} (h : exec (.icEnter n) s = .next t) (ht : t.fatal = none) :
    t = s.entered n ∧ s.fatal = none ∧ frameMapped s.params.mapped s.cpu := by
  rw [exec_icEnter] at h
  cases h
  rcases enter_cases n s with ⟨f, -, he⟩ | ⟨_, a, -, -, he⟩ | ⟨hd, hl, hu, he⟩
  · simp [he] at ht
  · simp [he] at ht
  · rw [he] at ht
    obtain ⟨-, -, rfl, -⟩ := lookupVector_ok hl
    exact ⟨he, ht, (firstUnmapped_none _ _ _).1 hu⟩

/-- The CPU after an entry, field by field: only the selected stack pointer, LR, xPSR and PC change (R145). -/
theorem entryCpu_eq (c : Cpu) (n : Nat) (h : Word) :
    entryCpu c n h =
      { c with
        lr := encodeExcReturn (spselOf c.control) (fpcaOf c.control)
        xpsr := withIpsr c.xpsr n
        pc := h
        msp := if spselOf c.control then c.msp else entryBase c
        psp := if spselOf c.control then entryBase c else c.psp } := by
  rw [entryCpu, Cpu.setSp_eq]

theorem entryCpu_sp (c : Cpu) (n : Nat) (h : Word) : (entryCpu c n h).sp (spselOf c.control) = entryBase c :=
  (Cpu.sp_setSp c (spselOf c.control) (spselOf c.control) (entryBase c)).trans (if_pos rfl)

/-! ### Return (R138) -/

theorem excReturn_of_outside {s : State} (h : s.afs = []) : excReturn s = raiseFatal (.returnOutsideHandler s.cpu.lr) s := by
  simp only [excReturn, h]

theorem excReturn_of_illegal {s : State} (ha : s.afs ≠ []) (hs : s.params.strict = true)
    (hl : legalExcReturn s.cpu.lr = false) : excReturn s = raiseFatal (.illegalExcReturn s.cpu.lr) s := by
  obtain ⟨r, rest, hr⟩ := List.exists_cons_of_ne_nil ha
  simp [excReturn, hr, hs, hl]

/-- Past the first two checks the frame's bytes decide. -/
theorem excReturn_of_legal {s : State} {r : FrameRec} {rest : List FrameRec} (ha : s.afs = r :: rest)
    (hl : s.params.strict = true → legalExcReturn s.cpu.lr = true) :
    excReturn s =
      (firstUnmapped s.params.mapped (s.cpu.sp (decodeSpsel s.cpu.lr)) (frameSize (decodeFpca s.cpu.lr))).elim
        { s with cpu := returnCpu s.cpu s.mem s.cpu.lr, afs := rest } fun a => raiseFatal (.frameAccessUnmapped a) s := by
  have hc : (s.params.strict && !legalExcReturn s.cpu.lr) = false := by
    cases hs : s.params.strict <;> simp [hl, hs]
  simp only [excReturn, ha, hc, Bool.false_eq_true, if_false]
  cases firstUnmapped s.params.mapped (s.cpu.sp (decodeSpsel s.cpu.lr)) (frameSize (decodeFpca s.cpu.lr)) <;> rfl

theorem excReturn_of_unmapped {s : State} {i : Nat} (ha : s.afs ≠ [])
    (hl : s.params.strict = true → legalExcReturn s.cpu.lr = true)
    (hu : firstUnmappedAt s.params.mapped (s.cpu.sp (decodeSpsel s.cpu.lr)) (frameSize (decodeFpca s.cpu.lr)) i) :
    excReturn s = raiseFatal (.frameAccessUnmapped (s.cpu.sp (decodeSpsel s.cpu.lr) + BitVec.ofNat 32 i)) s := by
  obtain ⟨r, rest, hr⟩ := List.exists_cons_of_ne_nil ha
  rw [excReturn_of_legal hr hl, firstUnmapped_of_firstUnmappedAt hu, Option.elim_some]

theorem excReturn_of_mapped {s : State} {r : FrameRec} {rest : List FrameRec} (ha : s.afs = r :: rest)
    (hl : s.params.strict = true → legalExcReturn s.cpu.lr = true)
    (hm : mappedFrom s.params.mapped (s.cpu.sp (decodeSpsel s.cpu.lr)) (frameSize (decodeFpca s.cpu.lr))) :
    excReturn s = { s with cpu := returnCpu s.cpu s.mem s.cpu.lr, afs := rest } := by
  rw [excReturn_of_legal ha hl, (firstUnmapped_none _ _ _).2 hm, Option.elim_none]

/-! ### The words of a frame (R98, R99) -/

/-- The memory holds the frame that an entry taken in this CPU state pushes. -/
def HoldsFrame (m : Memory) (c : Cpu) : Prop :=
  ∀ k w, (frameWords c (fpcaOf c.control))[k]? = some w → frameWord m (entryBase c) k = w

theorem frameWords_lt {c : Cpu} {k : Nat} {w : Word} (h : (frameWords c (fpcaOf c.control))[k]? = some w) :
    4 * k + 4 ≤ frameSize (fpcaOf c.control) := by
  obtain ⟨hk, -⟩ := List.getElem?_eq_some_iff.1 h
  rw [← frameWords_length c]
  omega

theorem frameSize_le (f : Bool) : frameSize f ≤ 100 := by cases f <;> decide

theorem holdsFrame_pushWords (m : Memory) (c : Cpu) :
    HoldsFrame (m.pushWords (entryBase c) (frameWords c (fpcaOf c.control))) c := by
  intro k w h
  obtain ⟨hk, rfl⟩ := List.getElem?_eq_some_iff.1 h
  have hsize := frameSize_le (fpcaOf c.control)
  exact Memory.memRead_pushWords _ m (entryBase c) k hk (by rw [frameWords_length]; omega)

/-- Only the bytes of the frame matter. -/
theorem HoldsFrame.congr {m m' : Memory} {c : Cpu} (hf : HoldsFrame m c)
    (h : ∀ i, i < frameSize (fpcaOf c.control) →
      m'.read (entryBase c + BitVec.ofNat 32 i).toNat = m.read (entryBase c + BitVec.ofNat 32 i).toNat) :
    HoldsFrame m' c := by
  intro k w hw
  rw [← hf k w hw]
  have hk := frameWords_lt hw
  refine Memory.memRead_congr m' m _ 4 fun i hi => ?_
  rw [Word.add_ofNat_add]
  exact h _ (by omega)

theorem HoldsFrame.base {m : Memory} {c : Cpu} (hf : HoldsFrame m c) :
    frameWord m (entryBase c) 0 = c.r0 ∧ frameWord m (entryBase c) 1 = c.r1 ∧ frameWord m (entryBase c) 2 = c.r2 ∧
      frameWord m (entryBase c) 3 = c.r3 ∧ frameWord m (entryBase c) 4 = c.r12 ∧ frameWord m (entryBase c) 5 = c.lr ∧
      frameWord m (entryBase c) 6 = c.pc ∧ frameWord m (entryBase c) 7 = c.xpsr :=
  ⟨hf 0 _ rfl, hf 1 _ rfl, hf 2 _ rfl, hf 3 _ rfl, hf 4 _ rfl, hf 5 _ rfl, hf 6 _ rfl, hf 7 _ rfl⟩

/-- The extended part of a frame is the FP registers. -/
theorem HoldsFrame.extended {m : Memory} {c : Cpu} (hf : HoldsFrame m c) (hx : fpcaOf c.control = true) :
    FpRegs.ofWords (fun k => frameWord m (entryBase c) (8 + k)) = c.fp := by
  refine FpRegs.ofWords_words _ _ fun k hk => hf (8 + k) _ ?_
  rw [hx, frameWords, if_pos rfl, List.getElem?_append_right (by simp), ← List.getElem?_eq_getElem hk]
  simp

theorem FpRegs.s_ofWords (w : Nat → Word) (k : Fin 16) : (FpRegs.ofWords w).s k = w k.val := by
  have hk : k.val < 17 := by omega
  simp [FpRegs.s, hk]

/-- A word of the extended part at its offset of R99. -/
theorem memRead_extended (m : Memory) (b : Word) (k : Nat) :
    m.memRead (b + BitVec.ofNat 32 (0x20 + 4 * k)) 4 = frameWord m b (8 + k) := by
  rw [frameWord, Nat.mul_add]

/-! ### A return on the frame of an entry (R141) -/

/-- The context of `c` given back to a CPU `d` at a return: the stack pointer that `c` did not select, the other bits of
CONTROL and, for a base frame, the FP registers stay those of `d`. -/
def Cpu.resume (c d : Cpu) : Cpu :=
  { c with
    msp := if spselOf c.control then d.msp else c.msp
    psp := if spselOf c.control then c.psp else d.psp
    control := withMode d.control (spselOf c.control) (fpcaOf c.control)
    fp := if fpcaOf c.control then c.fp else d.fp }

theorem Cpu.resume_sp (c d : Cpu) : (c.resume d).sp (spselOf c.control) = c.sp (spselOf c.control) := by
  unfold Cpu.resume Cpu.sp
  cases spselOf c.control <;> rfl

theorem returnCpu_of_holdsFrame {c d : Cpu} {m : Memory} (hsp : d.sp (spselOf c.control) = entryBase c)
    (hf : HoldsFrame m c) :
    returnCpu d m (encodeExcReturn (spselOf c.control) (fpcaOf c.control)) = c.resume d := by
  obtain ⟨h0, h1, h2, h3, h12, hlr, hpc, hxpsr⟩ := hf.base
  have hfp : (if fpcaOf c.control then FpRegs.ofWords (fun k => frameWord m (entryBase c) (8 + k)) else d.fp) =
      if fpcaOf c.control then c.fp else d.fp := by
    split
    · next hx => exact hf.extended hx
    · rfl
  have hup : entryBase c + BitVec.ofNat 32 (frameSize (fpcaOf c.control)) = c.sp (spselOf c.control) :=
    BitVec.sub_add_cancel _ _
  simp only [returnCpu, decodeSpsel_encode, decodeFpca_encode, hsp, h0, h1, h2, h3, h12, hlr, hpc, hxpsr, hfp, hup,
    Cpu.setSp_eq, Cpu.resume]
  cases spselOf c.control <;> rfl

/-- R141: with the EXC_RETURN word of an entry in LR, the entry's stack pointer and its frame in memory, all of it still
mapped, a return gives the context back. -/
theorem excReturn_of_holdsFrame {c : Cpu} {u : State} {r : FrameRec} {rest : List FrameRec} (ha : u.afs = r :: rest)
    (hlr : u.cpu.lr = encodeExcReturn (spselOf c.control) (fpcaOf c.control))
    (hsp : u.cpu.sp (spselOf c.control) = entryBase c) (hf : HoldsFrame u.mem c) (hm : frameMapped u.params.mapped c) :
    excReturn u = { u with cpu := c.resume u.cpu, afs := rest } := by
  have hl : u.params.strict = true → legalExcReturn u.cpu.lr = true := fun _ => by rw [hlr, legal_encode]
  rw [excReturn_of_mapped ha hl, hlr, returnCpu_of_holdsFrame hsp hf]
  rw [hlr, decodeSpsel_encode, decodeFpca_encode, hsp]
  exact hm

/-- The state with another value in CONTROL, as a handler may leave it (R30). -/
def State.withControl (ctl : Word) (s : State) : State := { s with cpu := { s.cpu with control := ctl } }

/-- Given back to the CPU that its own entry left, whatever CONTROL has become, the context is complete: only the other
bits of CONTROL are not those of before. -/
theorem Cpu.resume_entryCpu (c : Cpu) (n : Nat) (h ctl : Word) :
    c.resume { entryCpu c n h with control := ctl } =
      { c with control := withMode ctl (spselOf c.control) (fpcaOf c.control) } := by
  simp only [Cpu.resume, entryCpu_eq]
  cases spselOf c.control <;> cases fpcaOf c.control <;> rfl

/-- R141, R30: a return after a handler that changed CONTROL and memory outside the frame at most. -/
theorem excReturn_after_entered {n : Nat} {s v : State} (ctl : Word) (hm : frameMapped s.params.mapped s.cpu)
    (hcpu : v.cpu = ((s.entered n).withControl ctl).cpu) (hafs : v.afs = (s.entered n).afs)
    (hparams : v.params = s.params)
    (hmem : ∀ i, i < frameSize (fpcaOf s.cpu.control) →
      v.mem.read (entryBase s.cpu + BitVec.ofNat 32 i).toNat =
        (s.entered n).mem.read (entryBase s.cpu + BitVec.ofNat 32 i).toNat) :
    excReturn v =
      { v with
        cpu := { s.cpu with control := withMode ctl (spselOf s.cpu.control) (fpcaOf s.cpu.control) }
        afs := s.afs } := by
  have hlr : v.cpu.lr = encodeExcReturn (spselOf s.cpu.control) (fpcaOf s.cpu.control) := by rw [hcpu]; rfl
  have hsp : v.cpu.sp (spselOf s.cpu.control) = entryBase s.cpu := by rw [hcpu]; exact entryCpu_sp s.cpu n (s.vt.entry n)
  have hf : HoldsFrame v.mem s.cpu := (holdsFrame_pushWords s.mem s.cpu).congr hmem
  rw [excReturn_of_holdsFrame hafs hlr hsp hf (hparams ▸ hm), hcpu]
  simp only [State.withControl, State.entered, Cpu.resume_entryCpu]

/-- R141: a return right after an entry undoes it, but for the memory. -/
theorem excReturn_entered {n : Nat} {s : State} (hm : frameMapped s.params.mapped s.cpu) :
    excReturn (s.entered n) = { s with mem := (s.entered n).mem } := by
  have hcpu : (s.entered n).cpu = ((s.entered n).withControl s.cpu.control).cpu := by
    simp only [State.withControl, State.entered, entryCpu_eq]
  rw [excReturn_after_entered s.cpu.control hm hcpu rfl rfl fun _ _ => rfl, withMode_self]
  rfl

end Sys2Proof.Machine
end

section
/-! PROOFS. The Interrupt Controller's obligations (40_interrupt_controller.md): raise and the boundary (O1 to O3), the
checks of lookup, entry and return (O4, O6, O8), what an entry and a return do (O5, O7), what the two give back together (O9
to O11), the EXC_RETURN words (O13) and the vector table (O16). -/

namespace Sys2Proof.Machine

/-! ### EXC_RETURN words and the vector lookup -/

/-- Settles O13, by evaluation of the codec on each pair. -/
theorem encodeGivesTheFourWords : Obligations.EncodeGivesTheFourWords :=
  fun _ => ⟨rfl, rfl, rfl, rfl⟩

theorem exec_vtLookup_of_error {n : Nat} {s : State} {f : Fatal} (hs : s.fatal = none)
    (h : lookupVector s.vt n = .error f) : exec (.vtLookup n) s = .next { s with fatal := some f } := by
  simp only [exec, execVtLookup, h, raiseFatal_of_none hs]

theorem exec_vtLookup_of_ok {n : Nat} {s : State} {h : Word} (hl : lookupVector s.vt n = .ok h) :
    exec (.vtLookup n) s = .next (answer (.word h) s) := by
  simp only [exec, execVtLookup, hl]

/-- Settles O4: the three answers of the lookup. -/
theorem lookupAnswersOrFaults : Obligations.LookupAnswersOrFaults := by
  intro n s
  exact ⟨fun h1 h17 h0 => exec_vtLookup_of_ok (lookupVector_of h1 h17 h0),
    fun hs hn => exec_vtLookup_of_error hs (lookupVector_absent hn),
    fun hs h1 h17 h0 => exec_vtLookup_of_error hs (lookupVector_zero h1 h17 h0)⟩

/-! ### The vector table of an image (R101, R147) -/

/-- A little-endian word of four bytes. -/
theorem leValue_four (a b c d : Byte) :
    leValue [a, b, c, d] = a.toNat + 2 ^ 8 * b.toNat + 2 ^ 16 * c.toNat + 2 ^ 24 * d.toNat := by
  simp only [leValue]
  omega

theorem take_four_drop (image : List Byte) (k : Nat) (h : k + 4 ≤ image.length) :
    (image.drop k).take 4 = [image.getD k 0, image.getD (k + 1) 0, image.getD (k + 2) 0, image.getD (k + 3) 0] := by
  refine List.ext_getElem (by simp; omega) fun i hi hi' => ?_
  have h4 : i < 4 := by simpa using hi'
  interval_cases i <;> simp [show k < image.length by omega, show k + 1 < image.length by omega,
    show k + 2 < image.length by omega, show k + 3 < image.length by omega]

theorem imageWord_toNat (image : List Byte) (n : Nat) (h : 4 * n + 4 ≤ image.length) :
    (imageWord image n).toNat =
      (image.getD (4 * n) 0).toNat + 2 ^ 8 * (image.getD (4 * n + 1) 0).toNat +
        2 ^ 16 * (image.getD (4 * n + 2) 0).toNat + 2 ^ 24 * (image.getD (4 * n + 3) 0).toNat := by
  rw [imageWord, take_four_drop image (4 * n) h, leValue_four, BitVec.toNat_ofNat]
  have h0 := (image.getD (4 * n) 0).isLt
  have h1 := (image.getD (4 * n + 1) 0).isLt
  have h2 := (image.getD (4 * n + 2) 0).isLt
  have h3 := (image.getD (4 * n + 3) 0).isLt
  omega

theorem parseImage_of_short {image : List Byte} (s : State) (h : image.length < 72) :
    parseImage image s = raiseFatal (.imageTooShort image.length) s := if_pos h

/-- Settles O16, by `imageWord_toNat` for each of the 18 words. -/
theorem parseReadsTheImageHeader : Obligations.ParseReadsTheImageHeader := by
  intro image s
  refine ⟨fun hlen => ⟨_, exec_vtParse image s, ?_⟩, fun hlen hs => ?_⟩
  · rw [parseImage_of_long s hlen]
    refine ⟨rfl, fun n hn => ?_⟩
    rw [VectorTable.entry_ofWords _ n hn, imageWord_toNat image n (by omega)]
  · rw [exec_vtParse, parseImage_of_short s hlen, raiseFatal_of_none hs]

/-! ### The checks of entry and return (R257) -/

/-- Settles O6: what stops an entry, by the order of its checks. -/
theorem enterChecksInOrder : Obligations.EnterChecksInOrder := by
  intro n s hs
  simp only [exec_icEnter, ← raiseFatal_of_none hs]
  exact ⟨fun hn => congrArg _ (enter_of_error (lookupVector_absent hn)),
    fun h1 h17 h0 => congrArg _ (enter_of_error (lookupVector_zero h1 h17 h0)),
    fun h1 h17 h0 _ hu => congrArg _ (enter_of_unmapped h1 h17 h0 hu)⟩

/-- Settles O8: what stops a return, by the order of its checks. -/
theorem returnChecksInOrder : Obligations.ReturnChecksInOrder := by
  intro s hs
  simp only [exec_icReturn, ← raiseFatal_of_none hs]
  exact ⟨fun ha => congrArg _ (excReturn_of_outside ha),
    fun ha hstrict hl => congrArg _ (excReturn_of_illegal ha hstrict hl),
    fun ha hl _ hu => congrArg _ (excReturn_of_unmapped ha hl hu)⟩

/-! ### What an entry does (R134, R145) -/

theorem ofNat_frameSize (f : Bool) : BitVec.ofNat 32 (frameSize f) = if f then 100#32 else 32#32 := by cases f <;> rfl

theorem entryBase_eq (c : Cpu) : entryBase c =
    (if c.control.getLsbD 1 then c.psp else c.msp) - (if c.control.getLsbD 2 then 100#32 else 32#32) := by
  rw [entryBase, ofNat_frameSize]
  rfl

/-- The FP registers of an extended frame, word by word (R99). -/
theorem HoldsFrame.memRead_fp {m : Memory} {c : Cpu} (hf : HoldsFrame m c) (hx : fpcaOf c.control = true) :
    (∀ k : Fin 16, m.memRead (entryBase c + BitVec.ofNat 32 (0x20 + 4 * k.val)) 4 = c.fp.s k) ∧
      m.memRead (entryBase c + 0x60#32) 4 = c.fp.fpscr := by
  rw [← hf.extended hx]
  refine ⟨fun k => ?_, rfl⟩
  rw [FpRegs.s_ofWords, memRead_extended]

theorem sameOutside_pushWords (m : Memory) (c : Cpu) :
    sameOutside m (m.pushWords (entryBase c) (frameWords c (fpcaOf c.control))) (entryBase c)
      (frameSize (fpcaOf c.control)) := by
  intro x hx
  exact Memory.read_pushWords_outside _ m (entryBase c) x (by rwa [frameWords_length])

/-- Settles O5, with `State.entered`: the words of the frame are those of `holdsFrame_pushWords`. -/
theorem enterSavesContextAndJumps : Obligations.EnterSavesContextAndJumps := by
  intro n s h1 h17 h0 hm
  have hf : HoldsFrame (s.entered n).mem s.cpu := holdsFrame_pushWords s.mem s.cpu
  obtain ⟨hr0, hr1, hr2, hr3, hr12, hlr, hpc, hxpsr⟩ := hf.base
  refine ⟨s.entered n, ?_, entryBase_eq s.cpu, ?_, rfl, getLsbD_withIpsr s.cpu.xpsr n,
    hr0, hr1, hr2, hr3, hr12, hlr, hpc, hxpsr, hf.memRead_fp, sameOutside_pushWords s.mem s.cpu⟩
  · rw [exec_icEnter, enter_of_mapped h1 h17 h0 hm]
  · conv_lhs => rw [State.entered, entryCpu_eq]
    rfl

/-! ### What a return does (R138, R146) -/

theorem frameSize_decodeFpca (v : Word) : frameSize (decodeFpca v) = if v.getLsbD 4 then 32 else 100 := by
  rw [decodeFpca]
  cases v.getLsbD 4 <;> rfl

theorem returnCpu_sp (c : Cpu) (m : Memory) (er : Word) :
    (returnCpu c m er).sp (er.getLsbD 2) = c.sp (er.getLsbD 2) + (if er.getLsbD 4 then 32#32 else 100#32) := by
  rw [← apply_ite (BitVec.ofNat 32), ← frameSize_decodeFpca]
  exact (Cpu.sp_setSp c (decodeSpsel er) (decodeSpsel er) _).trans (if_pos rfl)

theorem returnCpu_other_sp (c : Cpu) (m : Memory) (er : Word) :
    (returnCpu c m er).sp (!er.getLsbD 2) = c.sp (!er.getLsbD 2) :=
  (Cpu.sp_setSp c (decodeSpsel er) (!decodeSpsel er) _).trans (if_neg (Bool.not_ne_self _))

/-- Without an extended part the FP registers stay; with one they are its words. -/
theorem returnCpu_fp (c : Cpu) (m : Memory) (er : Word) :
    (returnCpu c m er).fp =
      if er.getLsbD 4 then c.fp else FpRegs.ofWords fun k => frameWord m (c.sp (er.getLsbD 2)) (8 + k) := by
  change (if (!er.getLsbD 4) = true then _ else _) = _
  cases er.getLsbD 4 <;> rfl

/-- Settles O7, with the state that `excReturn_of_mapped` gives. -/
theorem returnRestoresFromFrame : Obligations.ReturnRestoresFromFrame := by
  intro s r rest ha hl hm
  rw [← frameSize_decodeFpca] at hm
  have hret := exec_icReturn_of (excReturn_of_mapped ha hl hm)
  refine ⟨_, hret, fun a hin => ?_, rfl, rfl, rfl, rfl, rfl, rfl, rfl, rfl, rfl, fun hb => ?_, fun hx => ?_,
    returnCpu_sp _ _ _, returnCpu_other_sp _ _ _, getLsbD_withMode _ _ _⟩
  · rw [← hret]
    exact congrArg _ (if_pos hin)
  · rw [returnCpu_fp, if_pos hb]
  · rw [returnCpu_fp, if_neg (Bool.eq_false_iff.1 hx)]
    refine ⟨fun k => ?_, rfl⟩
    rw [FpRegs.s_ofWords, memRead_extended]

/-! ### Entry and return together (R140, R141) -/

/-- Settles O9, by `excReturn_entered`. -/
theorem enterThenReturnRestoresEverything : Obligations.EnterThenReturnRestoresEverything := by
  intro n s t he ht
  obtain ⟨rfl, -, hm⟩ := entered_of_enter he ht
  exact exec_icReturn_of (excReturn_entered hm)

/-- Settles O10: what the handler must keep is what `excReturn_of_holdsFrame` asks for. -/
theorem returnAfterHandlerRestoresContext : Obligations.ReturnAfterHandlerRestoresContext := by
  intro n s t u he ht _ hlr hsp hmem hafs hparams
  obtain ⟨rfl, -, hm⟩ := entered_of_enter he ht
  have hf : HoldsFrame u.mem s.cpu := (holdsFrame_pushWords s.mem s.cpu).congr hmem
  have hret := excReturn_of_holdsFrame hafs hlr (hsp.trans (entryCpu_sp s.cpu n _)) hf (hparams ▸ hm)
  refine ⟨_, exec_icReturn_of hret, rfl, ⟨rfl, rfl, rfl, rfl, rfl⟩, rfl, rfl, rfl, Cpu.resume_sp _ _, spselOf_withMode _ _ _,
    fpcaOf_withMode _ _ _, fun hx => if_pos hx, fun hb => if_neg (Bool.eq_false_iff.1 hb), rfl, rfl⟩

/-- Settles O11: the inner return undoes the inner entry (`excReturn_entered`), whose frame lies outside the outer one, so
that the outer frame is still there for the outer return. -/
theorem nestedEntriesUnwindInLifoOrder : Obligations.NestedEntriesUnwindInLifoOrder := by
  intro m n c s t u hs he ht he' hu hout
  obtain ⟨rfl, -, hm⟩ := entered_of_enter he ht
  obtain ⟨rfl, -, hm'⟩ := entered_of_enter he' hu
  have hinner := excReturn_entered (n := n) hm'
  have houter := excReturn_after_entered (n := m)
    (v := { (s.entered m).withControl c with mem := (((s.entered m).withControl c).entered n).mem }) c hm rfl rfl rfl
    fun i hi => sameOutside_pushWords (s.entered m).mem ((s.entered m).withControl c).cpu _ (hout i hi)
  exact ⟨_, _, exec_icReturn_of hinner, exec_icReturn_of houter, hs, rfl, rfl, rfl, rfl, ⟨rfl, rfl, rfl, rfl, rfl⟩, rfl, rfl, rfl,
    rfl, rfl, rfl, spselOf_withMode _ _ _, fpcaOf_withMode _ _ _⟩

/-! ### Raise and the boundary (R131, R132) -/

theorem raiseException_boundary {s : State} (n : Nat) (h : s.params.timing = .boundary) :
    raiseException n s = { s with pend := s.pend ++ [n] } := by
  simp only [raiseException, h]

theorem raiseException_immediate {s : State} (n : Nat) (h : s.params.timing = .immediate) :
    raiseException n s = enter n s := by
  simp only [raiseException, h]

/-- Settles O1: the two timings of raise. -/
theorem raiseQueuesAtTailOrEnters : Obligations.RaiseQueuesAtTailOrEnters :=
  fun n _ => ⟨fun h => congrArg _ (raiseException_boundary n h), fun h => congrArg _ (raiseException_immediate n h)⟩

theorem drainPending_of_fatal {s : State} (ns : List Nat) (h : s.fatal ≠ none) : drainPending ns s = s := by
  cases ns with
  | nil => rfl
  | cons n rest => exact if_pos (Option.isSome_iff_ne_none.2 h)

theorem drainPending_cons {s : State} (n : Nat) (rest : List Nat) (h : s.fatal = none) :
    drainPending (n :: rest) s = drainPending rest (enter n { s with pend := rest }) := by
  rw [drainPending, h]
  rfl

/-- Settles O2: one round of the boundary's loop is the entry of the first number, then a boundary on the rest. -/
theorem boundaryEntersInFifoOrder : Obligations.BoundaryEntersInFifoOrder := by
  intro s
  refine ⟨fun hp => ?_, fun hf => ?_, fun n rest hp hf => ⟨_, exec_icEnter n _, enter_pend n _, ?_⟩⟩
  · rw [exec_icBoundary, hp, drainPending]
  · rw [exec_icBoundary, drainPending_of_fatal s.pend hf]
  · rw [exec_icBoundary, exec_icBoundary, enter_pend, hp, drainPending_cons n rest hf]

/-! ### A boundary that completes (R132, R140, R256) -/

/-- The frames of `k` entries, one below the other on the selected stack, are mapped. -/
def roomFor (k : Nat) (s : State) : Prop :=
  mappedFrom s.params.mapped
    (s.cpu.sp (spselOf s.cpu.control) - BitVec.ofNat 32 (k * frameSize (fpcaOf s.cpu.control)))
    (k * frameSize (fpcaOf s.cpu.control))

/-- The numbers have handlers in the vector table. -/
def handled (t : VectorTable) (ns : List Nat) : Prop := ∀ n ∈ ns, 1 ≤ n ∧ n ≤ 17 ∧ t.entry n ≠ 0

/-- `t` is what the entries of `ns` in order, all of them successful, make of `s`. -/
structure EntersAll (ns : List Nat) (s t : State) : Prop where
  fatal : t.fatal = none
  pend : t.pend = []
  nested : t.afs.map (·.irq) = ns.reverse ++ s.afs.map (·.irq)
  jumped : t.cpu.pc = (ns.getLast?.map s.vt.entry).getD s.cpu.pc
  general : sameGeneral s.cpu t.cpu
  control : t.cpu.control = s.cpu.control
  fp : t.cpu.fp = s.cpu.fp
  devices : t.devices = s.devices
  log : t.log = s.log
  config : sameConfig s t

theorem EntersAll.cons {n : Nat} {rest ps : List Nat} {s t : State}
    (h : EntersAll rest ({ s with pend := ps }.entered n) t) : EntersAll (n :: rest) s t := by
  have hcpu := entryCpu_eq s.cpu n (s.vt.entry n)
  have hpc := h.jumped
  have hgen := h.general
  have hctl := h.control
  have hfp := h.fp
  simp only [State.entered, hcpu] at hpc hgen hctl hfp
  refine ⟨h.fatal, h.pend, ?_, ?_, hgen, hctl, hfp, h.devices, h.log, h.config⟩
  · rw [h.nested, List.reverse_cons, List.append_assoc]
    rfl
  · rw [hpc, List.getLast?_cons]
    cases rest.getLast? <;> rfl

theorem mappedFrom_part {mapped : List Region} {a : Word} {n : Nat} (h : mappedFrom mapped a n) (i k : Nat)
    (hik : i + k ≤ n) : mappedFrom mapped (a + BitVec.ofNat 32 i) k := by
  intro j hj
  rw [Word.add_ofNat_add]
  exact h (i + j) (by omega)

theorem Word.sub_ofNat_add (a : Word) (i j : Nat) :
    a - BitVec.ofNat 32 (i + j) + BitVec.ofNat 32 i = a - BitVec.ofNat 32 j := by
  rw [BitVec.ofNat_add]
  ring

/-- Room for one entry more than `k`: its own frame, and room for `k` once it is taken. -/
theorem roomFor_succ {k : Nat} {s : State} (h : roomFor (k + 1) s) :
    frameMapped s.params.mapped s.cpu ∧ ∀ n ps, roomFor k ({ s with pend := ps }.entered n) := by
  simp only [roomFor, Nat.add_one_mul] at h
  refine ⟨?_, fun n ps => ?_⟩
  · have hfirst := mappedFrom_part h (k * frameSize (fpcaOf s.cpu.control)) (frameSize (fpcaOf s.cpu.control)) le_rfl
    rwa [Word.sub_ofNat_add] at hfirst
  · have hrest := mappedFrom_part h 0 (k * frameSize (fpcaOf s.cpu.control)) (by omega)
    have hctl : (entryCpu s.cpu n (s.vt.entry n)).control = s.cpu.control := by rw [entryCpu_eq]
    have hbase : entryBase s.cpu - BitVec.ofNat 32 (k * frameSize (fpcaOf s.cpu.control)) =
        s.cpu.sp (spselOf s.cpu.control) -
          BitVec.ofNat 32 (k * frameSize (fpcaOf s.cpu.control) + frameSize (fpcaOf s.cpu.control)) := by
      rw [entryBase, BitVec.ofNat_add]
      ring
    simp only [roomFor, State.entered, hctl, entryCpu_sp, hbase]
    simpa using hrest

/-- By induction on the numbers: each entry leaves room and handlers for those after it. -/
theorem drainPending_entersAll (ns : List Nat) : ∀ s : State, s.fatal = none → s.pend = ns → roomFor ns.length s →
    handled s.vt ns → EntersAll ns s (drainPending ns s) := by
  induction ns with
  | nil =>
    intro s hf hp _ _
    exact ⟨hf, hp, rfl, rfl, ⟨rfl, rfl, rfl, rfl, rfl⟩, rfl, rfl, rfl, rfl, rfl, rfl⟩
  | cons n rest ih =>
    intro s hf _ hroom hh
    obtain ⟨h1, h17, h0⟩ := hh n List.mem_cons_self
    obtain ⟨hm, hroom'⟩ := roomFor_succ hroom
    rw [drainPending_cons n rest hf, enter_of_mapped (s := { s with pend := rest }) h1 h17 h0 hm]
    have hrest : handled s.vt rest := fun k hk => hh k (List.mem_cons_of_mem n hk)
    have hnext := ih ({ s with pend := rest }.entered n) hf rfl
    exact (hnext (hroom' n rest) hrest).cons

/-- Settles O3, by `drainPending_entersAll`. -/
theorem boundaryEntersEveryPending : Obligations.BoundaryEntersEveryPending := by
  intro s hf hm hh
  have h := drainPending_entersAll s.pend s hf rfl hm hh
  refine ⟨_, exec_icBoundary s, h.fatal, h.pend, h.nested, fun n hn => ?_, h.general, h.control, h.fp, h.devices, h.log,
    h.config⟩
  rw [h.jumped, hn]
  rfl

end Sys2Proof.Machine
end

section
/-! PROOFS. The MMIO Dispatcher (41_mmio_dispatch.md): the lookup (O19), what dispatched reads (O20, O21) and writes (O24, O25)
leave behind, and whose registers a dispatched access can change (O26). The idea of O26 is `SameRegsBut`: every call of a
callback keeps the RegisterFile of each device but the one it names, and what a device's write does is a store in its own
RegisterFile and such calls. -/

namespace Sys2Proof.Machine

/-! ### The lookup (R171) -/

theorem exec_mmioLookup (a : Word) (s : State) :
    exec (.mmioLookup a) s = .next (answer ((s.resolve a).elim .absent fun x => .device x.id) s) := by
  change execMmioLookup a s = _
  unfold execMmioLookup
  cases s.resolve a <;> rfl

theorem resolve_eq (s : State) (a : Word) : s.resolve a = (hwLookup s.params.hwDb a).bind fun e => s.device e.devId := by
  unfold State.resolve
  cases hwLookup s.params.hwDb a <;> rfl

theorem hwLookup_eq_none {db : List HwEntry} {a : Word} (h : ∀ e ∈ db, e.addr ≠ a) : hwLookup db a = none :=
  List.find?_eq_none.2 fun e he => by simpa using h e he

/-- The first entry of an address answers for it (log 6). -/
theorem hwLookup_first {pre post : List HwEntry} {e : HwEntry} (h : ∀ x ∈ pre, x.addr ≠ e.addr) :
    hwLookup (pre ++ e :: post) e.addr = some e := by
  have hpre : pre.find? (fun x => x.addr == e.addr) = none := hwLookup_eq_none h
  rw [hwLookup, List.find?_append, hpre, Option.none_or, List.find?_cons_of_pos (by simp)]

theorem device_id {s : State} {d : Ident} {x : Device} (h : s.device d = some x) : x.id = d := by
  simpa using List.find?_some h

theorem device_eq_none {s : State} {d : Ident} (h : ∀ x ∈ s.devices, x.id ≠ d) : s.device d = none :=
  List.find?_eq_none.2 fun x hx => by simpa using h x hx

theorem device_of_exists {s : State} {d : Ident} (h : ∃ x ∈ s.devices, x.id = d) : ∃ x, s.device d = some x ∧ x.id = d := by
  obtain ⟨y, hy, hyd⟩ := h
  have hsome : (s.device d).isSome := List.find?_isSome.2 ⟨y, hy, by simpa using hyd⟩
  obtain ⟨x, hx⟩ := Option.isSome_iff_exists.1 hsome
  exact ⟨x, hx, device_id hx⟩

/-- The device that the lookup answers is found under its own identifier. -/
theorem device_of_resolve {s : State} {a : Word} {x : Device} (h : s.resolve a = some x) : s.device x.id = some x := by
  rw [resolve_eq] at h
  obtain ⟨e, -, he⟩ := Option.bind_eq_some_iff.1 h
  rw [device_id he, he]

/-- Settles O19: the three cases of `resolve_eq`. -/
theorem lookupResolvesExactAddress : Obligations.LookupResolvesExactAddress := by
  intro a s
  rw [exec_mmioLookup, resolve_eq]
  refine ⟨fun h => ?_, ?_⟩
  · rw [hwLookup_eq_none h]
    rfl
  · rintro pre e post hdb hpre rfl
    rw [hdb, hwLookup_first hpre, Option.bind_some]
    refine ⟨fun h => ?_, fun h => ?_⟩
    · obtain ⟨x, hx, hid⟩ := device_of_exists h
      rw [hx, ← hid]
      rfl
    · rw [device_eq_none h]
      rfl

/-! ### The bytes of a value (R61) -/

theorem byteOf_eq_div (v : Word) (i : Nat) : byteOf v i = BitVec.ofNat 8 (v.toNat / 256 ^ i) := by
  rw [byteOf_eq_shift, BitVec.toNat_ushiftRight, Nat.shiftRight_eq_div_pow, Nat.pow_mul]

theorem getElem_leBytes (n : Nat) : ∀ (v i : Nat) (h : i < (leBytes n v).length),
    (leBytes n v)[i] = BitVec.ofNat 8 (v / 256 ^ i) := by
  induction n with
  | zero => exact fun _ _ h => absurd h (Nat.not_lt_zero _)
  | succ n ih =>
    intro v i h
    cases i with
    | zero => simp [leBytes]
    | succ i => simp only [leBytes, List.getElem_cons_succ, ih, Nat.div_div_eq_div_mul, Nat.pow_succ']

theorem read_memWrite_at (m : Memory) (a : Word) {n i : Nat} (v : Word) (hn : n ≤ 4) (hi : i < n) :
    (m.memWrite a n v).read (a + BitVec.ofNat 32 i).toNat = byteOf v i := by
  have hlen : (leBytes n v.toNat).length = n := leBytes_length n v.toNat
  rw [Memory.memWrite, Memory.read_writeBytes_at _ m a i (by omega) (by omega), getElem_leBytes, byteOf_eq_div]

theorem sameOutside_memWrite (m : Memory) (a : Word) (n : Nat) (v : Word) : sameOutside m (m.memWrite a n v) a n :=
  Memory.read_memWrite_outside m a n v

/-- A read of bytes that are those of `v` gives the low bytes of `v`. -/
theorem memRead_of_bytes {m : Memory} {a : Word} {n : Nat} {v : Word} (hn : n ≤ 4)
    (h : ∀ i, i < n → m.read (a + BitVec.ofNat 32 i).toNat = byteOf v i) :
    m.memRead a n = BitVec.ofNat 32 (v.toNat % 2 ^ (8 * n)) := by
  rw [← Memory.memRead_memWrite m a n v hn]
  exact Memory.memRead_congr _ _ a n fun i hi => by rw [h i hi, read_memWrite_at m a v hn hi]

/-! ### Dispatched reads (R172, R174, R176) -/

theorem size_le_four {n : Nat} (h : n = 1 ∨ n = 2 ∨ n = 4) : n ≤ 4 := by omega

theorem busRead_of_mapped {a : Word} {n : Nat} {s : State} (hn : n = 1 ∨ n = 2 ∨ n = 4)
    (hm : mappedFrom s.params.mapped a n) :
    busRead a n s = answer (.word ((backingAfterRead a s).memRead a n)) { s with mem := backingAfterRead a s } := by
  rw [busRead_eq, accessError_of_mapped hn hm, Option.elim_none]

theorem deviceRead_eq (x : Device) (a : Word) : deviceRead x a = (byAddress x.regs a).map (·.value) := by
  unfold deviceRead
  cases byAddress x.regs a <;> rfl

theorem backingAfterRead_of_register {a : Word} {s : State} {x : Device} {r : Reg} (hx : s.resolve a = some x)
    (hr : byAddress x.regs a = some r) : backingAfterRead a s = overwriteBacking s.params.mapped a r.value s.mem := by
  rw [backingAfterRead_eq, hx, Option.bind_some, deviceRead_eq, hr]
  rfl

/-- No register answers at the address: no device owns it (R174), or its owner has no register there (R176). -/
def OpenBus (a : Word) (s : State) : Prop :=
  s.resolve a = none ∨ ∃ x, s.resolve a = some x ∧ byAddress x.regs a = none

theorem backingAfterRead_of_openBus {a : Word} {s : State} (h : OpenBus a s) : backingAfterRead a s = s.mem := by
  rw [backingAfterRead_eq]
  rcases h with h | ⟨x, hx, hr⟩
  · rw [h]
    rfl
  · rw [hx, Option.bind_some, deviceRead_eq, hr]
    rfl

/-- Settles O20: the bytes read are mapped, so the overwrite has made each of them the register's. -/
theorem readOfRegisterOverwritesBacking : Obligations.ReadOfRegisterOverwritesBacking := by
  intro a n s x r hn hm hx hr
  have hread := read_overwriteBacking_at s.params.mapped a r.value s.mem
  have hvalue : (overwriteBacking s.params.mapped a r.value s.mem).memRead a n =
      BitVec.ofNat 32 (r.value.toNat % 2 ^ (8 * n)) := by
    refine memRead_of_bytes (size_le_four hn) fun i hi => ?_
    rw [hread i (by omega), if_pos (hm i hi)]
  refine ⟨_, exec_mmioRead a n s, ?_⟩
  rw [busRead_of_mapped hn hm, backingAfterRead_of_register hx hr]
  exact ⟨rfl, congrArg _ hvalue, hread, read_overwriteBacking_outside s.params.mapped a r.value s.mem⟩

/-- Settles O21: on the open bus memory stays as it was. -/
theorem openBusReadReturnsBacking : Obligations.OpenBusReadReturnsBacking := by
  intro a n s hn hm hopen
  rw [exec_mmioRead, busRead_of_mapped hn hm, backingAfterRead_of_openBus hopen]
  rfl

/-! ### Dispatched writes (R173, R175, R176) -/

theorem exec_devWrite (d : Ident) (a v : Word) (s : State) : exec (.devWrite d a v) s = .next (deviceWrite d a v s) := rfl

theorem busWrite_of_mapped {a : Word} {n : Nat} {s : State} (v : Word) (hn : n = 1 ∨ n = 2 ∨ n = 4)
    (hm : mappedFrom s.params.mapped a n) : busWrite a n v s = landBytes a n v (ownerWrite a (zextValue n v) s) := by
  rw [busWrite_eq, accessError_of_mapped hn hm, Option.elim_none]

theorem ownerWrite_of_none {a : Word} {s : State} (v : Word) (h : s.resolve a = none) : ownerWrite a v s = s := by
  simp only [ownerWrite, h]

theorem ownerWrite_of_some {a : Word} {s : State} {x : Device} (v : Word) (h : s.resolve a = some x) :
    ownerWrite a v s = deviceWrite x.id a v s := by
  simp only [ownerWrite, h]

theorem stopped_iff (s : State) : s.stopped = true ↔ s.fatal ≠ none ∨ s.thread = .hung := by
  rw [State.stopped, Bool.or_eq_true, decide_eq_true_eq, Option.isSome_iff_ne_none]

theorem landBytes_of_stopped {a : Word} {n : Nat} {s : State} (v : Word) (h : s.fatal ≠ none ∨ s.thread = .hung) :
    landBytes a n v s = s := if_pos ((stopped_iff s).2 h)

theorem landBytes_of_not_stopped {a : Word} {n : Nat} {s : State} (v : Word) (hf : s.fatal = none) (ht : s.thread ≠ .hung) :
    landBytes a n v s = { s with mem := s.mem.memWrite a n v } := by
  have h : ¬ s.stopped = true := by
    rw [stopped_iff, not_or, not_not]
    exact ⟨hf, ht⟩
  exact if_neg h

/-- Settles O24: the two outcomes of `landBytes` after the device's write. -/
theorem writeRunsDeviceThenLands : Obligations.WriteRunsDeviceThenLands := by
  intro a n v s x hn hm hx
  refine ⟨_, exec_devWrite x.id a (zextValue n v) s, ?_⟩
  rw [exec_mmioWrite, busWrite_of_mapped v hn hm, ownerWrite_of_some _ hx]
  refine ⟨fun hf ht => ?_, fun h => congrArg _ (landBytes_of_stopped v h)⟩
  rw [landBytes_of_not_stopped v hf ht]
  exact ⟨_, rfl, rfl, fun i hi => read_memWrite_at _ a v (size_le_four hn) hi, sameOutside_memWrite _ a n v⟩

theorem map_ite_eq_self {α : Type} {l : List α} {p : α → Bool} {f : α → α} (h : ∀ x ∈ l, p x = true → f x = x) :
    (l.map fun x => if p x then f x else x) = l := by
  conv_rhs => rw [← List.map_id l]
  refine List.map_congr_left fun x hx => ?_
  split
  · next hp => exact h x hx hp
  · rfl

theorem regsSetByAddr_of_absent {regs : List Reg} {a : Word} (v : Word) (h : byAddress regs a = none) :
    regsSetByAddr regs a v = regs :=
  map_ite_eq_self fun r hr hra => absurd hra (List.find?_eq_none.1 h r hr)

/-- An update that fixes the one device with the identifier changes nothing (R211). -/
theorem updateDevice_of_fixed {s : State} {d : Ident} {x : Device} {f : Device → Device}
    (hn : (s.devices.map (·.id)).Nodup) (hx : s.device d = some x) (hf : f x = x) : s.updateDevice d f = s := by
  have hone : ∀ y ∈ s.devices, y.id = d → y = x := by
    rintro y hy rfl
    exact Option.some_inj.1 ((find_id_of_mem hn hy).symm.trans hx)
  have hmap : (s.devices.map fun y => if y.id == d then f y else y) = s.devices :=
    map_ite_eq_self fun y hy hid => by rw [hone y hy (beq_iff_eq.1 hid), hf]
  rw [State.updateDevice, hmap]

/-- A device's write at an address where it has no register has no effect (R176, R194). -/
theorem deviceWrite_of_no_register {s : State} {d : Ident} {x : Device} {a : Word} (v : Word)
    (hn : (s.devices.map (·.id)).Nodup) (hx : s.device d = some x) (hr : byAddress x.regs a = none) :
    deviceWrite d a v s = s := by
  have hstore : setByAddress d a v.toNat s = s :=
    updateDevice_of_fixed hn hx (by rw [regsSetByAddr_of_absent _ hr])
  simp only [deviceWrite, hx, hr, hstore]

theorem ownerWrite_of_openBus {a : Word} {s : State} (v : Word) (hn : (s.devices.map (·.id)).Nodup) (h : OpenBus a s) :
    ownerWrite a v s = s := by
  rcases h with h | ⟨x, hx, hr⟩
  · exact ownerWrite_of_none v h
  · rw [ownerWrite_of_some v hx, deviceWrite_of_no_register v hn (device_of_resolve hx) hr]

/-- Settles O25: on the open bus the owner's part is nothing, and a live session lets the bytes land. -/
theorem openBusWriteLandsInMemory : Obligations.OpenBusWriteLandsInMemory := by
  rintro a n v s hn ⟨hf, ht⟩ hm hnodup hopen
  have hrun : s.thread ≠ .hung := by simp [ht]
  refine ⟨_, exec_mmioWrite a n v s, ?_⟩
  rw [busWrite_of_mapped v hn hm, ownerWrite_of_openBus _ hnodup hopen, landBytes_of_not_stopped v hf hrun]
  exact ⟨rfl, fun i hi => read_memWrite_at s.mem a v (size_le_four hn) hi, sameOutside_memWrite s.mem a n v⟩

/-! ### Operations that change no device -/

@[simp] theorem busRead_devices (a : Word) (n : Nat) (s : State) : (busRead a n s).devices = s.devices := by
  rw [busRead_eq]
  cases accessError s.params.mapped a n with
  | none => rfl
  | some f => exact raiseFatal_devices f s

@[simp] theorem landBytes_devices (a : Word) (n : Nat) (v : Word) (s : State) : (landBytes a n v s).devices = s.devices := by
  unfold landBytes
  split <;> rfl

/-- The checks of a dispatched write and the raw bytes change no device: what does is the owner's part. -/
theorem busWrite_devices (a : Word) (n : Nat) (v : Word) (s : State) :
    (busWrite a n v s).devices = s.devices ∨ (busWrite a n v s).devices = (ownerWrite a (zextValue n v) s).devices := by
  rw [busWrite_eq]
  cases accessError s.params.mapped a n with
  | none => exact .inr (landBytes_devices a n v _)
  | some f => exact .inl (raiseFatal_devices f s)

@[simp] theorem enter_devices (n : Nat) (s : State) : (enter n s).devices = s.devices := by
  rcases enter_cases n s with ⟨f, -, h⟩ | ⟨hd, a, -, -, h⟩ | ⟨hd, -, -, h⟩ <;> simp [h]

@[simp] theorem raiseException_devices (n : Nat) (s : State) : (raiseException n s).devices = s.devices := by
  unfold raiseException
  split
  · rfl
  · exact enter_devices n s

@[simp] theorem rawWrite_devices (a : Word) (bs : List Byte) (s : State) : (rawWrite a bs s).devices = s.devices := by
  unfold rawWrite
  split
  · exact raiseFatal_devices _ s
  · rfl

@[simp] theorem rawRead_devices (a : Word) (n : Nat) (s : State) : (rawRead a n s).devices = s.devices := by
  unfold rawRead
  split
  · exact raiseFatal_devices _ s
  · rfl

@[simp] theorem readState_devices (sel : ReadSel) (s : State) : (readState sel s).devices = s.devices := by
  obtain ⟨v, h⟩ := readState_eq sel s
  rw [h, answer_devices]

@[simp] theorem injectPacket_devices (d : Ident) (bs : List Byte) (s : State) :
    (injectPacket d bs s).devices = s.devices := by
  unfold injectPacket
  split
  · rfl
  · split
    · dsimp only
      split
      · rfl
      · split
        · exact raiseFatal_devices _ s
        · rfl
    · rfl

@[simp] theorem gpioPins_devices (kind : PinKind) (d : Ident) (v : Word) (s : State) :
    (gpioPins kind d v s).devices = s.devices := by
  unfold gpioPins
  split <;> rfl

/-! ### Whose RegisterFile can change (R177) -/

/-- Every RegisterFile but that of `d` is the same in both states. -/
def SameRegsBut (d : Ident) (s t : State) : Prop :=
  ∀ e, e ≠ d → (t.device e).map (·.regs) = (s.device e).map (·.regs)

theorem SameRegsBut.trans {d : Ident} {s t u : State} (h : SameRegsBut d s t) (k : SameRegsBut d t u) :
    SameRegsBut d s u := fun e he => (k e he).trans (h e he)

theorem sameRegsBut_of_devices {s t : State} (d : Ident) (h : t.devices = s.devices) : SameRegsBut d s t := by
  intro e _
  simp only [State.device, h]

theorem SameRegsBut.refl (d : Ident) (s : State) : SameRegsBut d s s := sameRegsBut_of_devices d rfl

theorem sameRegsBut_updateDevice (d : Ident) (s : State) (f : Device → Device) (hf : ∀ x, (f x).id = x.id) :
    SameRegsBut d s (s.updateDevice d f) := by
  intro e he
  rw [device_updateDevice s d e f hf, if_neg he]

/-- The device fields beyond the RegisterFile may change on any device. -/
theorem sameRegsBut_updateBody (d c : Ident) (s : State) (f : DevBody → DevBody) :
    SameRegsBut d s (s.updateDevice c fun x => { x with body := f x.body }) := by
  intro e _
  rw [device_updateDevice s c e _ (by intro x; rfl)]
  split
  · next h => rw [h, Option.map_map]; rfl
  · rfl

theorem setByAddress_sameRegsBut (d : Ident) (a : Word) (v : Nat) (s : State) :
    SameRegsBut d s (setByAddress d a v s) := sameRegsBut_updateDevice d s _ fun _ => rfl

theorem setByName_sameRegsBut (d nm : Ident) (v : Nat) (s : State) : SameRegsBut d s (setByName d nm v s) :=
  sameRegsBut_updateDevice d s _ fun _ => rfl

theorem setRadioState_sameRegsBut (d : Ident) (st : RadioState) (s : State) :
    SameRegsBut d s (setRadioState d st s) := by
  unfold setRadioState
  split
  · exact (sameRegsBut_updateBody d d s _).trans (setByName_sameRegsBut d nmState _ _)
  · exact SameRegsBut.refl d s

theorem registerCb_sameRegsBut (d c : Ident) (kind : CbKind) (f : Nat) (s : State) :
    SameRegsBut d s (registerCb c kind f s) := by
  unfold registerCb
  split
  · exact sameRegsBut_updateBody d c s _
  · exact SameRegsBut.refl d s

theorem timerStart_sameRegsBut (d c : Ident) (s : State) : SameRegsBut d s (timerStart c s) := by
  unfold timerStart
  split
  · exact sameRegsBut_updateBody d c s _
  · exact SameRegsBut.refl d s

theorem timerStop_sameRegsBut (d c : Ident) (j : Bool) (s : State) : SameRegsBut d s (timerStop c j s) := by
  rcases timerStop_cases c j s with ⟨-, h⟩ | ⟨-, -, h⟩ | ⟨-, -, h⟩ <;> rw [h]
  · exact SameRegsBut.refl d s
  · exact sameRegsBut_updateBody d c s _
  · exact sameRegsBut_of_devices d (raiseFatal_devices _ s)

theorem timerTick_sameRegsBut (d c : Ident) (s : State) : SameRegsBut d s (timerTick c s) := by
  unfold timerTick
  split
  · exact sameRegsBut_updateBody d c s _
  · exact SameRegsBut.refl d s

/-- A call that stays on `d`, which only those that write a RegisterFile need to. -/
theorem runCall_sameRegsBut {d : Ident} {c : SessionCall} (s : State) (h : callStaysOn d c = true) :
    SameRegsBut d s (runCall c s) := by
  cases c with
  | raise n => exact sameRegsBut_of_devices d (raiseException_devices n s)
  | registerCb e kind f => exact registerCb_sameRegsBut d e kind f s
  | injectPacket e bs => exact sameRegsBut_of_devices d (injectPacket_devices e bs s)
  | setState e st => cases of_decide_eq_true h; exact setRadioState_sameRegsBut d st s
  | start e => exact timerStart_sameRegsBut d e s
  | stop e j => exact timerStop_sameRegsBut d e j s
  | setByAddress e a v => cases of_decide_eq_true h; exact setByAddress_sameRegsBut d a v s
  | setByName e nm v => cases of_decide_eq_true h; exact setByName_sameRegsBut d nm v s
  | rawWrite a bs => exact sameRegsBut_of_devices d (rawWrite_devices a bs s)
  | hang => exact SameRegsBut.refl d s
  | rawRead a n => exact sameRegsBut_of_devices d (rawRead_devices a n s)
  | read sel => exact sameRegsBut_of_devices d (readState_devices sel s)
  | tick e => exact timerTick_sameRegsBut d e s

theorem runCalls_sameRegsBut {d : Ident} (cs : List SessionCall) :
    ∀ s, (∀ c ∈ cs, callStaysOn d c = true) → SameRegsBut d s (runCalls cs s) := by
  induction cs with
  | nil => exact fun s _ => SameRegsBut.refl d s
  | cons c cs ih =>
    intro s h
    unfold runCalls
    split
    · exact SameRegsBut.refl d s
    · exact (runCall_sameRegsBut s (h c List.mem_cons_self)).trans (ih _ fun k hk => h k (List.mem_cons_of_mem c hk))

/-- The calls of an invocation are fixed before the first of them: they are those bound when it begins (log 18). -/
theorem invokeCallback_sameRegsBut {d : Ident} {s : State} (f : Nat) (h : callbacksStayOn d s) :
    SameRegsBut d s (invokeCallback f s) := by
  unfold invokeCallback
  split
  · exact SameRegsBut.refl d s
  · next c hc =>
    split
    · exact SameRegsBut.refl d s
    · next run rest hruns =>
      have hrun := h c (List.mem_of_find?_eq_some hc) run (hruns ▸ List.mem_cons_self)
      exact (sameRegsBut_of_devices d rfl).trans (runCalls_sameRegsBut run _ hrun)

/-! ### A device's write changes its own RegisterFile alone (R177, R213) -/

theorem clockHfclkstart_sameRegsBut (d : Ident) (s : State) : SameRegsBut d s (clockHfclkstart d s) := by
  unfold clockHfclkstart
  split
  · exact setByName_sameRegsBut d _ _ s
  · exact SameRegsBut.refl d s

theorem timerCapture_sameRegsBut (d : Ident) (k : Nat) (s : State) : SameRegsBut d s (timerCapture d k s) := by
  unfold timerCapture
  split
  · split
    · exact SameRegsBut.refl d s
    · split
      · exact setByName_sameRegsBut d _ _ s
      · exact SameRegsBut.refl d s
  · exact SameRegsBut.refl d s

/-- The Radio's side effects change a device through a callback alone (R219, R220). -/
theorem radioTxen_devices_or_callback (d : Ident) (s : State) :
    (radioTxen d s).devices = s.devices ∨ ∃ f e, radioTxen d s = invokeCallback f (emit e s) := by
  unfold radioTxen
  split
  · exact .inl rfl
  · split
    · dsimp only
      split
      · exact .inl rfl
      · split
        · exact .inl (raiseFatal_devices _ s)
        · split
          · exact .inl (raiseFatal_devices _ s)
          · split
            · exact .inl rfl
            · exact .inr ⟨_, _, rfl⟩
    · exact .inl rfl

theorem radioRxen_devices_or_callback (d : Ident) (s : State) :
    (radioRxen d s).devices = s.devices ∨ ∃ f e, radioRxen d s = invokeCallback f (emit e s) := by
  unfold radioRxen
  split
  · exact .inl rfl
  · split
    · exact .inr ⟨_, _, rfl⟩
    · exact .inl rfl

theorem sameRegsBut_of_devices_or_callback {d : Ident} {s t : State} (hcb : callbacksStayOn d s)
    (h : t.devices = s.devices ∨ ∃ f e, t = invokeCallback f (emit e s)) : SameRegsBut d s t := by
  rcases h with h | ⟨f, e, rfl⟩
  · exact sameRegsBut_of_devices d h
  · have hemit : SameRegsBut d s (emit e s) := sameRegsBut_of_devices d rfl
    exact hemit.trans (invokeCallback_sameRegsBut f hcb)

theorem sideEffect_sameRegsBut {d : Ident} {s : State} (kind : DevKind) (nm : Ident) (v : Word)
    (hcb : callbacksStayOn d s) : SameRegsBut d s (sideEffect kind d nm v s) := by
  unfold sideEffect
  cases kind with
  | clock =>
    dsimp only
    split
    · exact clockHfclkstart_sameRegsBut d s
    · exact SameRegsBut.refl d s
  | gpio =>
    dsimp only
    split
    · exact sameRegsBut_of_devices d (gpioPins_devices .set d v s)
    · split
      · exact sameRegsBut_of_devices d (gpioPins_devices .clear d v s)
      · exact SameRegsBut.refl d s
  | rtc => exact SameRegsBut.refl d s
  | radio =>
    dsimp only
    split
    · exact sameRegsBut_of_devices_or_callback hcb (radioTxen_devices_or_callback d s)
    · split
      · exact sameRegsBut_of_devices_or_callback hcb (radioRxen_devices_or_callback d s)
      · exact SameRegsBut.refl d s
  | timer =>
    dsimp only
    split
    · exact timerCapture_sameRegsBut d _ s
    · exact SameRegsBut.refl d s

theorem deviceWrite_sameRegsBut {d : Ident} {s : State} (a v : Word) (hcb : callbacksStayOn d s) :
    SameRegsBut d s (deviceWrite d a v s) := by
  have hstore := setByAddress_sameRegsBut d a v.toNat s
  unfold deviceWrite
  split
  · exact SameRegsBut.refl d s
  · next x _ =>
    split
    · exact hstore
    · next r _ => exact hstore.trans (sideEffect_sameRegsBut x.body.kind r.name v hcb)

/-- Settles O26: the owner's part alone can change a device (`busWrite_devices`), and it is the owner's write. -/
theorem mmioIsolation : Obligations.MmioIsolation := by
  intro a n v s t
  refine ⟨?_, ?_, ?_⟩
  · rintro ⟨⟩
    exact busRead_devices a n s
  · rintro hr ⟨⟩
    have hdev := busWrite_devices a n v s
    rwa [ownerWrite_of_none _ hr, or_self] at hdev
  · rintro x hx hcb ⟨⟩
    rcases busWrite_devices a n v s with h | h
    · exact sameRegsBut_of_devices x.id h
    · rw [ownerWrite_of_some _ hx] at h
      exact (deviceWrite_sameRegsBut a _ hcb).trans (sameRegsBut_of_devices x.id h)

end Sys2Proof.Machine
end

section
/-! PROOFS. The RegisterFile (42_register_file.md): its construction (O27), the lookups (O28), the stores through either index
(O29), the bit tests and bit ranges (O30, O31), and that every operation but `construct` is total (O32). The idea of O28 and
O29 is `find_key_of_mem`: where no two registers share a key, the lookup by that key finds each register itself. -/

namespace Sys2Proof.Machine

/-! ### Construction (R191) -/

theorem exec_rfConstruct (d : Ident) (regs : List (Ident × Word)) (s : State) :
    exec (.rfConstruct d regs) s = .next (construct d regs s) := rfl

theorem construct_of_built {d : Ident} {s : State} {x : Device} (regs : List (Ident × Word)) (hx : s.device d = some x) :
    construct d regs s = s := by
  simp only [construct, hx]

theorem construct_of_unnamed {d : Ident} {s : State} (regs : List (Ident × Word)) (hd : s.device d = none)
    (hk : s.namedKind d = none) : construct d regs s = s := by
  simp only [construct, hd, hk]

theorem construct_of_named {d : Ident} {s : State} {kind : DevKind} (regs : List (Ident × Word)) (hd : s.device d = none)
    (hk : s.namedKind d = some kind) : construct d regs s = buildDevice d kind regs s := by
  simp only [construct, hd, hk]

theorem buildDevice_of_unique {regs : List (Ident × Word)} (d : Ident) (kind : DevKind) (s : State)
    (h : duplicateIn regs = none) :
    buildDevice d kind regs s =
      { s with devices := s.devices ++ [{ id := d, body := freshBody kind, regs := freshRegs regs }] } := by
  simp only [buildDevice, h]

theorem buildDevice_of_duplicate {regs : List (Ident × Word)} {w : Duplicate} {s : State} (d : Ident) (kind : DevKind)
    (hf : s.fatal = none) (h : duplicateIn regs = some w) :
    buildDevice d kind regs s = { s with fatal := some (.duplicateRegister d w) } := by
  simp only [buildDevice, h, raiseFatal_of_none hf]

/-- Settles O27: a named device is built or rejected as `duplicateIn` says; any other identifier changes nothing. -/
theorem constructBuildsOrRejects : Obligations.ConstructBuildsOrRejects := by
  intro d regs s
  refine ⟨fun kind hd hk => ?_, fun x hx => ?_, fun hd hk => ?_⟩
  · rw [exec_rfConstruct, construct_of_named regs hd hk]
    refine ⟨fun hn ha => ?_, fun hf hn => ?_, fun hf hn ha => ?_⟩
    · rw [buildDevice_of_unique d kind s ((duplicateIn_none regs).2 ⟨hn, ha⟩)]
      cases kind <;> rfl
    · obtain ⟨nm, hdup, hnm⟩ := duplicateIn_name regs hn
      exact ⟨nm, hnm, congrArg _ (buildDevice_of_duplicate d kind hf hdup)⟩
    · obtain ⟨a, hdup, had⟩ := duplicateIn_address regs hn ha
      exact ⟨a, had, congrArg _ (buildDevice_of_duplicate d kind hf hdup)⟩
  · rw [exec_rfConstruct, construct_of_built regs hx]
  · rw [exec_rfConstruct, construct_of_unnamed regs hd hk]

/-! ### The lookups (R192, R193) -/

theorem answerReg_eq (r : Option Reg) (s : State) : answerReg r s = answer (r.elim .absent .reg) s := by
  cases r <;> rfl

theorem exec_rfByName (d nm : Ident) (s : State) :
    exec (.rfByName d nm) s = .next ((s.device d).elim s fun x => answerReg (byName x.regs nm) s) := by
  change execRfByName d nm s = _
  unfold execRfByName
  cases s.device d <;> rfl

theorem exec_rfByAddr (d : Ident) (a : Word) (s : State) :
    exec (.rfByAddr d a) s = .next ((s.device d).elim s fun x => answerReg (byAddress x.regs a) s) := by
  change execRfByAddr d a s = _
  unfold execRfByAddr
  cases s.device d <;> rfl

theorem exec_rfByName_of_device {d : Ident} {s : State} {x : Device} (nm : Ident) (hx : s.device d = some x) :
    exec (.rfByName d nm) s = .next { s with ret := (byName x.regs nm).elim .absent .reg } := by
  rw [exec_rfByName, hx, Option.elim_some, answerReg_eq]
  rfl

theorem exec_rfByAddr_of_device {d : Ident} {s : State} {x : Device} (a : Word) (hx : s.device d = some x) :
    exec (.rfByAddr d a) s = .next { s with ret := (byAddress x.regs a).elim .absent .reg } := by
  rw [exec_rfByAddr, hx, Option.elim_some, answerReg_eq]
  rfl

theorem regsUnique_iff (regs : List Reg) :
    regsUnique regs = true ↔ (regs.map (·.name)).Nodup ∧ (regs.map (·.addr)).Nodup := by
  simp only [regsUnique, Bool.and_eq_true, decide_eq_true_eq]

/-- Where no two elements share a key, the lookup by the key of an element finds that element. -/
theorem find_key_of_mem {α β : Type} [BEq β] [LawfulBEq β] {key : α → β} {l : List α} {x : α} (hn : (l.map key).Nodup)
    (hx : x ∈ l) : l.find? (fun y => key y == key x) = some x := by
  obtain ⟨y, hy⟩ := Option.isSome_iff_exists.1
    (List.find?_isSome (p := fun y => key y == key x) |>.2 ⟨x, hx, beq_self_eq_true _⟩)
  have hkey : key y = key x := by simpa using List.find?_some hy
  rw [hy, List.inj_on_of_nodup_map hn (List.mem_of_find?_eq_some hy) hx hkey]

theorem byName_of_mem {regs : List Reg} {r : Reg} (hu : regsUnique regs = true) (hr : r ∈ regs) :
    byName regs r.name = some r := find_key_of_mem ((regsUnique_iff regs).1 hu).1 hr

theorem byAddress_of_mem {regs : List Reg} {r : Reg} (hu : regsUnique regs = true) (hr : r ∈ regs) :
    byAddress regs r.addr = some r := find_key_of_mem ((regsUnique_iff regs).1 hu).2 hr

theorem byName_eq_none {regs : List Reg} {nm : Ident} (h : ∀ r ∈ regs, r.name ≠ nm) : byName regs nm = none :=
  List.find?_eq_none.2 fun r hr => by simpa using h r hr

theorem byAddress_eq_none {regs : List Reg} {a : Word} (h : ∀ r ∈ regs, r.addr ≠ a) : byAddress regs a = none :=
  List.find?_eq_none.2 fun r hr => by simpa using h r hr

theorem byName_eq_some {regs : List Reg} {nm : Ident} {r : Reg} (h : byName regs nm = some r) :
    r ∈ regs ∧ r.name = nm := ⟨List.mem_of_find?_eq_some h, by simpa using List.find?_some h⟩

theorem byAddress_eq_some {regs : List Reg} {a : Word} {r : Reg} (h : byAddress regs a = some r) :
    r ∈ regs ∧ r.addr = a := ⟨List.mem_of_find?_eq_some h, by simpa using List.find?_some h⟩

/-- Settles O28: unique keys make each register the answer to its own, and no other key has one. -/
theorem lookupsAnswerTheRegister : Obligations.LookupsAnswerTheRegister := by
  intro d s x hx hu
  refine ⟨fun r hr => ⟨?_, ?_⟩, fun nm h => ?_, fun a h => ?_⟩
  · rw [exec_rfByName_of_device _ hx, byName_of_mem hu hr, Option.elim_some]
  · rw [exec_rfByAddr_of_device _ hx, byAddress_of_mem hu hr, Option.elim_some]
  · rw [exec_rfByName_of_device _ hx, byName_eq_none h, Option.elim_none]
  · rw [exec_rfByAddr_of_device _ hx, byAddress_eq_none h, Option.elim_none]

/-! ### The stores (R194, R195, R198) -/

/-- A change of the RegisterFile of `d` alone: what both stores are (`setByAddress_eq`, `setByName_eq`). -/
def State.updateRegs (s : State) (d : Ident) (f : List Reg → List Reg) : State :=
  s.updateDevice d fun x => { x with regs := f x.regs }

theorem setByAddress_eq (d : Ident) (a : Word) (v : Nat) (s : State) :
    setByAddress d a v s = s.updateRegs d fun regs => regsSetByAddr regs a (BitVec.ofNat 32 v) := rfl

theorem setByName_eq (d nm : Ident) (v : Nat) (s : State) :
    setByName d nm v s = s.updateRegs d fun regs => regsSetByName regs nm (BitVec.ofNat 32 v) := rfl

theorem exec_rfSetByAddr (d : Ident) (a : Word) (v : Nat) (s : State) :
    exec (.rfSetByAddr d a v) s = .next (setByAddress d a v s) := rfl

theorem exec_rfSetByName (d nm : Ident) (v : Nat) (s : State) :
    exec (.rfSetByName d nm v) s = .next (setByName d nm v s) := rfl

theorem device_updateRegs_self {s : State} {d : Ident} {x : Device} (f : List Reg → List Reg) (hx : s.device d = some x) :
    (s.updateRegs d f).device d = some { x with regs := f x.regs } := by
  rw [State.updateRegs, device_updateDevice _ _ _ _ (by intro x; rfl), if_pos rfl, hx, Option.map_some]

theorem sameOtherDevices_updateRegs (s : State) (d : Ident) (f : List Reg → List Reg) :
    sameOtherDevices s (s.updateRegs d f) d := by
  intro e he
  rw [State.updateRegs, device_updateDevice _ _ _ _ (by intro x; rfl), if_neg he]

/-- A change that fixes the one RegisterFile it is made to changes no device. -/
theorem device_updateRegs_of_fixed {s : State} {d : Ident} {x : Device} {f : List Reg → List Reg}
    (hx : s.device d = some x) (hf : f x.regs = x.regs) (e : Ident) : (s.updateRegs d f).device e = s.device e := by
  by_cases he : e = d
  · rw [he, device_updateRegs_self f hx, hf, hx]
  · exact sameOtherDevices_updateRegs s d f e he

theorem regsSetByName_of_absent {regs : List Reg} {nm : Ident} (v : Word) (h : byName regs nm = none) :
    regsSetByName regs nm v = regs :=
  map_ite_eq_self fun r hr hrn => absurd hrn (List.find?_eq_none.1 h r hr)

theorem byName_regsSetByAddr_same {regs : List Reg} {r : Reg} (v : Word) (hu : regsUnique regs = true) (hr : r ∈ regs) :
    byName (regsSetByAddr regs r.addr v) r.name = some { r with value := v } := by
  rw [byName_regsSetByAddr, byName_of_mem hu hr, Option.map_some, if_pos (beq_self_eq_true _)]

theorem byName_regsSetByAddr_other {regs : List Reg} {q r : Reg} (v : Word) (hu : regsUnique regs = true) (hr : r ∈ regs)
    (hq : q ∈ regs) (hqr : q ≠ r) : byName (regsSetByAddr regs r.addr v) q.name = some q := by
  have haddr : ¬ (q.addr == r.addr) = true := fun h =>
    hqr (List.inj_on_of_nodup_map ((regsUnique_iff regs).1 hu).2 hq hr (beq_iff_eq.1 h))
  rw [byName_regsSetByAddr, byName_of_mem hu hq, Option.map_some, if_neg haddr]

theorem byAddress_regsSetByName_same {regs : List Reg} {r : Reg} (v : Word) (hu : regsUnique regs = true) (hr : r ∈ regs) :
    byAddress (regsSetByName regs r.name v) r.addr = some { r with value := v } := by
  rw [byAddress_regsSetByName, byAddress_of_mem hu hr, Option.map_some, if_pos (beq_self_eq_true _)]

theorem byAddress_regsSetByName_other {regs : List Reg} {q r : Reg} (v : Word) (hu : regsUnique regs = true) (hr : r ∈ regs)
    (hq : q ∈ regs) (hqr : q ≠ r) : byAddress (regsSetByName regs r.name v) q.addr = some q := by
  have hname : ¬ (q.name == r.name) = true := fun h =>
    hqr (List.inj_on_of_nodup_map ((regsUnique_iff regs).1 hu).1 hq hr (beq_iff_eq.1 h))
  rw [byAddress_regsSetByName, byAddress_of_mem hu hq, Option.map_some, if_neg hname]

/-- Settles O29: after a store the device's RegisterFile is the stored one, and the lookup through the other index reads it. -/
theorem storesVisibleThroughTheOtherLookup : Obligations.StoresVisibleThroughTheOtherLookup := by
  intro d v s x hx hu
  refine ⟨fun r hr => ⟨?_, ?_⟩, fun a h => ?_, fun nm h => ?_⟩
  · have hd := device_updateRegs_self (fun regs => regsSetByAddr regs r.addr (BitVec.ofNat 32 v)) hx
    rw [exec_rfSetByAddr, setByAddress_eq]
    refine ⟨_, rfl, rfl, ?_, fun q hq hqr => ?_, by rw [hd, Option.map_some], sameOtherDevices_updateRegs s d _⟩
    · rw [exec_rfByName_of_device _ hd, byName_regsSetByAddr_same _ hu hr, Option.elim_some]
    · rw [exec_rfByName_of_device _ hd, byName_regsSetByAddr_other _ hu hr hq hqr, Option.elim_some]
  · have hd := device_updateRegs_self (fun regs => regsSetByName regs r.name (BitVec.ofNat 32 v)) hx
    rw [exec_rfSetByName, setByName_eq]
    refine ⟨_, rfl, rfl, ?_, fun q hq hqr => ?_, by rw [hd, Option.map_some], sameOtherDevices_updateRegs s d _⟩
    · rw [exec_rfByAddr_of_device _ hd, byAddress_regsSetByName_same _ hu hr, Option.elim_some]
    · rw [exec_rfByAddr_of_device _ hd, byAddress_regsSetByName_other _ hu hr hq hqr, Option.elim_some]
  · exact ⟨_, exec_rfSetByAddr d a v s, rfl,
      device_updateRegs_of_fixed hx (regsSetByAddr_of_absent _ (byAddress_eq_none h))⟩
  · exact ⟨_, exec_rfSetByName d nm v s, rfl,
      device_updateRegs_of_fixed hx (regsSetByName_of_absent _ (byName_eq_none h))⟩

/-! ### Bit tests and bit ranges (R196, R197) -/

theorem exec_rfBit (d nm : Ident) (n : Nat) (s : State) :
    exec (.rfBit d nm n) s = .next ((s.register d nm).elim s fun r => answer (.bool (regBit r.value n)) s) := by
  change execRfBit d nm n s = _
  unfold execRfBit
  cases s.register d nm <;> rfl

theorem exec_rfBitRange (d nm : Ident) (first last : Nat) (s : State) :
    exec (.rfBitRange d nm first last) s =
      .next ((s.register d nm).elim s fun r => answer (.word (regBitRange r.value first last)) s) := by
  change execRfBitRange d nm first last s = _
  unfold execRfBitRange
  cases s.register d nm <;> rfl

theorem exec_rfBitRange_of_register {d nm : Ident} {s : State} {r : Reg} (first last : Nat) (hr : s.register d nm = some r) :
    exec (.rfBitRange d nm first last) s = .next { s with ret := .word (regBitRange r.value first last) } := by
  rw [exec_rfBitRange, hr]
  rfl

/-- Settles O30: the answer is `regBit` of the register's value. -/
theorem bitTestReadsOneBit : Obligations.BitTestReadsOneBit := by
  intro d nm n s r hr
  rw [exec_rfBit, hr]
  rfl

/-- Settles O31: `getLsbD_regBitRange` says the answer bit by bit. -/
theorem bitRangeExtractsInclusive : Obligations.BitRangeExtractsInclusive := fun _ _ first last _ r hr =>
  ⟨_, exec_rfBitRange_of_register first last hr, getLsbD_regBitRange r.value first last⟩

/-! ### Totality (R199) -/

/-- `t` is `s` but for the devices and the value handed back. -/
def SameButDevicesAndRet (s t : State) : Prop := t = { s with devices := t.devices, ret := t.ret }

theorem SameButDevicesAndRet.refl (s : State) : SameButDevicesAndRet s s := rfl

theorem answer_sameButDevicesAndRet (v : Value) (s : State) : SameButDevicesAndRet s (answer v s) := rfl

theorem updateDevice_sameButDevicesAndRet (s : State) (d : Ident) (f : Device → Device) :
    SameButDevicesAndRet s (s.updateDevice d f) := rfl

/-- An operation that answers where it finds what it looks for, and else changes nothing. -/
theorem elim_answer_sameButDevicesAndRet {α : Type} (o : Option α) (v : α → Value) (s : State) :
    SameButDevicesAndRet s (o.elim s fun x => answer (v x) s) := by
  cases o with
  | none => exact SameButDevicesAndRet.refl s
  | some x => exact answer_sameButDevicesAndRet (v x) s

/-- Every RegisterFile operation but `construct` answers, and changes devices and the value handed back alone. -/
theorem rfOperation_answers (d nm : Ident) (a : Word) (v n m : Nat) (s : State) {i : Instr}
    (hi : i ∈ [Instr.rfByName d nm, .rfByAddr d a, .rfSetByAddr d a v, .rfSetByName d nm v, .rfBit d nm n,
      .rfBitRange d nm n m]) : ∃ t, exec i s = .next t ∧ SameButDevicesAndRet s t := by
  simp only [List.mem_cons, List.not_mem_nil, or_false] at hi
  obtain rfl | rfl | rfl | rfl | rfl | rfl := hi
  · refine ⟨_, exec_rfByName d nm s, ?_⟩
    simp only [answerReg_eq]
    exact elim_answer_sameButDevicesAndRet _ _ s
  · refine ⟨_, exec_rfByAddr d a s, ?_⟩
    simp only [answerReg_eq]
    exact elim_answer_sameButDevicesAndRet _ _ s
  · exact ⟨_, exec_rfSetByAddr d a v s, updateDevice_sameButDevicesAndRet s d _⟩
  · exact ⟨_, exec_rfSetByName d nm v s, updateDevice_sameButDevicesAndRet s d _⟩
  · exact ⟨_, exec_rfBit d nm n s, elim_answer_sameButDevicesAndRet _ _ s⟩
  · exact ⟨_, exec_rfBitRange d nm n m s, elim_answer_sameButDevicesAndRet _ _ s⟩

theorem exec_rfByName_absent_or_found {d : Ident} {s : State} {x : Device} (nm : Ident) (hx : s.device d = some x) :
    exec (.rfByName d nm) s = .next { s with ret := .absent } ∨
      ∃ r ∈ x.regs, r.name = nm ∧ exec (.rfByName d nm) s = .next { s with ret := .reg r } := by
  rw [exec_rfByName_of_device nm hx]
  cases h : byName x.regs nm with
  | none => exact .inl rfl
  | some r =>
    obtain ⟨hr, hnm⟩ := byName_eq_some h
    exact .inr ⟨r, hr, hnm, rfl⟩

theorem exec_rfByAddr_absent_or_found {d : Ident} {s : State} {x : Device} (a : Word) (hx : s.device d = some x) :
    exec (.rfByAddr d a) s = .next { s with ret := .absent } ∨
      ∃ r ∈ x.regs, r.addr = a ∧ exec (.rfByAddr d a) s = .next { s with ret := .reg r } := by
  rw [exec_rfByAddr_of_device a hx]
  cases h : byAddress x.regs a with
  | none => exact .inl rfl
  | some r =>
    obtain ⟨hr, ha⟩ := byAddress_eq_some h
    exact .inr ⟨r, hr, ha, rfl⟩

/-- Settles O32 from `rfOperation_answers`, the lookups and the answers of O30 and O31. -/
theorem registerFileOperationsAreTotal : Obligations.RegisterFileOperationsAreTotal := by
  intro d nm a v n m s
  refine ⟨fun i hi => ?_, fun x hx => ⟨exec_rfByName_absent_or_found nm hx, exec_rfByAddr_absent_or_found a hx⟩,
    fun r hr => ⟨⟨_, bitTestReadsOneBit d nm n s r hr⟩, _, exec_rfBitRange_of_register n m hr⟩⟩
  obtain ⟨t, ht, hsame⟩ := rfOperation_answers d nm a v n m s hi
  refine ⟨t, ht, ?_⟩
  rw [hsame]
  exact ⟨rfl, rfl, rfl, rfl, rfl, rfl, rfl, rfl⟩

end Sys2Proof.Machine
end

section
/-! PROOFS. The devices (43_devices.md): what they answer (O33), what a write to each of their registers does (O34, O35, O37 to
O39, O46), the calls of a Radio callback (O40), and the operations on the Radio (O41 to O43) and on the Timer (O44, O45). Two
ideas carry them: an operation that updates a device replaces it and changes nothing else (`ReplacesDevice`), and
`injectPacket` is the raw write at PACKETPTR, so that both follow one law (`rawWrite_stores`). -/

namespace Sys2Proof.Machine

/-! ### One device replaced -/

/-- `t` is `s` with `y` as the device `d`: every other device and everything else is as in `s`. -/
def ReplacesDevice (d : Ident) (y : Device) (s t : State) : Prop :=
  t = { s with devices := t.devices } ∧ sameOtherDevices s t d ∧ t.device d = some y

theorem replacesDevice_updateDevice {s : State} {d : Ident} {x : Device} (f : Device → Device) (hf : ∀ x, (f x).id = x.id)
    (hx : s.device d = some x) : ReplacesDevice d (f x) s (s.updateDevice d f) := by
  refine ⟨rfl, fun e he => ?_, ?_⟩
  · rw [device_updateDevice s d e f hf, if_neg he]
  · rw [device_updateDevice s d d f hf, if_pos rfl, hx, Option.map_some]

theorem ReplacesDevice.trans {d : Ident} {y z : Device} {s t u : State} (h : ReplacesDevice d y s t)
    (k : ReplacesDevice d z t u) : ReplacesDevice d z s u := by
  obtain ⟨hst, hother, -⟩ := h
  obtain ⟨htu, kother, hz⟩ := k
  refine ⟨?_, fun e he => (kother e he).trans (hother e he), hz⟩
  rw [htu, hst]

theorem ReplacesDevice.device_eq {d : Ident} {y : Device} {s t : State} (h : ReplacesDevice d y s t) :
    t.device d = some y := by
  obtain ⟨-, -, hy⟩ := h
  exact hy

theorem replacesDevice_updateBody {s : State} {d : Ident} {x : Device} (f : DevBody → DevBody) (hx : s.device d = some x) :
    ReplacesDevice d { x with body := f x.body } s (s.updateDevice d fun x => { x with body := f x.body }) :=
  replacesDevice_updateDevice _ (fun _ => rfl) hx

theorem replacesDevice_setByName {s : State} {d : Ident} {x : Device} (nm : Ident) (v : Nat) (hx : s.device d = some x) :
    ReplacesDevice d { x with regs := regsSetByName x.regs nm (BitVec.ofNat 32 v) } s (setByName d nm v s) :=
  replacesDevice_updateDevice _ (fun _ => rfl) hx

theorem byName_regsSetByName_same {regs : List Reg} {nm : Ident} {r : Reg} (v : Word) (h : byName regs nm = some r) :
    byName (regsSetByName regs nm v) nm = some { r with value := v } := by
  rw [byName_regsSetByName, h, Option.map_some, if_pos (by simpa using (byName_eq_some h).2)]

theorem byName_regsSetByName_other (regs : List Reg) {nm other : Ident} (v : Word) (h : other ≠ nm) :
    byName (regsSetByName regs nm v) other = byName regs other := by
  rw [byName_regsSetByName]
  cases hr : byName regs other with
  | none => rfl
  | some r => rw [Option.map_some, if_neg (by simpa [(byName_eq_some hr).2] using h)]

theorem isKind_of_body {s : State} {d : Ident} {x : Device} {k : DevKind} (hx : s.device d = some x) (hk : x.body.kind = k) :
    s.isKind d k = true := by
  rw [isKind_of_device hx, hk, decide_eq_true_eq]

/-! ### Identify and read (R211, R212) -/

theorem exec_devIdentify_of_device {s : State} {d : Ident} {x : Device} (hx : s.device d = some x) :
    exec (.devIdentify d) s = .next (answer (.device d) s) := by
  simp only [exec, execDevIdentify, hx, device_id hx]

theorem exec_devRead_of_device {s : State} {d : Ident} {x : Device} (a : Word) (hx : s.device d = some x) :
    exec (.devRead d a) s = .next (answer ((byAddress x.regs a).elim .absent fun r => .word r.value) s) := by
  simp only [exec, execDevRead, hx, deviceRead_eq]
  cases byAddress x.regs a <;> rfl

/-- Settles O33. -/
theorem identifyAndReadAnswer : Obligations.IdentifyAndReadAnswer := by
  intro d a s x hx
  rw [exec_devRead_of_device a hx]
  refine ⟨exec_devIdentify_of_device hx, fun r hr => ?_, fun hr => ?_⟩ <;> rw [hr] <;> rfl

/-! ### The Clock (R214) -/

theorem clockHfclkstart_of_clock {s : State} {d : Ident} (h : s.isKind d .clock = true) :
    clockHfclkstart d s = setByName d nmEventsHfclkstarted 1 s := if_pos h

theorem exec_clockHfclkstart (d : Ident) (v : Word) (s : State) :
    exec (.clockHfclkstart d v) s = .next (clockHfclkstart d s) := rfl

/-- Settles O35: HFCLKSTART is one store by name. -/
theorem hfclkstartSetsTheEvent : Obligations.HfclkstartSetsTheEvent := by
  intro d v s x r hx hb hr
  have hk : s.isKind d .clock = true := isKind_of_body hx (by rw [hb]; rfl)
  obtain ⟨hframe, hother, hdev⟩ := replacesDevice_setByName nmEventsHfclkstarted 1 hx
  refine ⟨_, _, ?_, hframe, hother, hdev, rfl, byName_regsSetByName_same 1 hr,
    fun nm hnm => byName_regsSetByName_other x.regs 1 hnm⟩
  rw [exec_clockHfclkstart, clockHfclkstart_of_clock hk]

/-! ### The Timer (R225 to R228) -/

theorem exec_timerStart (d : Ident) (s : State) : exec (.timerStart d) s = .next (timerStart d s) := rfl

theorem exec_timerStop (d : Ident) (j : Bool) (s : State) : exec (.timerStop d j) s = .next (timerStop d j s) := rfl

theorem exec_timerTick (d : Ident) (s : State) : exec (.timerTick d) s = .next (timerTick d s) := rfl

theorem exec_timerCapture (d : Ident) (k : Nat) (s : State) : exec (.timerCapture d k) s = .next (timerCapture d k s) := rfl

theorem timerRunning_of_body {s : State} {d : Ident} {x : Device} {c : Nat} {run : Bool} (hx : s.device d = some x)
    (hb : x.body = .timer c run) : s.timerRunning d = run := by
  simp only [State.timerRunning, hx, hb, DevBody.isRunning]

theorem timerStart_of_timer {s : State} {d : Ident} (h : s.isKind d .timer = true) :
    timerStart d s = s.updateDevice d fun x => { x with body := x.body.setRunning true } := if_pos h

theorem timerStop_joins {s : State} {d : Ident} (h : s.timerRunning d = true) :
    timerStop d true s = s.updateDevice d fun x => { x with body := x.body.setRunning false } := if_pos h

theorem timerStop_fails {s : State} {d : Ident} (h : s.timerRunning d = true) :
    timerStop d false s = raiseFatal (.tickJoinFailure d) s := if_pos h

theorem timerTick_of_running {s : State} {d : Ident} (h : s.timerRunning d = true) :
    timerTick d s = s.updateDevice d fun x => { x with body := x.body.tick } := if_pos h

/-- Settles O44: whether the timer runs selects the case of `stop`, then the draw does. -/
theorem timerStartAndStop : Obligations.TimerStartAndStop := by
  intro d c run s x hx hb
  have hrunning := timerRunning_of_body hx hb
  have hset : ∀ b, ReplacesDevice d { x with body := .timer c b } s
      (s.updateDevice d fun x => { x with body := x.body.setRunning b }) := fun b => by
    simpa only [hb, DevBody.setRunning] using replacesDevice_updateBody (DevBody.setRunning b) hx
  refine ⟨⟨_, ?_, hset true⟩, ?_, ?_, ?_⟩
  · rw [exec_timerStart, timerStart_of_timer (isKind_of_body hx (by rw [hb]; rfl))]
  · rintro rfl
    exact ⟨_, by rw [exec_timerStop, timerStop_joins hrunning], hset false⟩
  · rintro rfl hf
    rw [exec_timerStop, timerStop_fails hrunning, raiseFatal_of_none hf]
  · rintro rfl joins
    rw [exec_timerStop, timerStop_of_not_running joins hrunning]

/-- Settles O45. -/
theorem tickIncrementsRunningCounter : Obligations.TickIncrementsRunningCounter := by
  intro d c s x hx
  refine ⟨fun hb => ?_, fun hb => ?_⟩
  · have htick := replacesDevice_updateBody DevBody.tick hx
    rw [hb] at htick
    exact ⟨_, by rw [exec_timerTick, timerTick_of_running (timerRunning_of_body hx hb)], htick⟩
  · rw [exec_timerTick, timerTick_of_not_running (timerRunning_of_body hx hb)]

/-- A capture is one store by name, whether the timer runs or not. -/
theorem timerCapture_of_timer {s : State} {d : Ident} {x : Device} {k c : Nat} {run : Bool} (hk : k < 6)
    (hx : s.device d = some x) (hb : x.body = .timer c run) :
    timerCapture d k s = setByName d (nmCc k) (captureValue c).toNat s := by
  have hslot : k < Config.numCc := hk
  simp only [timerCapture, if_pos hslot, hx, hb]

theorem captureValue_toNat (c : Nat) : (captureValue c).toNat = c * 1000000 % 2 ^ 32 := BitVec.toNat_ofNat ..

/-- Settles O46: the value stored is `captureValue` of the counter. -/
theorem captureStoresScaledCounter : Obligations.CaptureStoresScaledCounter := by
  intro d k c run s x r hk hx hb hr
  obtain ⟨hframe, hother, hdev⟩ := replacesDevice_setByName (nmCc k) (captureValue c).toNat hx
  refine ⟨_, _, _, ?_, hframe, hother, hdev, rfl, byName_regsSetByName_same _ hr, ?_,
    fun nm hnm => byName_regsSetByName_other x.regs _ hnm⟩
  · rw [exec_timerCapture, timerCapture_of_timer hk hx hb]
  · rw [BitVec.ofNat_toNat, BitVec.setWidth_eq, captureValue_toNat]

/-! ### The Radio's own fields (R222, R223) -/

theorem exec_radioSetState (d : Ident) (st : RadioState) (s : State) :
    exec (.radioSetState d st) s = .next (setRadioState d st s) := rfl

theorem exec_radioRegCb (d : Ident) (kind : CbKind) (f : Nat) (s : State) :
    exec (.radioRegCb d kind f) s = .next (registerCb d kind f s) := rfl

theorem registerCb_of_radio {s : State} {d : Ident} (kind : CbKind) (f : Nat) (h : s.isKind d .radio = true) :
    registerCb d kind f s = s.updateDevice d fun x => { x with body := x.body.setCb kind f } := if_pos h

/-- setState is a change of the logical state, then a store by name. -/
theorem setRadioState_of_radio {s : State} {d : Ident} (st : RadioState) (h : s.isKind d .radio = true) :
    setRadioState d st s =
      setByName d nmState (radioStateCode st) (s.updateDevice d fun x => { x with body := x.body.setRstate st }) := if_pos h

/-- The codes of R109. -/
theorem radioStateCode_mem (st : RadioState) : (st, (BitVec.ofNat 32 (radioStateCode st)).toNat) ∈
    [(RadioState.disabled, 0), (.rxRampUp, 1), (.rxIdle, 2), (.rx, 3), (.rxDisabled, 4), (.txRampUp, 9), (.txIdle, 10),
      (.tx, 11), (.txDisabled, 12)] := by
  cases st <;> decide

/-- Settles O42: the device is replaced twice, first its logical state and then its STATE register. -/
theorem setStateMirrorsCode : Obligations.SetStateMirrorsCode := by
  intro d st st0 tx rx s x r hx hb hr
  have hbody := replacesDevice_updateBody (DevBody.setRstate st) hx
  have hcode := replacesDevice_setByName nmState (radioStateCode st) hbody.device_eq
  obtain ⟨hframe, hother, hdev⟩ := hbody.trans hcode
  refine ⟨_, _, _, ?_, hframe, hother, hdev, ?_, byName_regsSetByName_same _ hr, radioStateCode_mem st,
    fun nm hnm => byName_regsSetByName_other x.regs _ hnm⟩
  · rw [exec_radioSetState, setRadioState_of_radio st (isKind_of_body hx (by rw [hb]; rfl))]
  · rw [hb]
    rfl

/-- Settles O43. -/
theorem registrationReplacesOneCallback : Obligations.RegistrationReplacesOneCallback := by
  intro d f st tx rx s x hx hb
  have hk : s.isKind d .radio = true := isKind_of_body hx (by rw [hb]; rfl)
  have hreg : ∀ kind, ∃ t, exec (.radioRegCb d kind f) s = .next t ∧
      ReplacesDevice d { x with body := (DevBody.radio st tx rx).setCb kind f } s t := fun kind =>
    ⟨_, by rw [exec_radioRegCb, registerCb_of_radio kind f hk], hb ▸ replacesDevice_updateBody (DevBody.setCb kind f) hx⟩
  exact ⟨hreg .tx, hreg .rx⟩

/-! ### Raw accesses (R13, R62, log 24) -/

theorem rawWrite_of_mapped {a : Word} {bytes : List Byte} {s : State} (h : mappedFrom s.params.mapped a bytes.length) :
    rawWrite a bytes s = { s with mem := s.mem.writeBytes a bytes } := by
  simp only [rawWrite, (firstUnmapped_none _ _ a).2 h]

theorem rawWrite_of_unmapped {a : Word} {bytes : List Byte} {s : State} {i : Nat} (hf : s.fatal = none)
    (h : firstUnmappedAt s.params.mapped a bytes.length i) :
    rawWrite a bytes s = { s with fatal := some (.substrateAccessFault (a + BitVec.ofNat 32 i)) } := by
  simp only [rawWrite, firstUnmapped_of_firstUnmappedAt h, raiseFatal_of_none hf]

theorem rawRead_of_mapped {a : Word} {n : Nat} {s : State} (h : mappedFrom s.params.mapped a n) :
    rawRead a n s = answer (.bytes (s.mem.readBytes a n)) s := by
  simp only [rawRead, (firstUnmapped_none _ _ a).2 h]

theorem rawRead_of_unmapped {a : Word} {n : Nat} {s : State} {i : Nat} (hf : s.fatal = none)
    (h : firstUnmappedAt s.params.mapped a n i) :
    rawRead a n s = { s with fatal := some (.substrateAccessFault (a + BitVec.ofNat 32 i)) } := by
  simp only [rawRead, firstUnmapped_of_firstUnmappedAt h, raiseFatal_of_none hf]

theorem readState_mem_of_mapped {a : Word} {n : Nat} {s : State} (h : mappedFrom s.params.mapped a n) :
    readState (.mem a n) s = answer (.bytes (s.mem.readBytes a n)) s := by
  simp only [readState, (firstUnmapped_none _ _ a).2 h]

theorem readState_devReg_of_register {d nm : Ident} {r : Reg} {s : State} (h : s.register d nm = some r) :
    readState (.devReg d nm) s = answer (.reg r) s := by
  simp only [readState, h, answerReg]

theorem getElem?_readBytes (m : Memory) (a : Word) {n i : Nat} (h : i < n) :
    (m.readBytes a n)[i]? = some (m.read (a + BitVec.ofNat 32 i).toNat) := by
  rw [List.getElem?_eq_getElem (by rwa [Memory.readBytes_length]), Memory.getElem_readBytes]

theorem getElem?_of_writeBytes (m : Memory) (a : Word) {bytes : List Byte} (hlen : bytes.length ≤ 2 ^ 32) {i : Nat}
    (h : i < bytes.length) : bytes[i]? = some ((m.writeBytes a bytes).read (a + BitVec.ofNat 32 i).toNat) := by
  rw [Memory.read_writeBytes_at bytes m a i h hlen, List.getElem?_eq_getElem h]

/-- A mapped raw write changes memory alone, and there the bytes written alone (R62). -/
theorem rawWrite_stores {a : Word} {bytes : List Byte} {s : State} (hlen : bytes.length ≤ 2 ^ 32)
    (h : mappedFrom s.params.mapped a bytes.length) :
    rawWrite a bytes s = { s with mem := (rawWrite a bytes s).mem } ∧
      (∀ i, i < bytes.length → bytes[i]? = some ((rawWrite a bytes s).mem.read (a + BitVec.ofNat 32 i).toNat)) ∧
      sameOutside s.mem (rawWrite a bytes s).mem a bytes.length := by
  rw [rawWrite_of_mapped h]
  exact ⟨rfl, fun i hi => getElem?_of_writeBytes s.mem a hlen hi, Memory.read_writeBytes_outside bytes s.mem a⟩

/-! ### Packets into memory (R221) -/

theorem exec_radioInject (d : Ident) (bytes : List Byte) (s : State) :
    exec (.radioInject d bytes) s = .next (injectPacket d bytes s) := rfl

theorem packetPtr_of_register {regs : List Reg} {r : Reg} (h : byName regs nmPacketptr = some r) :
    packetPtr regs = r.value := by
  simp only [packetPtr, h]

theorem injectPacket_of_null {s : State} {d : Ident} {x : Device} (bytes : List Byte) (hx : s.device d = some x)
    (hk : x.body.kind = .radio) (hp : packetPtr x.regs = 0) :
    injectPacket d bytes s = emit (.nullPacketPtr .injectPacket) s := by
  simp only [injectPacket, hx, if_pos hk, if_pos hp]

theorem injectPacket_of_radio {s : State} {d : Ident} {x : Device} (bytes : List Byte) (hx : s.device d = some x)
    (hk : x.body.kind = .radio) (hp : packetPtr x.regs ≠ 0) :
    injectPacket d bytes s = rawWrite (packetPtr x.regs) bytes s := by
  simp only [injectPacket, hx, if_pos hk, if_neg hp]
  rfl

/-- Settles O41: at a PACKETPTR that is not null, `injectPacket` is a raw write. -/
theorem injectWritesPacket : Obligations.InjectWritesPacket := by
  intro d bytes s x r hx hk hr
  have hptr := packetPtr_of_register hr
  have hraw : r.value ≠ 0 → exec (.radioInject d bytes) s = .next (rawWrite r.value bytes s) := fun h0 => by
    rw [exec_radioInject, injectPacket_of_radio bytes hx hk (hptr.trans_ne h0), hptr]
  refine ⟨fun h0 => ?_, fun h0 hf i hi => ?_, fun h0 hlen hm => ⟨_, hraw h0, rawWrite_stores hlen hm⟩⟩
  · exact congrArg _ (injectPacket_of_null bytes hx hk (hptr.trans h0))
  · rw [hraw h0, rawWrite_of_unmapped hf hi]

/-! ### Packets out of memory (R219) -/

theorem exec_radioTxen (d : Ident) (v : Word) (s : State) : exec (.radioTxen d v) s = .next (radioTxen d s) := rfl

/-- The packet at `p`: the length byte and that many further bytes (R219). -/
def packetAt (m : Memory) (p : Word) : List Byte := m.readBytes p ((m.read p.toNat).toNat + 1)

theorem packetAt_length (m : Memory) (p : Word) : (packetAt m p).length = (m.read p.toNat).toNat + 1 :=
  Memory.readBytes_length ..

theorem getElem?_packetAt (m : Memory) (p : Word) {i : Nat} (h : i < (packetAt m p).length) :
    (packetAt m p)[i]? = some (m.read (p + BitVec.ofNat 32 i).toNat) :=
  getElem?_readBytes m p (by rwa [packetAt_length] at h)

section Txen

variable {s : State} {d : Ident} {x : Device} {st : RadioState} {tx rx : Option Nat}

theorem radioTxen_of_null (hx : s.device d = some x) (hb : x.body = .radio st tx rx) (hp : packetPtr x.regs = 0) :
    radioTxen d s = emit (.nullPacketPtr .tasksTxen) s := by
  simp only [radioTxen, hx, hb, if_pos hp]

theorem radioTxen_of_unmapped_length (hx : s.device d = some x) (hb : x.body = .radio st tx rx) (hp : packetPtr x.regs ≠ 0)
    (hm : isMapped s.params.mapped (packetPtr x.regs) = false) :
    radioTxen d s = raiseFatal (.substrateAccessFault (packetPtr x.regs)) s := by
  simp only [radioTxen, hx, hb, if_neg hp, hm, Bool.not_false, if_true]

theorem radioTxen_of_unmapped_byte {i : Nat} (hx : s.device d = some x) (hb : x.body = .radio st tx rx)
    (hp : packetPtr x.regs ≠ 0) (hm : isMapped s.params.mapped (packetPtr x.regs) = true)
    (hi : firstUnmappedAt s.params.mapped (packetPtr x.regs + 1) (s.mem.read (packetPtr x.regs).toNat).toNat i) :
    radioTxen d s = raiseFatal (.substrateAccessFault (packetPtr x.regs + 1 + BitVec.ofNat 32 i)) s := by
  simp only [radioTxen, hx, hb, if_neg hp, hm, Bool.not_true, Bool.false_eq_true, if_false,
    firstUnmapped_of_firstUnmappedAt hi]

/-- A mapped packet goes to the transmit callback, where there is one. -/
theorem radioTxen_of_mapped (hx : s.device d = some x) (hb : x.body = .radio st tx rx) (hp : packetPtr x.regs ≠ 0)
    (hm : mappedFrom s.params.mapped (packetPtr x.regs) ((s.mem.read (packetPtr x.regs).toNat).toNat + 1)) :
    radioTxen d s = tx.elim s fun f => invokeCallback f (emit (.radioTx (packetAt s.mem (packetPtr x.regs))) s) := by
  have hlength : isMapped s.params.mapped (packetPtr x.regs) = true := by simpa using hm 0 (Nat.succ_pos _)
  have hrest : firstUnmapped s.params.mapped (packetPtr x.regs + 1) (s.mem.read (packetPtr x.regs).toNat).toNat = none :=
    (firstUnmapped_none _ _ _).2 (mappedFrom_part hm 1 _ (by omega))
  simp only [radioTxen, hx, hb, if_neg hp, hlength, Bool.not_true, Bool.false_eq_true, if_false, hrest]
  cases tx <;> rfl

end Txen

/-- Settles O37: the checks of TXEN in their order. -/
theorem txenWithoutTransmission : Obligations.TxenWithoutTransmission := by
  intro d v s x st tx rx r hx hb hr
  rw [exec_radioTxen, ← packetPtr_of_register hr]
  refine ⟨fun h0 => ?_, fun h0 hf hm => ?_, fun h0 hf hm i hi => ?_, fun h0 htx hm => ?_⟩
  · rw [radioTxen_of_null hx hb h0]
    rfl
  · rw [radioTxen_of_unmapped_length hx hb h0 hm, raiseFatal_of_none hf]
  · rw [radioTxen_of_unmapped_byte hx hb h0 hm hi, raiseFatal_of_none hf]
  · rw [radioTxen_of_mapped hx hb h0 hm, htx, Option.elim_none]

/-! ### Callbacks (R219, R220, R231) -/

/-- Settles O38: the packet is logged, and the handle's invocation is its session code's (log 18). -/
theorem txenPassesPacketToCallback : Obligations.TxenPassesPacketToCallback := by
  intro d v s x st f rx r hx hb hr h0 hm
  rw [← packetPtr_of_register hr] at h0 hm ⊢
  rw [exec_radioTxen, radioTxen_of_mapped hx hb h0 hm, Option.elim_some]
  refine ⟨_, packetAt_length s.mem _, fun i => getElem?_packetAt s.mem _, fun h => ?_, fun pre post hc hp => ?_,
    fun pre run runs post hc hp => ?_⟩
  · exact congrArg _ (invokeCallback_none (s := emit _ s) h)
  · exact congrArg _ (invokeCallback_usedUp (s := emit _ s) hc hp)
  · exact congrArg _ (invokeCallback_run (s := emit _ s) hc hp)

theorem exec_radioRxen (d : Ident) (v : Word) (s : State) : exec (.radioRxen d v) s = .next (radioRxen d s) := rfl

theorem radioRxen_of_radio {s : State} {d : Ident} {x : Device} {st : RadioState} {tx rx : Option Nat}
    (hx : s.device d = some x) (hb : x.body = .radio st tx rx) :
    radioRxen d s = rx.elim s fun f => invokeCallback f (emit .radioRx s) := by
  simp only [radioRxen, hx, hb]
  cases rx <;> rfl

/-- Settles O39: as O38, with no packet. -/
theorem rxenInvokesReceiveCallback : Obligations.RxenInvokesReceiveCallback := by
  intro d v s x st tx rx hx hb
  rw [exec_radioRxen, radioRxen_of_radio hx hb]
  refine ⟨?_, ?_, ?_, ?_⟩
  · rintro rfl
    rfl
  · rintro f rfl h
    exact congrArg _ (invokeCallback_none (s := emit .radioRx s) h)
  · rintro f pre post rfl hc hp
    exact congrArg _ (invokeCallback_usedUp (s := emit .radioRx s) hc hp)
  · rintro f pre run runs post rfl hc hp
    exact congrArg _ (invokeCallback_run (s := emit .radioRx s) hc hp)

theorem runCalls_cons {s : State} (c : SessionCall) (cs : List SessionCall) (hf : s.fatal = none) (ht : s.thread ≠ .hung) :
    runCalls (c :: cs) s = runCalls cs (runCall c s) := by
  have h : ¬ s.stopped = true := by
    rw [stopped_iff, not_or, not_not]
    exact ⟨hf, ht⟩
  exact if_neg h

theorem runCalls_of_stopped {s : State} (cs : List SessionCall) (h : s.fatal ≠ none ∨ s.thread = .hung) :
    runCalls cs s = s := by
  cases cs with
  | nil => rfl
  | cons c cs => exact if_pos ((stopped_iff s).2 h)

/-- Settles O40: a call that is an operation runs the function its operation runs, and the raw accesses have their laws. -/
theorem callbackCallsFollowTheirRules : Obligations.CallbackCallsFollowTheirRules := by
  intro s
  refine ⟨rfl, runCalls_cons, runCalls_of_stopped, fun _ => rfl, fun _ _ _ => rfl, fun _ _ => rfl, fun _ _ => rfl,
    fun _ => rfl, fun _ _ => rfl, fun _ => rfl, fun _ _ _ => rfl, fun _ _ _ => rfl, rfl, fun a bytes => ?_, fun a n => ?_,
    fun _ => rfl, fun _ => rfl, fun _ _ _ => readState_devReg_of_register, rfl⟩
  · exact ⟨rfl, fun hlen hm => ⟨_, rfl, rawWrite_stores hlen hm⟩, fun hf i => rawWrite_of_unmapped hf⟩
  · exact ⟨rfl, fun hm => ⟨_, Memory.readBytes_length .., fun i => getElem?_readBytes s.mem a, rawRead_of_mapped hm,
      readState_mem_of_mapped hm⟩, fun hf i => rawRead_of_unmapped hf⟩

/-! ### A device's write (R213) -/

theorem deviceWrite_of_register {s : State} {d : Ident} {x : Device} {a : Word} {r : Reg} (v : Word)
    (hx : s.device d = some x) (hr : byAddress x.regs a = some r) :
    deviceWrite d a v s = sideEffect x.body.kind d r.name v (setByAddress d a v.toNat s) := by
  simp only [deviceWrite, hx, hr]

/-- The six names of R111 are six names. -/
theorem captureSlot_nmTasksCapture : ∀ k, k < 6 → captureSlot (nmTasksCapture k) = some k := by decide

theorem captureSlot_eq_none {nm : Ident} (h : ∀ k, k < 6 → nm ≠ nmTasksCapture k) : captureSlot nm = none :=
  List.find?_eq_none.2 fun k hk => by simpa using h k (List.mem_range.1 hk)

theorem exec_gpioOutset (d : Ident) (v : Word) (s : State) : exec (.gpioOutset d v) s = .next (gpioPins .set d v s) := rfl

theorem exec_gpioOutclr (d : Ident) (v : Word) (s : State) : exec (.gpioOutclr d v) s = .next (gpioPins .clear d v s) := rfl

section SideEffect

variable (d : Ident) (v : Word) (s : State)

theorem sideEffect_hfclkstart : sideEffect .clock d nmTasksHfclkstart v s = clockHfclkstart d s := by
  rw [sideEffect, if_pos rfl]

theorem sideEffect_outset : sideEffect .gpio d nmOutset v s = gpioPins .set d v s := by
  rw [sideEffect, if_pos rfl]

theorem sideEffect_outclr : sideEffect .gpio d nmOutclr v s = gpioPins .clear d v s := by
  have hname : nmOutclr ≠ nmOutset := by decide
  rw [sideEffect, if_neg hname, if_pos rfl]

theorem sideEffect_txen : sideEffect .radio d nmTasksTxen v s = radioTxen d s := by
  rw [sideEffect, if_pos rfl]

theorem sideEffect_rxen : sideEffect .radio d nmTasksRxen v s = radioRxen d s := by
  have hname : nmTasksRxen ≠ nmTasksTxen := by decide
  rw [sideEffect, if_neg hname, if_pos rfl]

theorem sideEffect_capture {k : Nat} (hk : k < 6) : sideEffect .timer d (nmTasksCapture k) v s = timerCapture d k s := by
  simp only [sideEffect, captureSlot_nmTasksCapture k hk]

/-- Every other register is pure storage (R217, R218, R224, R229). -/
theorem sideEffect_of_storage {kind : DevKind} {nm : Ident} (hclock : kind = .clock → nm ≠ nmTasksHfclkstart)
    (hgpio : kind = .gpio → nm ≠ nmOutset ∧ nm ≠ nmOutclr) (hradio : kind = .radio → nm ≠ nmTasksTxen ∧ nm ≠ nmTasksRxen)
    (htimer : kind = .timer → ∀ k, k < 6 → nm ≠ nmTasksCapture k) : sideEffect kind d nm v s = s := by
  cases kind with
  | clock => exact if_neg (hclock rfl)
  | gpio =>
    obtain ⟨hset, hclr⟩ := hgpio rfl
    rw [sideEffect, if_neg hset, if_neg hclr]
  | rtc => rfl
  | radio =>
    obtain ⟨htx, hrx⟩ := hradio rfl
    rw [sideEffect, if_neg htx, if_neg hrx]
  | timer => simp only [sideEffect, captureSlot_eq_none (htimer rfl)]

end SideEffect

/-- Settles O34: after the store, the side effect of each name is what the name's operation does. -/
theorem deviceWriteStoresThenRunsSideEffect : Obligations.DeviceWriteStoresThenRunsSideEffect := by
  intro d a v s x hx hn
  rw [exec_devWrite]
  refine ⟨fun hr => congrArg _ (deviceWrite_of_no_register v hn hx hr), fun r hr => ?_⟩
  rw [deviceWrite_of_register v hx hr]
  refine ⟨_, exec_rfSetByAddr d a v.toNat s, fun hk hnm => ?_, fun hk hnm => ?_, fun hk hnm => ?_, fun hk hnm => ?_,
    fun hk hnm => ?_, fun k hk h6 hnm => ?_, fun hclock hgpio hradio htimer => ?_⟩
  · rw [hk, hnm, sideEffect_hfclkstart, exec_clockHfclkstart]
  · rw [hk, hnm, sideEffect_outset, exec_gpioOutset]
  · rw [hk, hnm, sideEffect_outclr, exec_gpioOutclr]
  · rw [hk, hnm, sideEffect_txen, exec_radioTxen]
  · rw [hk, hnm, sideEffect_rxen, exec_radioRxen]
  · rw [hk, hnm, sideEffect_capture d v _ h6, exec_timerCapture]
  · rw [sideEffect_of_storage d v _ hclock hgpio hradio htimer]

end Sys2Proof.Machine
end

section
/-! PROOFS. The exceptions family (60_exceptions.md): what comes once a fatal error is present (O52), and the
hardware-interrupt hook (O54). The idea of O52's teardown: a `stop()` acts on one device by `Device.endTick`, so the stops of a
teardown, one after the other, act on each device once and by itself. -/

namespace Sys2Proof.Machine

/-! ### What comes after a fatal error (R251, log 12) -/

theorem step_of_bad_fatal {s : State} {p : List Byte} {rest : List (List Byte)} {e : DecodeError} {f : Fatal}
    (hs : s.arrivals = p :: rest) (hd : decodeArrival p = .bad e) (hf : s.fatal = some f) :
    step s = .fault (.sessionAborted f) := by
  simp only [step, hs, takeArrival, hd, hf]

/-- A packet that is no `stop()`, no teardown and no reading of state is not taken after a fatal error. -/
theorem step_of_fatal {s : State} {p : List Byte} {rest : List (List Byte)} {f : Fatal} (hs : s.arrivals = p :: rest)
    (hf : s.fatal = some f) (hstop : ∀ d j, decodeArrival p ≠ .ok (.op (.timerStop d j)))
    (hdown : ∀ orphans, decodeArrival p ≠ .ok (.teardown orphans)) (hread : ∀ sel, decodeArrival p ≠ .ok (.read sel)) :
    step s = .fault (.sessionAborted f) := by
  cases hd : decodeArrival p with
  | bad e => exact step_of_bad_fatal hs hd hf
  | ok a =>
    refine step_of_notAdmitted hs hd ?_
    rw [notAdmitted_fatal a hf]
    cases a with
    | op i => cases i with
      | timerStop d j => exact absurd hd (hstop d j)
      | _ => rfl
    | teardown orphans => exact absurd hd (hdown orphans)
    | read sel => exact absurd hd (hread sel)
    | _ => rfl

/-! ### One `stop()` (R226) -/

/-- The device after a `stop()` of its Timer: its tick agent has ended unless it `stays`, its counter is kept (R226). -/
def Device.endTick (stays : Bool) (x : Device) : Device :=
  { x with body := match x.body with
    | .timer c run => .timer c (run && stays)
    | b => b }

@[simp] theorem endTick_id (stays : Bool) (x : Device) : (x.endTick stays).id = x.id := rfl

theorem endTick_true (x : Device) : x.endTick true = x := by
  obtain ⟨id, body, regs⟩ := x
  cases body <;> simp [Device.endTick]

theorem endTick_false (x : Device) : x.endTick false = { x with body := x.body.setRunning false } := by
  obtain ⟨id, body, regs⟩ := x
  cases body <;> simp [Device.endTick, DevBody.setRunning]

theorem endTick_of_not_running {x : Device} (stays : Bool) (h : x.body.isRunning = false) : x.endTick stays = x := by
  obtain ⟨id, body, regs⟩ := x
  cases body with
  | timer c run => cases h; rfl
  | _ => rfl

theorem endTick_endTick (stays : Bool) (x : Device) : (x.endTick stays).endTick stays = x.endTick stays := by
  cases stays with
  | true => rw [endTick_true]
  | false => exact endTick_of_not_running false (by rw [endTick_false]; exact setRunning_isRunning _)

theorem timerRunning_of_mem {s : State} {x : Device} (hn : (s.devices.map (·.id)).Nodup) (hx : x ∈ s.devices) :
    s.timerRunning x.id = x.body.isRunning := by
  simp only [State.timerRunning, State.device, find_id_of_mem hn hx]

/-- A `stop()` changes nothing but the devices and the fatal error. -/
theorem timerStop_frame (d : Ident) (j : Bool) (s : State) :
    timerStop d j s = { s with devices := (timerStop d j s).devices, fatal := (timerStop d j s).fatal } := by
  rcases timerStop_cases d j s with ⟨-, h⟩ | ⟨-, -, h⟩ | ⟨-, -, h⟩ <;> rw [h]
  · rfl
  · unfold raiseFatal
    split <;> rfl

/-- The tick agent that a `stop()` ends is its own Timer's; one that does not join stays (R226). -/
theorem timerStop_devices {s : State} (d : Ident) (j : Bool) (hn : (s.devices.map (·.id)).Nodup) :
    (timerStop d j s).devices = s.devices.map fun x => if x.id = d then x.endTick (!j) else x := by
  rcases timerStop_cases d j s with ⟨hr, h⟩ | ⟨-, rfl, h⟩ | ⟨-, rfl, h⟩ <;> rw [h]
  · refine (List.map_id s.devices).symm.trans (List.map_congr_left fun x hx => ?_)
    split
    · next hd =>
      rw [← hd, timerRunning_of_mem hn hx] at hr
      exact (endTick_of_not_running _ hr).symm
    · rfl
  · simp [endTick_false]
  · simp [endTick_true]

/-- A `stop()` keeps every RegisterFile: `timerStop_sameRegsBut` spares one identifier, and any other than `e` will do. -/
theorem timerStop_regs (d : Ident) (j : Bool) (s : State) (e : Ident) :
    ((timerStop d j s).device e).map (·.regs) = (s.device e).map (·.regs) :=
  timerStop_sameRegsBut (0 :: e) d j s e (List.cons_ne_self 0 e).symm

/-! ### Teardown (R288, R290) -/

theorem stopTimers_frame (orphans ids : List Ident) : ∀ s : State,
    stopTimers orphans ids s =
      { s with devices := (stopTimers orphans ids s).devices, fatal := (stopTimers orphans ids s).fatal } := by
  induction ids with
  | nil => exact fun _ => rfl
  | cons d rest ih =>
    intro s
    rw [stopTimers, ih, timerStop_frame d _ s]

/-- The stops of a teardown end every tick agent they come to but the orphans', whatever their order (R288). -/
theorem stopTimers_devices (orphans ids : List Ident) : ∀ s : State, (s.devices.map (·.id)).Nodup →
    (stopTimers orphans ids s).devices =
      s.devices.map fun x => if x.id ∈ ids then x.endTick (decide (x.id ∈ orphans)) else x := by
  induction ids with
  | nil => simp [stopTimers]
  | cons d rest ih =>
    intro s hn
    rw [stopTimers, ih _ (by rwa [timerStop_ids]), timerStop_devices d _ hn, List.map_map]
    refine List.map_congr_left fun x _ => ?_
    by_cases hd : x.id = d
    · subst hd
      by_cases hr : x.id ∈ rest <;> simp [hr, endTick_endTick]
    · simp [hd]

/-- A teardown halts the thread and ends every tick agent but the orphans'; beside them only the fatal error can change. -/
theorem endRun_eq (orphans : List Ident) {s : State} (hn : (s.devices.map (·.id)).Nodup) :
    endRun orphans s =
      { s with
        thread := .halted
        devices := s.devices.map fun x => x.endTick (decide (x.id ∈ orphans))
        fatal := (endRun orphans s).fatal } := by
  have hd : (endRun orphans s).devices = s.devices.map fun x => x.endTick (decide (x.id ∈ orphans)) := by
    refine (stopTimers_devices orphans _ { s with thread := .halted } hn).trans ?_
    exact List.map_congr_left fun x hx => if_pos (List.mem_map_of_mem hx)
  rw [← hd]
  exact stopTimers_frame orphans _ _

/-- Settles O52: `notAdmitted` lets only the three arrivals come, and each keeps the error that is present. -/
theorem noStepAfterFatalErrorButTeardown : Obligations.NoStepAfterFatalErrorButTeardown := by
  intro s f hf
  refine ⟨fun hs => by simp only [step, hs, idle, hf], fun p rest hs => ⟨fun d j hd => ?_, fun orphans hd hn => ?_,
    fun sel hd => ?_, step_of_fatal hs hf⟩⟩
  · have hfatal : (timerStop d j (s.consume rest)).fatal = some f := (timerStop_follows d j _).fatal f hf
    refine ⟨_, step_of_admitted hs hd (notAdmitted_fatal _ hf), ?_, timerStop_regs d j _⟩
    rw [timerStop_frame, hfatal, ← hf]
    rfl
  · have hfatal : (endRun orphans (s.consume rest)).fatal = some f := (endRun_follows orphans _).fatal f hf
    rw [step_of_admitted hs hd (notAdmitted_fatal _ hf), runArrival, endRun_eq orphans (s := s.consume rest) hn, hfatal, ← hf]
    rfl
  · obtain ⟨v, hv⟩ := readState_eq sel (s.consume rest)
    refine ⟨v, ?_⟩
    rw [step_of_admitted hs hd (notAdmitted_fatal _ hf), runArrival, hv]
    rfl

/-! ### The hardware-interrupt hook (R263) -/

theorem hwIrqHook_of_unmapped {s : State} {k : Nat} (h : ∀ e ∈ s.params.irqMap, e.1 ≠ k) : hwIrqHook k s = s := by
  rw [hwIrqHook, List.find?_eq_none.2 (by simpa using h)]

/-- The first pair of a substrate number answers (log 7). -/
theorem hwIrqHook_of_mapped {s : State} {k n : Nat} {pre post : List (Nat × Nat)}
    (h : s.params.irqMap = pre ++ (k, n) :: post) (hpre : ∀ e ∈ pre, e.1 ≠ k) : hwIrqHook k s = raiseException n s := by
  have hfind : s.params.irqMap.find? (fun e => e.1 == k) = some (k, n) := by
    rw [h, List.find?_append, List.find?_eq_none.2 (by simpa using hpre)]
    simp
  rw [hwIrqHook, hfind]

/-- Settles O54: the running substrate's hook comes, and raises the number that the map's first pair gives. -/
theorem hardwareInterruptHookRaises : Obligations.HardwareInterruptHookRaises := by
  rintro s p rest k ⟨hf, ht⟩ hs hd
  have hstep : step s = .next (hwIrqHook k (s.consume rest)) := step_of_admitted hs hd (notAdmitted_running _ hf ht)
  refine ⟨fun h => ?_, fun pre n post hmap hpre => ?_⟩
  · rw [hstep, hwIrqHook_of_unmapped (s := s.consume rest) h]
    rfl
  · rw [hstep, hwIrqHook_of_mapped (s := s.consume rest) hmap hpre]
    rfl

end Sys2Proof.Machine
end

section
/-! PROOFS. The reset family (70_reset_and_hazards.md): the start of a session (O48, O49), the deadline (O50) and the reset
state (O60). The ideas: of the ways `sessionStart_cases` lists, the image and the lists leave exactly one; the fatal error
of a teardown is the first orphan's among the Timers that ran when it began. -/

namespace Sys2Proof.Machine

/-! ### Memory at launch (R283, log 26) -/

/-- A byte outside every block written reads as before. -/
theorem Memory.read_writeBlocks_outside {x : Nat} (bs : List (Word × List Byte)) : ∀ m : Memory,
    (∀ b ∈ bs, outside b.1 b.2.length x) → (bs.foldl (fun m b => m.writeBytes b.1 b.2) m).read x = m.read x := by
  induction bs with
  | nil => exact fun _ _ => rfl
  | cons b bs ih =>
    intro m h
    obtain ⟨hb, hbs⟩ := List.forall_mem_cons.1 h
    exact (ih _ hbs).trans (Memory.read_writeBytes_outside b.2 m b.1 x hb)

/-- A byte that the launch draw does not give reads as 0 (log 11). -/
theorem launchMem_read_outside {l : Launch} {x : Nat} (h : ∀ b ∈ l.mem, outside b.1 b.2.length x) :
    (launchMem l).read x = 0 :=
  Memory.read_writeBlocks_outside l.mem [] h

/-- A byte of a block that no later block covers is the block's. -/
theorem launchMem_read_block {l : Launch} {pre post : List (Word × List Byte)} {b : Word × List Byte} {i : Nat}
    (hl : l.mem = pre ++ b :: post) (hlen : b.2.length ≤ 2 ^ 32) (hi : i < b.2.length)
    (hpost : ∀ c ∈ post, outside c.1 c.2.length (b.1 + BitVec.ofNat 32 i).toNat) :
    b.2[i]? = some ((launchMem l).read (b.1 + BitVec.ofNat 32 i).toNat) := by
  rw [launchMem, hl, List.foldl_append, List.foldl_cons, Memory.read_writeBlocks_outside post _ hpost]
  exact getElem?_of_writeBytes _ b.1 hlen hi

/-! ### The start of a session (R280) -/

theorem exec_sessionStart (image : List Byte) (devs : List DevSpec) (plat : Platform) (s : State) :
    exec (.sessionStart image devs plat) s = .next (sessionStart image devs plat s) := rfl

section
variable {image : List Byte} {devs : List DevSpec} {plat : Platform} {s : State}

theorem sessionStart_of_short (hf : s.fatal = none) (h : image.length < 72) :
    sessionStart image devs plat s = { s with fatal := some (.imageTooShort image.length) } :=
  (if_pos h).trans (raiseFatal_of_none hf)

theorem sessionStart_of_repeated_id {id : Ident} (hf : s.fatal = none) (h72 : 72 ≤ image.length)
    (hid : firstRepeat (devs.map (·.id)) = some id) :
    sessionStart image devs plat s =
      { s with vt := VectorTable.ofWords (imageWord image), fatal := some (.duplicateRegister id .identify) } := by
  rcases sessionStart_cases image devs plat s hf with
    ⟨h, -⟩ | ⟨id', -, hid', h⟩ | ⟨_, _, _, _, -, hid', -⟩ | ⟨-, hid', -⟩
  · omega
  · rw [h, Option.some.inj (hid'.symm.trans hid)]
  · cases hid'.symm.trans hid
  · cases hid'.symm.trans hid

/-- The device whose registers `constructAll` rejects, as a search finds it. -/
theorem find_first_duplicate {pre post : List DevSpec} {d : DevSpec} {w : Duplicate}
    (hd : devs = pre ++ d :: post) (hpre : ∀ e ∈ pre, duplicateIn e.regs = none) (hw : duplicateIn d.regs = some w) :
    devs.find? (fun e => (duplicateIn e.regs).isSome) = some d :=
  List.find?_eq_some_iff_append.2 ⟨by simp [hw], pre, post, hd, fun e he => by simp [hpre e he]⟩

theorem sessionStart_of_duplicate {pre post : List DevSpec} {d : DevSpec} {w : Duplicate} (hf : s.fatal = none)
    (h72 : 72 ≤ image.length) (hid : (devs.map (·.id)).Nodup) (hd : devs = pre ++ d :: post)
    (hpre : ∀ e ∈ pre, duplicateIn e.regs = none) (hw : duplicateIn d.regs = some w) :
    ∃ t, sessionStart image devs plat s = t ∧
      t = { s with vt := t.vt, devices := t.devices, named := t.named, params := t.params,
                   fatal := some (.duplicateRegister d.id w) } := by
  rcases sessionStart_cases image devs plat s hf with
    ⟨h, -⟩ | ⟨id, -, h, -⟩ | ⟨pre', d', post', w', -, -, hd', hpre', hw', h⟩ | ⟨-, -, h, -⟩
  · omega
  · cases ((firstRepeat_none _).2 hid).symm.trans h
  · obtain rfl : d = d' := Option.some.inj ((find_first_duplicate hd hpre hw).symm.trans (find_first_duplicate hd' hpre' hw'))
    rw [h, Option.some.inj (hw'.symm.trans hw)]
    exact ⟨_, rfl, rfl⟩
  · cases (h d (by simp [hd])).symm.trans hw

theorem sessionStart_of_unique (hf : s.fatal = none) (h72 : 72 ≤ image.length) (hid : (devs.map (·.id)).Nodup)
    (hregs : ∀ d ∈ devs, duplicateIn d.regs = none) :
    sessionStart image devs plat s = { s with
      vt := VectorTable.ofWords (imageWord image), devices := devs.map builtDevice, named := [], pend := [], afs := []
      fatal := none, log := [], cpu := launchCpu plat.launch (VectorTable.ofWords (imageWord image))
      mem := launchMem plat.launch
      params := { s.params with hwDb := plat.hwDb, mapped := plat.launch.mapped, irqMap := plat.irqMap }
      thread := .ready, cbCode := [] } := by
  rcases sessionStart_cases image devs plat s hf with
    ⟨h, -⟩ | ⟨id, -, h, -⟩ | ⟨pre, d, post, w, -, -, hd, -, hw, -⟩ | ⟨-, -, -, h⟩
  · omega
  · cases ((firstRepeat_none _).2 hid).symm.trans h
  · cases (hregs d (by simp [hd])).symm.trans hw
  · exact h

end

/-- Settles O48: with a long image and no repeat the start runs to its end, `sessionStart_of_unique`. -/
theorem sessionStartSetsResetTable : Obligations.SessionStartSetsResetTable := by
  intro image devs db im l s hf h72 hid hregs
  have hstart := sessionStart_of_unique (plat := { hwDb := db, irqMap := im, launch := l }) hf h72 hid
    fun d hd => (duplicateIn_none d.regs).2 (hregs d hd)
  refine ⟨_, _, exec_vtParse image s, exec_sessionStart image devs _ s, ?_⟩
  rw [hstart, parseImage_of_long s h72]
  refine ⟨rfl, fun i => ?_, fun k => FpRegs.s_ofWords _ k, rfl, fun pre b post hl hlen i hi hpost => ?_, fun x hx => ?_⟩
  · exact (getLsbD_withIpsr l.xpsr 0 i).trans (by simp)
  · exact launchMem_read_block hl hlen hi hpost
  · exact launchMem_read_outside hx

/-- Settles O49: the checks of R280 steps 1 to 3 come in order, and the first that fails ends the start. -/
theorem sessionStartRejectsBadConfiguration : Obligations.SessionStartRejectsBadConfiguration := by
  intro image devs db im l s hf
  simp only [exec_sessionStart, Host.Outcome.next.injEq]
  refine ⟨sessionStart_of_short hf, fun h72 hid => ?_, fun h72 hid pre d post hd hpre => ?_⟩
  · obtain ⟨id, hfirst, hdup⟩ := firstRepeat_duplicate _ hid
    exact ⟨_, id, hdup, sessionStart_of_repeated_id hf h72 hfirst, rfl⟩
  · have hpre' : ∀ e ∈ pre, duplicateIn e.regs = none := fun e he => (duplicateIn_none e.regs).2 (hpre e he)
    refine ⟨fun hn => ?_, fun hn ha => ?_⟩
    · obtain ⟨nm, hw, hdup⟩ := duplicateIn_name d.regs hn
      obtain ⟨t, ht⟩ := sessionStart_of_duplicate hf h72 hid hd hpre' hw
      exact ⟨t, nm, hdup, ht⟩
    · obtain ⟨ad, hw, hdup⟩ := duplicateIn_address d.regs hn ha
      obtain ⟨t, ht⟩ := sessionStart_of_duplicate hf h72 hid hd hpre' hw
      exact ⟨t, ad, hdup, ht⟩

/-! ### The deadline (R289) -/

theorem exec_sessionDeadline (orphans : List Ident) (s : State) :
    exec (.sessionDeadline orphans) s = .next (endRun orphans s) := rfl

/-- The stop of a Timer that joins leaves every orphan running that ran before. -/
theorem timerStop_keeps_orphan {orphans : List Ident} {d : Ident} (hd : d ∉ orphans) (s : State) (e : Ident) :
    ((timerStop d true s).timerRunning e && decide (e ∈ orphans)) = (s.timerRunning e && decide (e ∈ orphans)) := by
  rcases timerStop_cases d true s with ⟨-, h⟩ | ⟨-, -, h⟩ | ⟨-, hj, -⟩
  · rw [h]
  · rw [h, timerRunning_setRunning]
    by_cases he : e = d
    · simp [he, hd]
    · simp [he]
  · cases hj

/-- The fatal error of the stops of a teardown is that of the first orphan among the Timers that run (R290, log 15). -/
theorem stopTimers_fatal (orphans ids : List Ident) : ∀ s : State, s.fatal = none →
    (stopTimers orphans ids s).fatal =
      (ids.find? fun d => s.timerRunning d && decide (d ∈ orphans)).map .tickJoinFailure := by
  induction ids with
  | nil => exact fun _ hf => hf
  | cons d rest ih =>
    intro s hf
    rw [stopTimers]
    by_cases ho : d ∈ orphans
    · cases hr : s.timerRunning d with
      | true =>
        have hfail : (timerStop d false s).fatal = some (.tickJoinFailure d) := by
          rw [timerStop_fails hr, raiseFatal_of_none hf]
        simpa [ho, hr] using (stopTimers_follows orphans rest _).fatal _ hfail
      | false =>
        rw [timerStop_of_not_running _ hr, ih s hf]
        simp [hr]
    · have hjoin : (timerStop d true s).fatal = none := by
        rcases timerStop_cases d true s with ⟨-, h⟩ | ⟨-, -, h⟩ | ⟨-, hj, -⟩
        · rw [h, hf]
        · rw [h, updateDevice_fatal, hf]
        · cases hj
      rw [decide_eq_true ho, ih _ hjoin]
      simp only [timerStop_keeps_orphan ho, List.find?_cons, ho, decide_false, Bool.and_false]

/-- Whether a device's tick agent does not exit at a teardown (R288). -/
def Device.isOrphan (orphans : List Ident) (x : Device) : Bool := x.body.isRunning && decide (x.id ∈ orphans)

theorem isOrphan_iff {orphans : List Ident} {x : Device} :
    x.isOrphan orphans = true ↔ x.body.isRunning = true ∧ x.id ∈ orphans := by
  rw [Device.isOrphan, Bool.and_eq_true, decide_eq_true_iff]

theorem isOrphan_eq_false {orphans : List Ident} {x : Device} (h : x.body.isRunning = true → x.id ∉ orphans) :
    x.isOrphan orphans = false :=
  Bool.eq_false_iff.2 fun ho => have ⟨hrun, hmem⟩ := isOrphan_iff.1 ho; h hrun hmem

/-- The fatal error of the end of a run is that of its first orphan (R290, log 15). -/
theorem endRun_fatal (orphans : List Ident) {s : State} (hf : s.fatal = none) (hn : (s.devices.map (·.id)).Nodup) :
    (endRun orphans s).fatal =
      (s.devices.find? (Device.isOrphan orphans)).map fun x => .tickJoinFailure x.id := by
  have hfind : s.devices.find? (fun x => State.timerRunning { s with thread := .halted } x.id && decide (x.id ∈ orphans)) =
      s.devices.find? (Device.isOrphan orphans) :=
    List.find?_congr fun x hx => by
      rw [timerRunning_of_mem (s := { s with thread := .halted }) hn hx, Device.isOrphan]
  rw [endRun, stopTimers_fatal orphans _ { s with thread := .halted } hf, List.find?_map, Option.map_map]
  exact congrArg _ hfind

/-- Settles O50: what a teardown changes is `endRun_eq`, its error `endRun_fatal`. -/
theorem deadlineHaltsAndStopsEveryTimer : Obligations.DeadlineHaltsAndStopsEveryTimer := by
  intro orphans s hf hn
  have hrun := endRun_eq orphans hn
  have hfatal := endRun_fatal orphans hf hn
  have hdevices := congrArg State.devices hrun
  refine ⟨_, exec_sessionDeadline orphans s, ?_, hdevices, fun hjoin => ?_, fun pre x post hd hx ho hpre => ?_⟩
  · rw [hdevices]
    exact hrun
  · have hnone : s.devices.find? (Device.isOrphan orphans) = none :=
      List.find?_eq_none.2 fun x hx => by simp [isOrphan_eq_false (hjoin x hx)]
    rw [hfatal, hnone]
    rfl
  · have hfirst : s.devices.find? (Device.isOrphan orphans) = some x :=
      List.find?_eq_some_iff_append.2
        ⟨isOrphan_iff.2 ⟨hx, ho⟩, pre, post, hd, fun y hy => by simp [isOrphan_eq_false (hpre y hy)]⟩
    rw [hfatal, hfirst]
    rfl

/-! ### The reset state (R286) -/

/-- Settles O60: the launch registers and the vector table of `State.reset` are the words 0. -/
theorem resetMeetsTheResetTable : Obligations.ResetMeetsTheResetTable :=
  ⟨rfl, rfl, rfl, by decide, rfl, rfl, rfl, rfl⟩

end Sys2Proof.Machine
end
